-- ==== Sys2Proof/Word.lean ====
section
/-! DEFINITION. The bit-vector and index types of the block (00_scope.md R16, 10_state.md R21). -/

namespace Sys2Proof

/-- `Byte`: an integer in 0..255 (00_scope.md R16). -/
abbrev Byte := BitVec 8

/-- `Word16`: an integer in 0..65535 (00_scope.md R16). -/
abbrev Word16 := BitVec 16

/-- The 32-bit command word (30_encoding.md R54). -/
abbrev Word32 := BitVec 32

/-- The 2-bit quarter-turn code held by `ROT` (10_state.md R21). -/
abbrev RotCode := BitVec 2

/-- `Slot`: the physical index 0..63 (00_scope.md R16, R19). -/
abbrev Slot := Fin 64

/-- A logical coordinate that has passed its range check, 0..7 (41_rotation.md R79). -/
abbrev Coord := Fin 8

end Sys2Proof
end

