-- ==== Sys2Proof/Syntax.lean ====
section
/-! DEFINITION. The value domains (00_scope.md R13 to R18), the 30 commands of the opcode map (30_encoding.md R58)
and the form in which the host presents a command: a word and an operand tuple (R54). -/

namespace Sys2Proof

/-- `RGB`: a triple of channels, each in 0..255 (00_scope.md R13). -/
structure RGB where
  r : Byte
  g : Byte
  b : Byte
  deriving DecidableEq, Repr

/-- `BLACK` is `(0, 0, 0)` (00_scope.md R13). -/
def BLACK : RGB := ⟨0, 0, 0⟩

/-- One component of a raw color: an integer of any size, or something that is not an integer (00_scope.md R14). -/
inductive Comp where
  | int (z : Int)
  | nonint
  deriving DecidableEq, Repr

/-- `RawColor`: a list of components (00_scope.md R14). -/
abbrev RawColor := List Comp

/-- `RawGrid`: a list of raw colors of any length (00_scope.md R15). -/
abbrev RawGrid := List RawColor

/-- `Str`: a list of Unicode scalar values; Lean's `Char` is one such value (00_scope.md R17). -/
abbrev Str := List Char

/-- `Hold`: a natural number, recorded and never interpreted (00_scope.md R18). -/
abbrev Hold := Nat

/-- The commands, one constructor per row of the opcode table, operands typed as 30_encoding.md R58 types them.
`Glyph` and `Grid` operands are lists whose length `Instr.wf` checks. -/
inductive Instr where
  -- 40_color_codec.md
  | pack (r g b : Int)
  | unpack (w : Word16)
  | validate (c : RawColor)
  -- 41_rotation.md
  | setrot (a : Int)
  | setrotR (a : Int)
  | getrot
  | slot (x y : Int)
  | sloti (i : Int)
  -- 42_pixel_buffer.md
  | fbDecode
  | fbEncode (g : RawGrid)
  | checkgrid (g : RawGrid)
  | getpix (x y : Int)
  | setpix (x y : Int) (c : RawColor)
  -- 43_glyph_store.md
  | lookup (t : Str)
  -- 44_text_renderer.md
  | trim (gl : List RGB)
  | recolor (p : List RGB) (fg bg : RGB)
  | renderletter (t : Str) (fg bg : RGB)
  | renderstring (t : Str) (fg bg : RGB)
  | scroll (seq : List RGB) (step : Int)
  | showletter (t : Str) (fg bg : RawColor)
  | showmsg (t : Str) (fg bg : RawColor) (hold : Hold)
  | flash (t : Str) (fg bg : RawColor) (hold : Hold)
  -- 45_mirror_ops.md
  | hmirror (g : List RGB)
  | vmirror (g : List RGB)
  | fliph
  | fliphR
  | flipv
  | flipvR
  -- 46_diagnostics.md
  | getdiag
  | clrdiag
  deriving DecidableEq, Repr

/-- A value the host can put in an operand tuple: an integer, a raw color, a list of raw colors or a string
(30_encoding.md R61, R70).  An `RGB` is presented as its embedding in `RawColor` (00_scope.md R14). -/
inductive Value where
  | int (z : Int)
  | color (c : RawColor)
  | list (cs : List RawColor)
  | str (t : Str)
  deriving DecidableEq, Repr

/-- A command as the host presents it: a 32-bit word together with an operand tuple (30_encoding.md R54). -/
structure Command where
  word : Word32
  operands : List Value
  deriving DecidableEq, Repr

end Sys2Proof
end

