-- ==== Sys2Proof/Config.lean ====
section
/-! DEFINITION. The fixed parameters of the block (00_scope.md R7) and the free values: what the spec leaves open, as
constants with no body, so that no proof can see a value of them (93_implementation_defined.md). -/

namespace Sys2Proof.Config

/-! ### Fixed parameters (00_scope.md R7) -/

/-- `W`: the row length. -/
@[simp] abbrev rowLen : Nat := 8

/-- `NPIX`, `FRAME_LEN`: the elements of a grid and of a scroll frame. -/
@[simp] abbrev frameLen : Nat := 64

/-- `FB_BYTES`: the size of the physical buffer. -/
@[simp] abbrev fbBytes : Nat := 128

/-- `GLYPH_LEN`. -/
@[simp] abbrev glyphLen : Nat := 40

/-- `LETTER_LEAD`: renderLetter's leading pad. -/
@[simp] abbrev letterLead : Nat := 8

/-- `LETTER_TRAIL`: renderLetter's trailing pad. -/
@[simp] abbrev letterTrail : Nat := 16

/-- `STR_LEAD`: renderString's leading pad. -/
@[simp] abbrev strLead : Nat := 8

/-- `GLYPH_GAP`: the pad after each glyph in renderString. -/
@[simp] abbrev glyphGap : Nat := 16

/-- `STR_TRAIL`: renderString's trailing pad. -/
@[simp] abbrev strTrail : Nat := 8

/-- `STEP_DEFAULT`: the scroll step of SHOWMSG. -/
@[simp] abbrev stepDefault : Nat := 8

/-- `TEXT_ROT_OFFSET`: +90 degrees, one quarter turn. -/
@[simp] abbrev textRotOffset : RotCode := 1

/-- `FALLBACK_CHAR`. -/
@[simp] abbrev fallbackChar : Char := '?'

/-! ### Free values

Each is applied to `State.draws`, the number of the draw.  DESIGN CHOICE (log 9): the form of a draw. -/

/-- PACK's result for a channel outside 0..255: any `Word16` (40_color_codec.md R74; 93 U1; log 8). -/
opaque packDraw : Nat → Word16

/-- The environment's answer to a transaction for which `State.io` lists none: `true` is `ok` (20_memory.md R39, R40;
93 U4; log 6). -/
opaque ioDraw : Nat → Bool

/-- The byte that the failed write number `n` leaves at an offset it addressed (20_memory.md R40; 93 U3; log 7). -/
opaque failedByte : Nat → Nat → Byte

/-- What `SAVED` holds once the command that used it has ended, and after a reset input (10_state.md R26, R33; 93 U7;
log 4). -/
opaque savedDraw : Nat → RotCode

/-- The glyph of a lookup in a table that has neither the character nor `'?'`, which no READY block has
(43_glyph_store.md R98, R100; log 17). -/
opaque noFallbackGlyph : List RGB

end Sys2Proof.Config
end

