-- ==== Sys2Proof/WellFormed.lean ====
section
/-! DEFINITION. Which commands are of their operand types.  Only the `Glyph` and `Grid` operands need a check: every
other operand type of 30_encoding.md R58 is a Lean type of its own (00_scope.md R15, R16, 30_encoding.md R61). -/

namespace Sys2Proof

/-- A `Glyph` has exactly 40 pixels, a `Grid` exactly 64 (00_scope.md R15, R16). -/
def Instr.wf : Instr → Bool
  | .pack _ _ _ => true
  | .unpack _ => true
  | .validate _ => true
  | .setrot _ => true
  | .setrotR _ => true
  | .getrot => true
  | .slot _ _ => true
  | .sloti _ => true
  | .fbDecode => true
  | .fbEncode _ => true
  | .checkgrid _ => true
  | .getpix _ _ => true
  | .setpix _ _ _ => true
  | .lookup _ => true
  | .trim gl => gl.length == 40
  | .recolor _ _ _ => true
  | .renderletter _ _ _ => true
  | .renderstring _ _ _ => true
  | .scroll _ _ => true
  | .showletter _ _ _ => true
  | .showmsg _ _ _ _ => true
  | .flash _ _ _ _ => true
  | .hmirror g => g.length == 64
  | .vmirror g => g.length == 64
  | .fliph => true
  | .fliphR => true
  | .flipv => true
  | .flipvR => true
  | .getdiag => true
  | .clrdiag => true

end Sys2Proof
end

