-- ==== Sys2Proof/Decode.lean ====
section
/-! DEFINITION. From a presented command (word and operand tuple) to an instruction or a refusal by name, total on
every word and every tuple (30_encoding.md R54 to R62), and back (R72). -/

namespace Sys2Proof

/-! ### Raw colors and RGB values (00_scope.md R13, R14) -/

/-- A channel value, when the integer is in 0..255. -/
def channel? (z : Int) : Option Byte :=
  if 0 ≤ z ∧ z ≤ 255 then some (BitVec.ofNat 8 z.toNat) else none

/-- The `RGB` a raw color stands for: exactly 3 integer components each in 0..255 (00_scope.md R14, 40_color_codec.md
R76). -/
def RawColor.toRGB? : RawColor → Option RGB
  | [.int r, .int g, .int b] => do
    let r ← channel? r
    let g ← channel? g
    let b ← channel? b
    some ⟨r, g, b⟩
  | _ => none

/-- `(r, g, b)` embeds as `[int(r), int(g), int(b)]` (00_scope.md R14). -/
def RGB.toRaw (c : RGB) : RawColor := [.int c.r.toNat, .int c.g.toNat, .int c.b.toNat]

/-- Every element of a list of raw colors as an `RGB`, if each is one. -/
def toRGBs? : List RawColor → Option (List RGB)
  | [] => some []
  | c :: cs => do
    let v ← RawColor.toRGB? c
    let vs ← toRGBs? cs
    some (v :: vs)

/-! ### Operand types (30_encoding.md R58, R61) -/

/-- The operand types of 30_encoding.md R58. -/
inductive OperandType where
  | int | word16 | rgb | rawColor | grid | rawGrid | glyph | pixels | str | hold
  deriving DecidableEq, Repr

def Value.int? : Value → Option Int
  | .int z => some z
  | _ => none

/-- `Word16`: 0..65535 (00_scope.md R16). -/
def Value.word16? : Value → Option Word16
  | .int z => if 0 ≤ z ∧ z ≤ 65535 then some (BitVec.ofNat 16 z.toNat) else none
  | _ => none

def Value.raw? : Value → Option RawColor
  | .color c => some c
  | _ => none

def Value.rgb? : Value → Option RGB
  | .color c => RawColor.toRGB? c
  | _ => none

def Value.rawGrid? : Value → Option RawGrid
  | .list cs => some cs
  | _ => none

def Value.pixels? : Value → Option (List RGB)
  | .list cs => toRGBs? cs
  | _ => none

/-- A list of exactly `n` `RGB` values: `Glyph` for 40, `Grid` for 64 (00_scope.md R15, R16). -/
def Value.pixelsOf? (n : Nat) (v : Value) : Option (List RGB) :=
  match v.pixels? with
  | some p => if p.length = n then some p else none
  | none => none

def Value.str? : Value → Option Str
  | .str t => some t
  | _ => none

/-- `Hold`: a natural number (00_scope.md R18). -/
def Value.hold? : Value → Option Hold
  | .int z => if 0 ≤ z then some z.toNat else none
  | _ => none

/-- Is the value of the type? (30_encoding.md R61) -/
def OperandType.admits : OperandType → Value → Bool
  | .int, v => v.int?.isSome
  | .word16, v => v.word16?.isSome
  | .rgb, v => v.rgb?.isSome
  | .rawColor, v => v.raw?.isSome
  | .grid, v => (v.pixelsOf? Config.frameLen).isSome
  | .rawGrid, v => v.rawGrid?.isSome
  | .glyph, v => (v.pixelsOf? Config.glyphLen).isSome
  | .pixels, v => v.pixels?.isSome
  | .str, v => v.str?.isSome
  | .hold, v => v.hold?.isSome

/-- The tuple has the types, one value for each. -/
def admitsAll : List OperandType → List Value → Bool
  | [], [] => true
  | t :: ts, v :: vs => t.admits v && admitsAll ts vs
  | _, _ => false

/-! ### Opcodes (30_encoding.md R55, R56, R58) -/

/-- The 27 opcodes of 30_encoding.md R58. -/
inductive Opcode where
  | pack | unpack | validate
  | setrot | getrot | slot | sloti
  | decode | encode | checkgrid | getpix | setpix
  | lookup
  | trim | recolor | renderletter | renderstring | scroll
  | showletter | showmsg | flash
  | hmirror | vmirror | fliph | flipv
  | getdiag | clrdiag
  deriving DecidableEq, Repr

/-- The `OP` column of 30_encoding.md R58. -/
def Opcode.code : Opcode → Byte
  | .pack => 0x01 | .unpack => 0x02 | .validate => 0x03
  | .setrot => 0x10 | .getrot => 0x11 | .slot => 0x12 | .sloti => 0x13
  | .decode => 0x20 | .encode => 0x21 | .checkgrid => 0x22 | .getpix => 0x23 | .setpix => 0x24
  | .lookup => 0x30
  | .trim => 0x40 | .recolor => 0x41 | .renderletter => 0x42 | .renderstring => 0x43 | .scroll => 0x44
  | .showletter => 0x48 | .showmsg => 0x49 | .flash => 0x4A
  | .hmirror => 0x50 | .vmirror => 0x51 | .fliph => 0x52 | .flipv => 0x53
  | .getdiag => 0x60 | .clrdiag => 0x61

/-- The opcode an `OP` value names, if the table has it (30_encoding.md R58, R59). -/
def Opcode.ofCode (c : Byte) : Option Opcode :=
  match c.toNat with
  | 0x01 => some .pack
  | 0x02 => some .unpack
  | 0x03 => some .validate
  | 0x10 => some .setrot
  | 0x11 => some .getrot
  | 0x12 => some .slot
  | 0x13 => some .sloti
  | 0x20 => some .decode
  | 0x21 => some .encode
  | 0x22 => some .checkgrid
  | 0x23 => some .getpix
  | 0x24 => some .setpix
  | 0x30 => some .lookup
  | 0x40 => some .trim
  | 0x41 => some .recolor
  | 0x42 => some .renderletter
  | 0x43 => some .renderstring
  | 0x44 => some .scroll
  | 0x48 => some .showletter
  | 0x49 => some .showmsg
  | 0x4A => some .flash
  | 0x50 => some .hmirror
  | 0x51 => some .vmirror
  | 0x52 => some .fliph
  | 0x53 => some .flipv
  | 0x60 => some .getdiag
  | 0x61 => some .clrdiag
  | _ => none

/-- `R` is legal only on SETROT, FLIPH and FLIPV (30_encoding.md R56). -/
def Opcode.takesRedraw : Opcode → Bool
  | .setrot => true
  | .fliph => true
  | .flipv => true
  | _ => false

/-- The `Operands` column of 30_encoding.md R58. -/
def Opcode.signature : Opcode → List OperandType
  | .pack => [.int, .int, .int]
  | .unpack => [.word16]
  | .validate => [.rawColor]
  | .setrot => [.int]
  | .getrot => []
  | .slot => [.int, .int]
  | .sloti => [.int]
  | .decode => []
  | .encode => [.rawGrid]
  | .checkgrid => [.rawGrid]
  | .getpix => [.int, .int]
  | .setpix => [.int, .int, .rawColor]
  | .lookup => [.str]
  | .trim => [.glyph]
  | .recolor => [.pixels, .rgb, .rgb]
  | .renderletter => [.str, .rgb, .rgb]
  | .renderstring => [.str, .rgb, .rgb]
  | .scroll => [.pixels, .int]
  | .showletter => [.str, .rawColor, .rawColor]
  | .showmsg => [.str, .rawColor, .rawColor, .hold]
  | .flash => [.str, .rawColor, .rawColor, .hold]
  | .hmirror => [.grid]
  | .vmirror => [.grid]
  | .fliph => []
  | .flipv => []
  | .getdiag => []
  | .clrdiag => []

/-! ### Decoding -/

/-- Why a presented command is refused (30_encoding.md R62). -/
inductive DecodeError where
  /-- A bit of 31:9 is set (30_encoding.md R57). -/
  | reservedBits
  /-- `OP` is not in the table (30_encoding.md R59). -/
  | unknownOpcode
  /-- `R = 1` on an opcode without redraw (30_encoding.md R56). -/
  | redrawMisused
  /-- The operand tuple is not of the opcode's types (30_encoding.md R61). -/
  | illTyped
  deriving DecidableEq, Repr

/-- The word's part of `decode` (30_encoding.md R62), in its order of checks. -/
def decodeWord (w : Word32) : Except DecodeError (Opcode × Bool) :=
  if w.extractLsb' 9 23 ≠ 0 then .error .reservedBits
  else
    match Opcode.ofCode (w.extractLsb' 0 8) with
    | none => .error .unknownOpcode
    | some op =>
      if w.getLsbD 8 && !op.takesRedraw then .error .redrawMisused
      else .ok (op, w.getLsbD 8)

/-- The constructors' operand forms: a tuple of no, one, two, three or four values. -/
def tuple0 (i : Instr) : List Value → Option Instr
  | [] => some i
  | _ => none

def tuple1 {α : Type} (p : Value → Option α) (mk : α → Instr) : List Value → Option Instr
  | [a] => (p a).map mk
  | _ => none

def tuple2 {α β : Type} (p : Value → Option α) (q : Value → Option β) (mk : α → β → Instr) :
    List Value → Option Instr
  | [a, b] => do
    let x ← p a
    let y ← q b
    some (mk x y)
  | _ => none

def tuple3 {α β γ : Type} (p : Value → Option α) (q : Value → Option β) (r : Value → Option γ)
    (mk : α → β → γ → Instr) : List Value → Option Instr
  | [a, b, c] => do
    let x ← p a
    let y ← q b
    let z ← r c
    some (mk x y z)
  | _ => none

def tuple4 {α β γ δ : Type} (p : Value → Option α) (q : Value → Option β) (r : Value → Option γ)
    (t : Value → Option δ) (mk : α → β → γ → δ → Instr) : List Value → Option Instr
  | [a, b, c, d] => do
    let x ← p a
    let y ← q b
    let z ← r c
    let u ← t d
    some (mk x y z u)
  | _ => none

/-- The instruction of an opcode, a redraw flag and an operand tuple of the opcode's types (30_encoding.md R58). -/
def ofOperands : Opcode → Bool → List Value → Option Instr
  | .pack, _ => tuple3 Value.int? Value.int? Value.int? .pack
  | .unpack, _ => tuple1 Value.word16? .unpack
  | .validate, _ => tuple1 Value.raw? .validate
  | .setrot, false => tuple1 Value.int? .setrot
  | .setrot, true => tuple1 Value.int? .setrotR
  | .getrot, _ => tuple0 .getrot
  | .slot, _ => tuple2 Value.int? Value.int? .slot
  | .sloti, _ => tuple1 Value.int? .sloti
  | .decode, _ => tuple0 .fbDecode
  | .encode, _ => tuple1 Value.rawGrid? .fbEncode
  | .checkgrid, _ => tuple1 Value.rawGrid? .checkgrid
  | .getpix, _ => tuple2 Value.int? Value.int? .getpix
  | .setpix, _ => tuple3 Value.int? Value.int? Value.raw? .setpix
  | .lookup, _ => tuple1 Value.str? .lookup
  | .trim, _ => tuple1 (Value.pixelsOf? Config.glyphLen) .trim
  | .recolor, _ => tuple3 Value.pixels? Value.rgb? Value.rgb? .recolor
  | .renderletter, _ => tuple3 Value.str? Value.rgb? Value.rgb? .renderletter
  | .renderstring, _ => tuple3 Value.str? Value.rgb? Value.rgb? .renderstring
  | .scroll, _ => tuple2 Value.pixels? Value.int? .scroll
  | .showletter, _ => tuple3 Value.str? Value.raw? Value.raw? .showletter
  | .showmsg, _ => tuple4 Value.str? Value.raw? Value.raw? Value.hold? .showmsg
  | .flash, _ => tuple4 Value.str? Value.raw? Value.raw? Value.hold? .flash
  | .hmirror, _ => tuple1 (Value.pixelsOf? Config.frameLen) .hmirror
  | .vmirror, _ => tuple1 (Value.pixelsOf? Config.frameLen) .vmirror
  | .fliph, false => tuple0 .fliph
  | .fliph, true => tuple0 .fliphR
  | .flipv, false => tuple0 .flipv
  | .flipv, true => tuple0 .flipvR
  | .getdiag, _ => tuple0 .getdiag
  | .clrdiag, _ => tuple0 .clrdiag

/-- `decode` of 30_encoding.md R62, up to its operand typing; `STATE` is judged by the meanings (Machine/Ops.lean). -/
def decode (c : Command) : Except DecodeError Instr :=
  match decodeWord c.word with
  | .error e => .error e
  | .ok (op, r) =>
    match ofOperands op r c.operands with
    | some i => .ok i
    | none => .error .illTyped

/-! ### Encoding -/

def Instr.opcode : Instr → Opcode
  | .pack _ _ _ => .pack
  | .unpack _ => .unpack
  | .validate _ => .validate
  | .setrot _ => .setrot
  | .setrotR _ => .setrot
  | .getrot => .getrot
  | .slot _ _ => .slot
  | .sloti _ => .sloti
  | .fbDecode => .decode
  | .fbEncode _ => .encode
  | .checkgrid _ => .checkgrid
  | .getpix _ _ => .getpix
  | .setpix _ _ _ => .setpix
  | .lookup _ => .lookup
  | .trim _ => .trim
  | .recolor _ _ _ => .recolor
  | .renderletter _ _ _ => .renderletter
  | .renderstring _ _ _ => .renderstring
  | .scroll _ _ => .scroll
  | .showletter _ _ _ => .showletter
  | .showmsg _ _ _ _ => .showmsg
  | .flash _ _ _ _ => .flash
  | .hmirror _ => .hmirror
  | .vmirror _ => .vmirror
  | .fliph => .fliph
  | .fliphR => .fliph
  | .flipv => .flipv
  | .flipvR => .flipv
  | .getdiag => .getdiag
  | .clrdiag => .clrdiag

/-- The redraw flag `R` (30_encoding.md R55, the suffix `.R` of R70). -/
def Instr.redraw : Instr → Bool
  | .setrotR _ => true
  | .fliphR => true
  | .flipvR => true
  | _ => false

/-- The operand tuple, in the order of 30_encoding.md R58. -/
def Instr.operands : Instr → List Value
  | .pack r g b => [.int r, .int g, .int b]
  | .unpack w => [.int w.toNat]
  | .validate c => [.color c]
  | .setrot a => [.int a]
  | .setrotR a => [.int a]
  | .getrot => []
  | .slot x y => [.int x, .int y]
  | .sloti i => [.int i]
  | .fbDecode => []
  | .fbEncode g => [.list g]
  | .checkgrid g => [.list g]
  | .getpix x y => [.int x, .int y]
  | .setpix x y c => [.int x, .int y, .color c]
  | .lookup t => [.str t]
  | .trim gl => [.list (gl.map RGB.toRaw)]
  | .recolor p fg bg => [.list (p.map RGB.toRaw), .color fg.toRaw, .color bg.toRaw]
  | .renderletter t fg bg => [.str t, .color fg.toRaw, .color bg.toRaw]
  | .renderstring t fg bg => [.str t, .color fg.toRaw, .color bg.toRaw]
  | .scroll q n => [.list (q.map RGB.toRaw), .int n]
  | .showletter t fg bg => [.str t, .color fg, .color bg]
  | .showmsg t fg bg h => [.str t, .color fg, .color bg, .int h]
  | .flash t fg bg h => [.str t, .color fg, .color bg, .int h]
  | .hmirror g => [.list (g.map RGB.toRaw)]
  | .vmirror g => [.list (g.map RGB.toRaw)]
  | .fliph => []
  | .fliphR => []
  | .flipv => []
  | .flipvR => []
  | .getdiag => []
  | .clrdiag => []

/-- The word is `OP | (R << 8)` (30_encoding.md R72). -/
def encodeWord (op : Opcode) (r : Bool) : Word32 :=
  op.code.setWidth 32 ||| (BitVec.ofBool r).setWidth 32 <<< 8

/-- The command of an instruction (30_encoding.md R54, R72). -/
def encode (i : Instr) : Command := ⟨encodeWord i.opcode i.redraw, i.operands⟩

/-! ### The host's table words

The opcode table gives a row its 32 word bits and its operand tuple none.  DESIGN CHOICE (log 12): the tuple of zeros of
the opcode's types, and for SCROLL's step the default 8 of an operand left out (44_text_renderer.md R112). -/

/-- The zero of an operand type. -/
def OperandType.zero : OperandType → Value
  | .int => .int 0
  | .word16 => .int 0
  | .rgb => .color BLACK.toRaw
  | .rawColor => .color BLACK.toRaw
  | .grid => .list (List.replicate Config.frameLen BLACK.toRaw)
  | .rawGrid => .list []
  | .glyph => .list (List.replicate Config.glyphLen BLACK.toRaw)
  | .pixels => .list []
  | .str => .str []
  | .hold => .int 0

/-- The operand tuple that goes with a table word. -/
def tableOperands (w : Word32) : List Value :=
  match decodeWord w with
  | .ok (.scroll, _) => [.list [], .int Config.stepDefault]
  | .ok (op, _) => op.signature.map OperandType.zero
  | .error _ => []

/-- The command that goes with the low `nbits` bits of `w`. -/
def tableCommand (nbits w : Nat) : Command :=
  let word := BitVec.ofNat 32 (w % 2 ^ nbits)
  ⟨word, tableOperands word⟩

/-- The instruction the decoder reads from a table word (the host's fixed name). -/
def decodeTableWord (nbits w : Nat) : Option Instr :=
  match decode (tableCommand nbits w) with
  | .ok i => some i
  | .error _ => none

end Sys2Proof
end

