-- ==== Sys2Proof/Machine/State.lean ====
section
/-! DEFINITION. The state of the block and of what stands around it (10_state.md, 20_memory.md), as plain data, and the
state after reset (70_reset_and_hazards.md R141). -/

namespace Sys2Proof.Machine

/-- What stops the machine with a fault. -/
inductive Fault where
  /-- Raised by `hostInput` for a direct host write at an offset outside 0..127: offsets outside 0..127 do not exist
  (20_memory.md R35).  Safe: no command forms such an offset, and the run stops. (log 15) -/
  | noSuchOffset (off : Nat)
  deriving DecidableEq, Repr

/-- What the model gives no meaning. -/
inductive Refusal where
  /-- Raised by an arm of `exec` that has no meaning yet.  Safe: the run stops. -/
  | notModelled (mnemonic : String)
  /-- Raised by `hostInput` for a command presented while another runs: "A model marks the whole run refused and gives
  it no meaning" (60_exceptions.md R128; 93 U9).  Safe: the run stops. (log 14) -/
  | commandWhileBusy
  deriving DecidableEq, Repr

/-- The life cycle, `STATE` (10_state.md R24). -/
inductive Life where
  | init
  | ready
  | failed
  deriving DecidableEq, Repr

/-- The environment's answer to a transaction (20_memory.md R39, R40). -/
inductive IoAnswer where
  | ok
  | fail
  deriving DecidableEq, Repr

/-- The status of a response (10_state.md R27, 30_encoding.md R68). -/
inductive Status where
  | ok
  | ioerr
  | refused
  | notReady
  deriving DecidableEq, Repr

/-- The result of a response, by the `Result` column of 30_encoding.md R58. -/
inductive Result where
  | none
  | word16 (w : Word16)
  | rgb (c : RGB)
  | angle (degrees : Nat)
  /-- `Option.none` is the result `NONE` of a rejected coordinate or index (41_rotation.md R84, R85). -/
  | slot (s : Option Slot)
  | grid (g : List RGB)
  | glyph (gl : List RGB)
  | pixels (p : List RGB)
  | grids (gs : List (List RGB))
  | byte (b : Byte)
  deriving DecidableEq, Repr

/-- An event of the observation trace (10_state.md R28). -/
inductive Event where
  | fbRead (off n : Nat) (answer : IoAnswer)
  | fbWrite (off : Nat) (bytes : List Byte) (hold : Option Hold) (answer : IoAnswer)
  | resp (status : Status) (result : Result)
  deriving DecidableEq, Repr

/-- The two assets as the asset collaborator delivers them, each possibly reported missing (43_glyph_store.md R96). -/
structure Assets where
  /-- `P`, the strip's pixels. -/
  strip : Option (List RGB)
  /-- `C`, the character sequence. -/
  chars : Option Str
  deriving DecidableEq, Repr

/-- What arrives from outside between commands (log 1). -/
inductive Input where
  /-- The host presents a command (60_exceptions.md R127). -/
  | command (c : Command)
  /-- The host presents a command while the one before it runs (60_exceptions.md R128). -/
  | overlap (c : Command)
  /-- The collaborator delivers the font assets (43_glyph_store.md R96). -/
  | assets (a : Assets)
  /-- The host writes a byte of `fb` directly (20_memory.md R38). -/
  | hostWrite (off : Nat) (value : Byte)
  /-- The block is reset (70_reset_and_hazards.md R141). -/
  | reset
  deriving DecidableEq, Repr

/-- `fb`: (offset, byte) pairs, offsets strictly rising below 128, no pair holding the byte an unlisted offset reads as
(`Memory.wf`, Machine/Ops.lean). -/
abbrev Memory := List Host.Cell

/-- `FT`: the finite map from `Char` to `Glyph`, in the order of the load (10_state.md R25, 43_glyph_store.md R98). -/
abbrev FontTable := List (Char × List RGB)

/-- Everything the spec gives the machine (10_state.md R20), the external buffer and the inputs, and the model's own
counter of free values. -/
structure State where
  /-- `ROT` (10_state.md R21). -/
  rot : RotCode
  /-- `DIAG` (10_state.md R22, R23). -/
  diag : Byte
  /-- `STATE` (10_state.md R24). -/
  life : Life
  /-- `FT` (10_state.md R25). -/
  ft : FontTable
  /-- `SAVED` (10_state.md R26). -/
  saved : RotCode
  /-- The frame index `k`, which exists only while SHOWMSG or FLASH runs (10_state.md R29). -/
  frameIdx : Option Nat
  /-- The external physical buffer (20_memory.md R35, R38). -/
  fb : Memory
  /-- The observation trace, oldest event first (10_state.md R28). -/
  trace : List Event
  /-- What the host and the asset collaborator present, next first (log 1). -/
  inbox : List Input
  /-- The environment's answers to the coming transactions, next first (00_scope.md R8; log 6). -/
  io : List IoAnswer
  /-- The model's own: how many free values have been drawn (log 9). -/
  draws : Nat
  deriving DecidableEq, Repr

/-- The machine right after reset in front of a buffer `fb0`, with what the outside will present and answer: `fb0`,
`FONT` (inside `inbox`) and `io` are arguments of the launch (00_scope.md R8, 10_state.md R33). -/
def State.launch (fb0 : Memory) (inbox : List Input) (io : List IoAnswer) : State where
  rot := 0
  diag := 0x00
  life := .init
  ft := []
  saved := 0
  frameIdx := none
  fb := fb0
  trace := []
  inbox := inbox
  io := io
  draws := 0

/-- The machine right after reset (70_reset_and_hazards.md R141), with nothing listed in `fb` and nothing presented. -/
def State.reset : State := State.launch [] [] []

end Sys2Proof.Machine
end

