-- ==== Sys2Proof/Machine/Flags.lean ====
section
/-! DEFINITION. The diagnostic register's bits and their one way to be set, and the codes of statuses and of `NONE`
(10_state.md R22, R23, 30_encoding.md R68, R69). -/

namespace Sys2Proof.Machine

/-- The validation-failure classes of 10_state.md R23. -/
inductive Notice where
  | badColor
  | badGridLen
  | badCoord
  | badAngle
  deriving DecidableEq, Repr

/-- `bit(C)`: the DIAG bit of a class (10_state.md R23). -/
def Notice.bit : Notice → Byte
  | .badColor => 0x01
  | .badGridLen => 0x02
  | .badCoord => 0x04
  | .badAngle => 0x08

/-- `note(C)`: `DIAG <- DIAG | bit(C)` (10_state.md R22). -/
def note (c : Notice) (s : State) : State := { s with diag := s.diag ||| c.bit }

/-- `note(C)` when the check `bad` failed, nothing otherwise. -/
def noteIf (bad : Bool) (c : Notice) (s : State) : State := bif bad then note c s else s

/-- The 2-bit status codes (30_encoding.md R68). -/
def Status.code : Status → BitVec 2
  | .ok => 0
  | .ioerr => 1
  | .refused => 2
  | .notReady => 3

/-- The SLOT and SLOTI result as a byte: a slot, or `NONE` as 0xFF (30_encoding.md R69). -/
def slotByte : Option Slot → Byte
  | some s => BitVec.ofNat 8 s.val
  | none => 0xFF

end Sys2Proof.Machine
end

