-- ==== Sys2Proof/Machine/Ops.lean ====
section
/-! DEFINITION. The named operations over the buffer and the state: reading and writing `fb`, the two transactions, the
response, the protocol around every command, the scoped rotation override, and what arrives from outside
(20_memory.md, 44_text_renderer.md R108, 60_exceptions.md). -/

namespace Sys2Proof.Machine

/-! ### The physical buffer -/

/-- What an unlisted offset reads as.  DESIGN CHOICE (log 2): `fb0` is a parameter of the launch. -/
def Memory.unlisted : Byte := 0x00

/-- One byte of `fb`. -/
def Memory.read : Memory → Nat → Byte
  | [], _ => Memory.unlisted
  | (k, v) :: m, a => if k = a then v else Memory.read m a

/-- Write one byte of `fb`, keeping the canonical form. -/
def Memory.write : Memory → Nat → Byte → Memory
  | [], a, v => if v = Memory.unlisted then [] else [(a, v)]
  | (k, w) :: m, a, v =>
    if a < k then (if v = Memory.unlisted then (k, w) :: m else (a, v) :: (k, w) :: m)
    else if a = k then (if v = Memory.unlisted then m else (a, v) :: m)
    else (k, w) :: Memory.write m a v

/-- The canonical form from the offset `lo` on. -/
def Memory.wfFrom : Nat → Memory → Bool
  | _, [] => true
  | lo, (k, v) :: m =>
    decide (lo ≤ k) && decide (k < Config.fbBytes) && !decide (v = Memory.unlisted) && Memory.wfFrom (k + 1) m

/-- The canonical form: offsets strictly rising, each below 128, no byte equal to what an unlisted offset reads as. -/
def Memory.wf (m : Memory) : Bool := Memory.wfFrom 0 m

/-- The `n` bytes from `off` on. -/
def Memory.readBytes (m : Memory) (off n : Nat) : List Byte :=
  (List.range n).map fun j => m.read (off + j)

/-- Write the bytes from `off` on. -/
def Memory.writeBytes (m : Memory) (off : Nat) : List Byte → Memory
  | [] => m
  | b :: bs => (Memory.writeBytes m (off + 1) bs).write off b

/-- `word(fb, s)`: the little-endian word of slot `s` (20_memory.md R36). -/
def Memory.word (m : Memory) (s : Slot) : Word16 :=
  (m.read (2 * s.val)).setWidth 16 ||| (m.read (2 * s.val + 1)).setWidth 16 <<< 8

/-! ### Transactions (20_memory.md R39 to R42) -/

/-- The two shapes of a transaction: the whole buffer, or the word of one slot (20_memory.md R42). -/
inductive Span where
  | whole
  | word (s : Slot)
  deriving DecidableEq, Repr

def Span.off : Span → Nat
  | .whole => 0
  | .word s => 2 * s.val

def Span.len : Span → Nat
  | .whole => Config.fbBytes
  | .word _ => 2

/-- `event(e)`: append to the trace (00_scope.md R12). -/
def emit (e : Event) (s : State) : State := { s with trace := s.trace ++ [e] }

/-- The environment's answer to the next transaction: the next of `io`, or a free value where `io` lists none (00_scope.md
R8; log 6). -/
def nextAnswer (s : State) : IoAnswer × State :=
  match s.io with
  | a :: as => (a, { s with io := as })
  | [] => (bif Config.ioDraw s.draws then .ok else .fail, { s with draws := s.draws + 1 })

/-- `MemRead` (20_memory.md R39): the bytes, or `none` on `fail`. -/
def memRead (sp : Span) (s : State) : Option (List Byte) × State :=
  match nextAnswer s with
  | (.ok, s) => (some (s.fb.readBytes sp.off sp.len), emit (.fbRead sp.off sp.len .ok) s)
  | (.fail, s) => (none, emit (.fbRead sp.off sp.len .fail) s)

/-- The bytes the failed write number `n` leaves at the offsets it addressed: any byte each (20_memory.md R40; log 7). -/
def failedBytes (n : Nat) (sp : Span) : List Byte :=
  (List.range sp.len).map fun j => Config.failedByte n (sp.off + j)

/-- `MemWrite` (20_memory.md R40): the answer, the event carrying `hold`. -/
def memWrite (sp : Span) (bytes : List Byte) (hold : Option Hold) (s : State) : IoAnswer × State :=
  match nextAnswer s with
  | (.ok, s) =>
    (.ok, emit (.fbWrite sp.off bytes hold .ok) { s with fb := s.fb.writeBytes sp.off bytes })
  | (.fail, s) =>
    (.fail, emit (.fbWrite sp.off bytes hold .fail)
      { s with fb := s.fb.writeBytes sp.off (failedBytes s.draws sp), draws := s.draws + 1 })

/-! ### Responses and the protocol of a command -/

/-- `respond(status, result)`: the command's one response (10_state.md R27, 00_scope.md R12). -/
def respond (st : Status) (r : Result) (s : State) : State := emit (.resp st r) s

/-- What stands around every command's pseudocode, in the order of 60_exceptions.md R134: ill-typed operands answer
`REFUSED` (30_encoding.md R61; R131), then a block that is not ready answers `NOTREADY` (R132), then the body runs. -/
def served (typed : Bool) (body : State → State) (s : State) : Host.Outcome State Fault Refusal :=
  .next <|
    match typed, s.life with
    | false, _ => respond .refused .none s
    | true, .ready => body s
    | true, .init => respond .notReady .none s
    | true, .failed => respond .notReady .none s

/-- `(status, none)` after the last transaction of a command. -/
def respondIo (a : IoAnswer) (r : Result) (s : State) : State :=
  match a with
  | .ok => respond .ok r s
  | .fail => respond .ioerr .none s

/-- The scoped rotation override of the display commands (44_text_renderer.md R108): save, turn by 90 degrees, run the
body, restore on every path, respond.  After the command `SAVED` is any value (10_state.md R26; log 4). -/
def scopedRotation (body : State → IoAnswer × State) (s : State) : State :=
  match body { s with saved := s.rot, rot := s.rot + Config.textRotOffset } with
  | (a, s) => respondIo a .none
      { s with rot := s.saved, saved := Config.savedDraw s.draws, draws := s.draws + 1 }

/-! ### The font load (43_glyph_store.md R96 to R98) -/

/-- `FT`: character `C[k]` maps to `P[40k .. 40k+40)` (43_glyph_store.md R97). -/
def fontTable (strip : List RGB) (chars : Str) : FontTable :=
  chars.zipIdx.map fun ck => (ck.1, (strip.drop (Config.glyphLen * ck.2)).take Config.glyphLen)

/-- Some character stands twice. -/
def hasRepeat : Str → Bool
  | [] => false
  | c :: cs => cs.contains c || hasRepeat cs

/-- The checks of `load()`: both assets present, the counts match, no character twice, `'?'` among them (43_glyph_store.md
R98). -/
def loadedTable (a : Assets) : Option FontTable :=
  match a.strip, a.chars with
  | some p, some c =>
    if p.length ≠ Config.glyphLen * c.length then none
    else if hasRepeat c then none
    else if !c.contains Config.fallbackChar then none
    else some (fontTable p c)
  | _, _ => none

/-- `load()`, which runs once, while `STATE = INIT` (43_glyph_store.md R98).  A delivery in another state is dropped
(R99; log 16). -/
def fontLoad (a : Assets) (s : State) : State :=
  match s.life with
  | .init =>
    match loadedTable a with
    | some ft => { s with ft := ft, life := .ready }
    | none => { s with life := .failed }
  | .ready => s
  | .failed => s

/-! ### Reset, and what arrives that is no command -/

/-- A reset of a running block (70_reset_and_hazards.md R141): the state goes to its reset values, `SAVED` is unspecified,
the trace starts empty, and `fb` and the outside are not touched. -/
def resetInput (s : State) : State :=
  { State.launch s.fb s.inbox s.io with saved := Config.savedDraw s.draws, draws := s.draws + 1 }

/-- The answer to a word or a tuple that does not decode: `REFUSED`, no effect, in every state (30_encoding.md R62,
60_exceptions.md R131). -/
def refuse (s : State) : State := respond .refused .none s

/-- An input that is no command of its own turn. -/
def hostInput : Input → State → Host.Outcome State Fault Refusal
  | .command _, s => .next s
  | .overlap _, _ => .refused .commandWhileBusy
  | .assets a, s => .next (fontLoad a s)
  | .hostWrite off v, s =>
    if off < Config.fbBytes then .next { s with fb := s.fb.write off v } else .fault (.noSuchOffset off)
  | .reset, s => .next (resetInput s)

end Sys2Proof.Machine
end

