-- ==== Sys2Proof/Machine/Operands.lean ====
section
/-! DEFINITION. The checks of a command's operands that never refuse but fall back to a default and set a DIAG bit: colors
(40_color_codec.md R76), grids (42_pixel_buffer.md R89), coordinates and indices (41_rotation.md R84, R85), angles
(41_rotation.md R78). -/

namespace Sys2Proof.Machine

/-- The value of `validate(c)`: the color, or `BLACK` (40_color_codec.md R76). -/
def validColor (c : RawColor) : RGB := (RawColor.toRGB? c).getD BLACK

/-- `validate(c)` fails (40_color_codec.md R76). -/
def badColor (c : RawColor) : Bool := (RawColor.toRGB? c).isNone

/-- `validate(c)` with its notice (40_color_codec.md R76). -/
def validate (c : RawColor) (s : State) : RGB × State := (validColor c, noteIf (badColor c) .badColor s)

/-- `[ validate(g[i]) for i ]`, in order, with the notices (42_pixel_buffer.md R89). -/
def validateAll : List RawColor → State → List RGB × State
  | [], s => ([], s)
  | c :: cs, s =>
    match validate c s with
    | (v, s) =>
      match validateAll cs s with
      | (vs, s) => (v :: vs, s)

/-- `checkGrid(g)`: the length, then every element (42_pixel_buffer.md R89). -/
def checkGrid (g : RawGrid) (s : State) : List RGB × State :=
  if g.length ≠ Config.frameLen then (List.replicate Config.frameLen BLACK, note .badGridLen s)
  else validateAll g s

/-- A coordinate in 0..7 (41_rotation.md R84). -/
def coord? (z : Int) : Option Coord :=
  if h : 0 ≤ z ∧ z ≤ 7 then some ⟨z.toNat, by omega⟩ else none

/-- Both coordinates in 0..7 (41_rotation.md R84, 42_pixel_buffer.md R93, R94). -/
def coords? (x y : Int) : Option (Coord × Coord) :=
  match coord? x, coord? y with
  | some x, some y => some (x, y)
  | _, _ => none

/-- A logical index in 0..63 (41_rotation.md R85). -/
def index? (z : Int) : Option (Fin 64) :=
  if h : 0 ≤ z ∧ z ≤ 63 then some ⟨z.toNat, by omega⟩ else none

/-- `normalise(a)`: a negative angle is brought up by whole turns, a non-negative one is not reduced; then only 0, 90, 180
and 270 are accepted (41_rotation.md R78). -/
def normalise (a : Int) : Option RotCode :=
  let a' := if a < 0 then a % 360 else a
  if a' = 0 then some 0
  else if a' = 90 then some 1
  else if a' = 180 then some 2
  else if a' = 270 then some 3
  else none

end Sys2Proof.Machine
end

