-- ==== Sys2Proof/Machine/Diagnostics.lean ====
section
/-! DEFINITION. Access to the diagnostic register: GETDIAG, CLRDIAG (46_diagnostics.md). -/

namespace Sys2Proof.Machine

/-- GETDIAG (46_diagnostics.md R125). -/
def execGetdiag (s : State) : Host.Outcome State Fault Refusal :=
  served true (fun s => respond .ok (.byte s.diag) s) s

/-- CLRDIAG (46_diagnostics.md R126). -/
def execClrdiag (s : State) : Host.Outcome State Fault Refusal :=
  served true (fun s => respond .ok .none { s with diag := 0x00 }) s

end Sys2Proof.Machine
end

