-- ==== Sys2Proof/Machine/GlyphStore.lean ====
section
/-! DEFINITION. The lookup of a glyph and the command LOOKUP (43_glyph_store.md R100, R101). -/

namespace Sys2Proof.Machine

/-- `FT[c]`, if `c in FT` (43_glyph_store.md R100). -/
def FontTable.find? : FontTable → Char → Option (List RGB)
  | [], _ => none
  | (k, gl) :: ft, c => if k = c then some gl else FontTable.find? ft c

/-- `FT['?']`; a READY block has it (43_glyph_store.md R98, R100; log 17). -/
def fallbackGlyph (ft : FontTable) : List RGB :=
  (FontTable.find? ft Config.fallbackChar).getD Config.noFallbackGlyph

/-- `lookup(s)` (43_glyph_store.md R100). -/
def lookup (ft : FontTable) : Str → List RGB
  | [c] => (FontTable.find? ft c).getD (fallbackGlyph ft)
  | _ => fallbackGlyph ft

/-- LOOKUP (43_glyph_store.md R101). -/
def execLookup (t : Str) (s : State) : Host.Outcome State Fault Refusal :=
  served true (fun s => respond .ok (.glyph (lookup s.ft t)) s) s

end Sys2Proof.Machine
end

