-- ==== Sys2Proof/Machine/ColorCodec.lean ====
section
/-! DEFINITION. The RGB565 codec and its commands PACK, UNPACK, VALIDATE (40_color_codec.md). -/

namespace Sys2Proof.Machine

/-- `pack(r, g, b)` for channels in 0..255: SHL's formula (40_color_codec.md R73). -/
def pack (c : RGB) : Word16 :=
  ((c.r.setWidth 16 >>> 3) &&& 0x1F) <<< 11 |||
    ((c.g.setWidth 16 >>> 2) &&& 0x3F) <<< 5 |||
    ((c.b.setWidth 16 >>> 3) &&& 0x1F)

/-- `unpack(w)` (40_color_codec.md R75). -/
def unpack (w : Word16) : RGB :=
  ⟨(((w &&& 0xF800) >>> 11) <<< 3).setWidth 8,
   (((w &&& 0x07E0) >>> 5) <<< 2).setWidth 8,
   ((w &&& 0x001F) <<< 3).setWidth 8⟩

/-- PACK (40_color_codec.md R73); a channel outside 0..255 gives a free word (R74; log 8). -/
def execPack (r g b : Int) (s : State) : Host.Outcome State Fault Refusal :=
  served true (fun s =>
    match RawColor.toRGB? [.int r, .int g, .int b] with
    | some c => respond .ok (.word16 (pack c)) s
    | none => respond .ok (.word16 (Config.packDraw s.draws)) { s with draws := s.draws + 1 }) s

/-- UNPACK (40_color_codec.md R75). -/
def execUnpack (w : Word16) (s : State) : Host.Outcome State Fault Refusal :=
  served true (respond .ok (.rgb (unpack w))) s

/-- VALIDATE (40_color_codec.md R76). -/
def execValidate (c : RawColor) (s : State) : Host.Outcome State Fault Refusal :=
  served true (fun s =>
    match validate c s with
    | (v, s) => respond .ok (.rgb v) s) s

end Sys2Proof.Machine
end

