-- ==== Sys2Proof/Machine/PixelBuffer.lean ====
section
/-! DEFINITION. The address translation of a rotation code and the pixel-buffer codec with its commands DECODE, ENCODE,
CHECKGRID, GETPIX, SETPIX (41_rotation.md R79, R80, 42_pixel_buffer.md). -/

namespace Sys2Proof.Machine

/-! ### Slots (41_rotation.md R79, R80) -/

/-- `slotFor_q(x, y)` (41_rotation.md R79). -/
def slotFor (q : RotCode) (x y : Coord) : Slot :=
  match q.toNat with
  | 0 => ⟨y.val * 8 + x.val, by omega⟩
  | 1 => ⟨y.val + (7 - x.val) * 8, by omega⟩
  | 2 => ⟨(7 - y.val) * 8 + (7 - x.val), by omega⟩
  | _ => ⟨(7 - y.val) + x.val * 8, by omega⟩

/-- `slotForIndex_q(i)` (41_rotation.md R80). -/
def slotForIndex (q : RotCode) (i : Fin 64) : Slot :=
  slotFor q ⟨i.val % 8, by omega⟩ ⟨i.val / 8, by omega⟩

/-- The logical x shown at slot `s` (41_rotation.md R86). -/
def logicalX (q : RotCode) (s : Slot) : Coord :=
  match q.toNat with
  | 0 => ⟨s.val % 8, by omega⟩
  | 1 => ⟨7 - s.val / 8, by omega⟩
  | 2 => ⟨7 - s.val % 8, by omega⟩
  | _ => ⟨s.val / 8, by omega⟩

/-- The logical y shown at slot `s` (41_rotation.md R86). -/
def logicalY (q : RotCode) (s : Slot) : Coord :=
  match q.toNat with
  | 0 => ⟨s.val / 8, by omega⟩
  | 1 => ⟨s.val % 8, by omega⟩
  | 2 => ⟨7 - s.val / 8, by omega⟩
  | _ => ⟨7 - s.val % 8, by omega⟩

/-! ### Buffers and grids (42_pixel_buffer.md R88, R89) -/

/-- `B[2s] | (B[2s + 1] << 8)` (20_memory.md R36). -/
def wordAt (bytes : List Byte) (off : Nat) : Word16 :=
  (bytes.getD off 0).setWidth 16 ||| (bytes.getD (off + 1) 0).setWidth 16 <<< 8

/-- `bytes_of(w)`, low byte first (20_memory.md R36). -/
def bytesOf (w : Word16) : List Byte := [w.setWidth 8, (w >>> 8).setWidth 8]

/-- `decode_bytes(B, q)` (42_pixel_buffer.md R88). -/
def decodeBytes (bytes : List Byte) (q : RotCode) : List RGB :=
  (List.finRange 64).map fun i => unpack (wordAt bytes (2 * (slotForIndex q i).val))

/-- One round of `encode_bytes`: the word of one element at its slot (42_pixel_buffer.md R89). -/
def putWord (out : List Byte) (s : Slot) (w : Word16) : List Byte :=
  (out.set (2 * s.val) (w.setWidth 8)).set (2 * s.val + 1) ((w >>> 8).setWidth 8)

/-- `encode_bytes(G, q)` (42_pixel_buffer.md R89). -/
def encodeBytes (g : List RGB) (q : RotCode) : List Byte :=
  (List.finRange 64).foldl (fun out i => putWord out (slotForIndex q i) (pack (g.getD i.val BLACK)))
    (List.replicate Config.fbBytes 0)

/-! ### Commands -/

/-- DECODE (42_pixel_buffer.md R90). -/
def execFbDecode (s : State) : Host.Outcome State Fault Refusal :=
  served true (fun s =>
    match memRead .whole s with
    | (some bytes, s) => respond .ok (.grid (decodeBytes bytes s.rot)) s
    | (none, s) => respond .ioerr .none s) s

/-- ENCODE (42_pixel_buffer.md R91). -/
def execFbEncode (g : RawGrid) (s : State) : Host.Outcome State Fault Refusal :=
  served true (fun s =>
    match checkGrid g s with
    | (grid, s) =>
      match memWrite .whole (encodeBytes grid s.rot) none s with
      | (a, s) => respondIo a .none s) s

/-- CHECKGRID (42_pixel_buffer.md R92). -/
def execCheckgrid (g : RawGrid) (s : State) : Host.Outcome State Fault Refusal :=
  served true (fun s =>
    match checkGrid g s with
    | (grid, s) => respond .ok (.grid grid) s) s

/-- GETPIX (42_pixel_buffer.md R93). -/
def execGetpix (x y : Int) (s : State) : Host.Outcome State Fault Refusal :=
  served true (fun s =>
    match coords? x y with
    | none => respond .ok (.rgb BLACK) (note .badCoord s)
    | some (x, y) =>
      match memRead (.word (slotFor s.rot x y)) s with
      | (some bytes, s) => respond .ok (.rgb (unpack (wordAt bytes 0))) s
      | (none, s) => respond .ioerr .none s) s

/-- SETPIX (42_pixel_buffer.md R94). -/
def execSetpix (x y : Int) (c : RawColor) (s : State) : Host.Outcome State Fault Refusal :=
  served true (fun s =>
    match validate c s with
    | (v, s) =>
      match coords? x y with
      | none => respond .ok .none (note .badCoord s)
      | some (x, y) =>
        match memWrite (.word (slotFor s.rot x y)) (bytesOf (pack v)) none s with
        | (a, s) => respondIo a .none s) s

end Sys2Proof.Machine
end

