-- ==== Sys2Proof/Machine/Text.lean ====
section
/-! DEFINITION. The text compositor: TRIM, RECOLOR, RENDERLETTER, RENDERSTRING, SCROLL, and the display commands
SHOWLETTER, SHOWMSG, FLASH (44_text_renderer.md). -/

namespace Sys2Proof.Machine

/-! ### Functions (44_text_renderer.md R102 to R107) -/

/-- `rows(xs)`: the consecutive 8-element rows (00_scope.md R11). -/
def rows {α : Type} (xs : List α) : List (List α) :=
  (List.range (xs.length / Config.rowLen)).map fun j => (xs.drop (Config.rowLen * j)).take Config.rowLen

/-- Every element of the row is `BLACK`. -/
def blackRow (row : List RGB) : Bool := row.all (· == BLACK)

/-- Rows `a..b`, from the first to the last row that has an element other than `BLACK` (44_text_renderer.md R102). -/
def inkRows (rs : List (List RGB)) : List (List RGB) :=
  ((rs.dropWhile blackRow).reverse.dropWhile blackRow).reverse

/-- `trim(gl)` (44_text_renderer.md R102). -/
def trim (gl : List RGB) : List RGB :=
  if blackRow gl then gl else (inkRows (rows gl)).flatten

/-- `recolor(p, fg, bg)` (44_text_renderer.md R103). -/
def recolor {α : Type} (p : List RGB) (fg bg : α) : List α := p.map fun c => if c = BLACK then bg else fg

/-- `renderLetter(s, fg, bg)` (44_text_renderer.md R104). -/
def renderLetter {α : Type} (ft : FontTable) (t : Str) (fg bg : α) : List α :=
  List.replicate Config.letterLead bg ++ recolor (lookup ft t) fg bg ++ List.replicate Config.letterTrail bg

/-- What renderString puts for one character: the trimmed glyph and its gap (44_text_renderer.md R105). -/
def renderChar {α : Type} (ft : FontTable) (fg bg : α) (c : Char) : List α :=
  recolor (trim (lookup ft [c])) fg bg ++ List.replicate Config.glyphGap bg

/-- `renderString(t, fg, bg)` (44_text_renderer.md R105). -/
def renderString {α : Type} (ft : FontTable) (t : Str) (fg bg : α) : List α :=
  List.replicate Config.strLead bg ++ t.flatMap (renderChar ft fg bg) ++ List.replicate Config.strTrail bg

/-- The number of frames of `scroll` for `step >= 1` (44_text_renderer.md R106). -/
def frameCount (len step : Nat) : Nat :=
  if len < Config.frameLen then 0 else (len - Config.frameLen) / step + 1

/-- `scroll(seq, step)` for `step >= 1`: frame k is `seq[k*step .. k*step + 64)` (44_text_renderer.md R106). -/
def scroll {α : Type} (seq : List α) (step : Nat) : List (List α) :=
  (List.range (frameCount seq.length step)).map fun k => (seq.drop (k * step)).take Config.frameLen

/-- `writeFrame(F, hold)`: ENCODE's path under the current `ROT` (44_text_renderer.md R107). -/
def writeFrame (frame : RawGrid) (hold : Option Hold) (s : State) : IoAnswer × State :=
  match checkGrid frame s with
  | (grid, s) => memWrite .whole (encodeBytes grid s.rot) hold s

/-- The frame index `k` after a written frame (10_state.md R29). -/
def countFrame (s : State) : State := { s with frameIdx := s.frameIdx.map (· + 1) }

/-- The frame loop: each frame in order, up to the first failed write (44_text_renderer.md R115, R116). -/
def writeFrames (hold : Option Hold) : List RawGrid → State → IoAnswer × State
  | [], s => (.ok, s)
  | f :: fs, s =>
    match writeFrame f hold s with
    | (.ok, s) => writeFrames hold fs (countFrame s)
    | (.fail, s) => (.fail, s)

/-- A frame loop from `k = 0`; `k` does not survive the command (10_state.md R29). -/
def runFrames (hold : Option Hold) (frames : List RawGrid) (s : State) : IoAnswer × State :=
  match writeFrames hold frames { s with frameIdx := some 0 } with
  | (a, s) => (a, { s with frameIdx := none })

/-! ### Pure commands -/

/-- TRIM (44_text_renderer.md R109). -/
def execTrim (gl : List RGB) (s : State) : Host.Outcome State Fault Refusal :=
  served (Instr.trim gl).wf (respond .ok (.pixels (trim gl))) s

/-- RECOLOR (44_text_renderer.md R110). -/
def execRecolor (p : List RGB) (fg bg : RGB) (s : State) : Host.Outcome State Fault Refusal :=
  served true (respond .ok (.pixels (recolor p fg bg))) s

/-- RENDERLETTER (44_text_renderer.md R111). -/
def execRenderletter (t : Str) (fg bg : RGB) (s : State) : Host.Outcome State Fault Refusal :=
  served true (fun s => respond .ok (.grid (renderLetter s.ft t fg bg)) s) s

/-- RENDERSTRING (44_text_renderer.md R113). -/
def execRenderstring (t : Str) (fg bg : RGB) (s : State) : Host.Outcome State Fault Refusal :=
  served true (fun s => respond .ok (.pixels (renderString s.ft t fg bg)) s) s

/-- SCROLL: a step of zero or less answers `REFUSED` with no effect (44_text_renderer.md R112). -/
def execScroll (seq : List RGB) (step : Int) (s : State) : Host.Outcome State Fault Refusal :=
  served true (fun s =>
    if step ≤ 0 then refuse s else respond .ok (.grids (scroll seq step.toNat)) s) s

/-! ### Display commands -/

/-- SHOWLETTER (44_text_renderer.md R114). -/
def execShowletter (t : Str) (fg bg : RawColor) (s : State) : Host.Outcome State Fault Refusal :=
  served true (scopedRotation fun s => writeFrame (renderLetter s.ft t fg bg) none s) s

/-- SHOWMSG (44_text_renderer.md R115). -/
def execShowmsg (t : Str) (fg bg : RawColor) (hold : Hold) (s : State) : Host.Outcome State Fault Refusal :=
  served true (scopedRotation fun s =>
    runFrames (some hold) (scroll (renderString s.ft t fg bg) Config.stepDefault) s) s

/-- FLASH (44_text_renderer.md R116). -/
def execFlash (t : Str) (fg bg : RawColor) (hold : Hold) (s : State) : Host.Outcome State Fault Refusal :=
  served true (scopedRotation fun s =>
    runFrames (some hold) (t.map fun c => renderLetter s.ft [c] fg bg) s) s

end Sys2Proof.Machine
end

