-- ==== Sys2Proof/Machine/Mirror.lean ====
section
/-! DEFINITION. The mirror operations HMIRROR, VMIRROR, FLIPH, FLIPH.R, FLIPV, FLIPV.R (45_mirror_ops.md). -/

namespace Sys2Proof.Machine

/-- `hmirror(g)`: each row reversed, row order unchanged (45_mirror_ops.md R118). -/
def hmirror {α : Type} (g : List α) : List α := ((rows g).map List.reverse).flatten

/-- `vmirror(g)`: row order reversed, each row unchanged (45_mirror_ops.md R119). -/
def vmirror {α : Type} (g : List α) : List α := (rows g).reverse.flatten

/-- HMIRROR (45_mirror_ops.md R120). -/
def execHmirror (g : List RGB) (s : State) : Host.Outcome State Fault Refusal :=
  served (Instr.hmirror g).wf (respond .ok (.grid (hmirror g))) s

/-- VMIRROR (45_mirror_ops.md R121). -/
def execVmirror (g : List RGB) (s : State) : Host.Outcome State Fault Refusal :=
  served (Instr.vmirror g).wf (respond .ok (.grid (vmirror g))) s

/-- The flip commands' pseudocode (45_mirror_ops.md R122, R123): read, mirror, write back if `R = 1`, answer the mirrored
grid. -/
def flipWith (mirror : List RGB → List RGB) (redraw : Bool) (s : State) : State :=
  match memRead .whole s with
  | (none, s) => respond .ioerr .none s
  | (some bytes, s) =>
    let grid := mirror (decodeBytes bytes s.rot)
    if redraw then
      match memWrite .whole (encodeBytes grid s.rot) none s with
      | (a, s) => respondIo a (.grid grid) s
    else respond .ok (.grid grid) s

/-- FLIPH (45_mirror_ops.md R122). -/
def execFliph (s : State) : Host.Outcome State Fault Refusal := served true (flipWith hmirror false) s

/-- FLIPH.R (45_mirror_ops.md R122). -/
def execFliphR (s : State) : Host.Outcome State Fault Refusal := served true (flipWith hmirror true) s

/-- FLIPV (45_mirror_ops.md R123). -/
def execFlipv (s : State) : Host.Outcome State Fault Refusal := served true (flipWith vmirror false) s

/-- FLIPV.R (45_mirror_ops.md R123). -/
def execFlipvR (s : State) : Host.Outcome State Fault Refusal := served true (flipWith vmirror true) s

end Sys2Proof.Machine
end

