-- ==== Sys2Proof/Machine/Rotation.lean ====
section
/-! DEFINITION. The rotation commands SETROT, SETROT.R, GETROT, SLOT, SLOTI (41_rotation.md R81 to R85). -/

namespace Sys2Proof.Machine

/-- SETROT (41_rotation.md R81). -/
def execSetrot (a : Int) (s : State) : Host.Outcome State Fault Refusal :=
  served true (fun s =>
    match normalise a with
    | some q => respond .ok .none { s with rot := q }
    | none => respond .ok .none (note .badAngle s)) s

/-- SETROT.R (41_rotation.md R82). -/
def execSetrotR (a : Int) (s : State) : Host.Outcome State Fault Refusal :=
  served true (fun s =>
    match normalise a with
    | none => respond .ok .none (note .badAngle s)
    | some q =>
      match memRead .whole s with
      | (none, s) => respond .ioerr .none s
      | (some bytes, s) =>
        match memWrite .whole (encodeBytes (decodeBytes bytes s.rot) q) none { s with rot := q } with
        | (a, s) => respondIo a .none s) s

/-- The angle of a code in degrees (10_state.md R21, 30_encoding.md R67). -/
def angle (q : RotCode) : Nat := 90 * q.toNat

/-- GETROT (41_rotation.md R83). -/
def execGetrot (s : State) : Host.Outcome State Fault Refusal :=
  served true (fun s => respond .ok (.angle (angle s.rot)) s) s

/-- SLOT (41_rotation.md R84). -/
def execSlot (x y : Int) (s : State) : Host.Outcome State Fault Refusal :=
  served true (fun s =>
    match coords? x y with
    | some (x, y) => respond .ok (.slot (some (slotFor s.rot x y))) s
    | none => respond .ok (.slot none) (note .badCoord s)) s

/-- SLOTI (41_rotation.md R85). -/
def execSloti (i : Int) (s : State) : Host.Outcome State Fault Refusal :=
  served true (fun s =>
    match index? i with
    | some i => respond .ok (.slot (some (slotForIndex s.rot i))) s
    | none => respond .ok (.slot none) (note .badCoord s)) s

end Sys2Proof.Machine
end

