-- ==== Sys2Proof/Machine/Dispatch.lean ====
section
/-! DEFINITION. One arm per command, each a direct call of its meaning (30_encoding.md R58). -/

namespace Sys2Proof.Machine

def exec (i : Instr) (s : State) : Host.Outcome State Fault Refusal :=
  match i with
  -- 40_color_codec.md
  | .pack r g b => Sys2Proof.Machine.execPack r g b s
  | .unpack w => Sys2Proof.Machine.execUnpack w s
  | .validate c => Sys2Proof.Machine.execValidate c s
  -- 41_rotation.md
  | .setrot a => Sys2Proof.Machine.execSetrot a s
  | .setrotR a => Sys2Proof.Machine.execSetrotR a s
  | .getrot => Sys2Proof.Machine.execGetrot s
  | .slot x y => Sys2Proof.Machine.execSlot x y s
  | .sloti j => Sys2Proof.Machine.execSloti j s
  -- 42_pixel_buffer.md
  | .fbDecode => Sys2Proof.Machine.execFbDecode s
  | .fbEncode g => Sys2Proof.Machine.execFbEncode g s
  | .checkgrid g => Sys2Proof.Machine.execCheckgrid g s
  | .getpix x y => Sys2Proof.Machine.execGetpix x y s
  | .setpix x y c => Sys2Proof.Machine.execSetpix x y c s
  -- 43_glyph_store.md
  | .lookup t => Sys2Proof.Machine.execLookup t s
  -- 44_text_renderer.md
  | .trim gl => Sys2Proof.Machine.execTrim gl s
  | .recolor p fg bg => Sys2Proof.Machine.execRecolor p fg bg s
  | .renderletter t fg bg => Sys2Proof.Machine.execRenderletter t fg bg s
  | .renderstring t fg bg => Sys2Proof.Machine.execRenderstring t fg bg s
  | .scroll q n => Sys2Proof.Machine.execScroll q n s
  | .showletter t fg bg => Sys2Proof.Machine.execShowletter t fg bg s
  | .showmsg t fg bg hold => Sys2Proof.Machine.execShowmsg t fg bg hold s
  | .flash t fg bg hold => Sys2Proof.Machine.execFlash t fg bg hold s
  -- 45_mirror_ops.md
  | .hmirror g => Sys2Proof.Machine.execHmirror g s
  | .vmirror g => Sys2Proof.Machine.execVmirror g s
  | .fliph => Sys2Proof.Machine.execFliph s
  | .fliphR => Sys2Proof.Machine.execFliphR s
  | .flipv => Sys2Proof.Machine.execFlipv s
  | .flipvR => Sys2Proof.Machine.execFlipvR s
  -- 46_diagnostics.md
  | .getdiag => Sys2Proof.Machine.execGetdiag s
  | .clrdiag => Sys2Proof.Machine.execClrdiag s

end Sys2Proof.Machine
end

