-- ==== Sys2Proof/Machine/Port.lean ====
section
/-! DEFINITION. Placing a table word where the next step takes its command from, with all that the block needs to run it
(log 1, log 12). -/

namespace Sys2Proof.Machine

/-- The smallest well-formed assets: `'?'` alone, with a black glyph (43_glyph_store.md R98; log 12). -/
def standInAssets : Assets := ⟨some (List.replicate Config.glyphLen BLACK), some [Config.fallbackChar]⟩

/-- A READY block stays as it is; another one gets the stand-in font, as a load of the stand-in assets would leave it. -/
def makeReady (s : State) : State :=
  match s.life with
  | .ready => s
  | .init => { s with life := .ready, ft := (loadedTable standInAssets).getD [] }
  | .failed => { s with life := .ready, ft := (loadedTable standInAssets).getD [] }

/-- The host presents the table word's command next. -/
def presentWord (s : State) (nbits w : Nat) : State :=
  { makeReady s with inbox := .command (tableCommand nbits w) :: s.inbox }

end Sys2Proof.Machine
end

