-- ==== Sys2Proof/Machine/Step.lean ====
section
/-! DEFINITION. One step: the next of what has arrived is taken; a command is decoded, executed to its end and answered
(60_exceptions.md R127).  With nothing presented the block waits. -/

namespace Sys2Proof.Machine

/-- Decode a presented command and run it (30_encoding.md R62). -/
def runCommand (c : Command) (s : State) : Host.Outcome State Fault Refusal :=
  match decode c with
  | .ok i => exec i s
  | .error _ => .next (refuse s)

def step (s : State) : Host.Outcome State Fault Refusal :=
  match s.inbox with
  | [] => .next s
  | .command c :: rest => runCommand c { s with inbox := rest }
  | .overlap c :: rest => hostInput (.overlap c) { s with inbox := rest }
  | .assets a :: rest => hostInput (.assets a) { s with inbox := rest }
  | .hostWrite off v :: rest => hostInput (.hostWrite off v) { s with inbox := rest }
  | .reset :: rest => hostInput .reset { s with inbox := rest }

/-- The host's fixed name: the table word's command is what the next step takes. -/
def State.withFetchWord (s : State) (nbits w : Nat) : State := presentWord s nbits w

end Sys2Proof.Machine
end

