-- ==== Sys2Proof/Machine/Asm.lean ====
section
/-! DEFINITION. The assembler notation for one command (30_encoding.md R70 to R72): from a line of text to the word and the
operand tuple it spells, total on every text, with `none` for a line that is not of the grammar.  The operand types are not
its concern: `decode` judges them (R61). -/

namespace Sys2Proof.Asm

/-! ### Tokens -/

/-- The tokens of a line. -/
inductive Token where
  /-- A mnemonic, a label, `rep`, `rows`. -/
  | word (w : Str)
  | dec (n : Nat)
  /-- `"0x" hex`, with the number of its digits. -/
  | hex (n digits : Nat)
  | str (t : Str)
  | sym (c : Char)
  deriving DecidableEq, Repr

/-- What the lexer is in the middle of, the characters read so far last first. -/
inductive Mode where
  | idle
  | word (back : Str)
  /-- In a string: every character but the closing quote stands for itself (log 22). -/
  | str (back : Str)
  deriving DecidableEq, Repr

def openBrace : Char := Char.ofNat 0x7B

def closeBrace : Char := Char.ofNat 0x7D

def quote : Char := Char.ofNat 0x22

def isSpace (c : Char) : Bool := c == ' ' || c == Char.ofNat 9

def isSymbol (c : Char) : Bool :=
  c == ',' || c == ':' || c == '(' || c == ')' || c == '[' || c == ']' || c == '?' || c == '-' || c == openBrace ||
    c == closeBrace

def digit? (c : Char) : Option Nat :=
  if 0x30 ≤ c.toNat ∧ c.toNat ≤ 0x39 then some (c.toNat - 0x30) else none

def hexDigit? (c : Char) : Option Nat :=
  if 0x30 ≤ c.toNat ∧ c.toNat ≤ 0x39 then some (c.toNat - 0x30)
  else if 0x41 ≤ c.toNat ∧ c.toNat ≤ 0x46 then some (c.toNat - 0x37)
  else if 0x61 ≤ c.toNat ∧ c.toNat ≤ 0x66 then some (c.toNat - 0x57)
  else none

/-- The value of digits, first the most significant. -/
def numeral (base : Nat) (digit : Char → Option Nat) : Nat → Str → Option Nat
  | acc, [] => some acc
  | acc, c :: cs =>
    match digit c with
    | some d => numeral base digit (acc * base + d) cs
    | none => none

/-- A run of characters between spaces and symbols: a number if it starts with a digit, a word otherwise.  DESIGN CHOICE
(log 22): 30_encoding.md R70 leaves `label` undefined; a label is such a word, so none starts with a digit. -/
def classify : Str → Option Token
  | [] => none
  | ['0', 'x'] => none
  | '0' :: 'x' :: cs => (numeral 16 hexDigit? 0 cs).map fun n => .hex n cs.length
  | c :: cs =>
    match digit? c with
    | some _ => (numeral 10 digit? 0 (c :: cs)).map .dec
    | none => some (.word (c :: cs))

/-- The tokens of a line; a `;` outside a string starts the comment, which ends it. -/
def lex : Mode → Str → Option (List Token)
  | .idle, [] => some []
  | .word back, [] => (classify back.reverse).map fun t => [t]
  | .str _, [] => none
  | .str back, c :: cs =>
    if c = quote then (lex .idle cs).map fun ts => .str back.reverse :: ts
    else lex (.str (c :: back)) cs
  | .idle, c :: cs =>
    if c = ';' then some []
    else if c = quote then lex (.str []) cs
    else if isSpace c then lex .idle cs
    else if isSymbol c then (lex .idle cs).map fun ts => .sym c :: ts
    else lex (.word [c]) cs
  | .word back, c :: cs =>
    if c = ';' then (classify back.reverse).map fun t => [t]
    else if c = quote then do
      let t ← classify back.reverse
      let ts ← lex (.str []) cs
      some (t :: ts)
    else if isSpace c then do
      let t ← classify back.reverse
      let ts ← lex .idle cs
      some (t :: ts)
    else if isSymbol c then do
      let t ← classify back.reverse
      let ts ← lex .idle cs
      some (t :: .sym c :: ts)
    else lex (.word (c :: back)) cs

/-! ### Operands (30_encoding.md R70, R71) -/

/-- A parser: what it read and the tokens left. -/
abbrev Parse (α : Type) := List Token → Option (α × List Token)

def symbol (c : Char) : Parse Unit
  | .sym d :: ts => if c = d then some ((), ts) else none
  | _ => none

/-- `int := ["-"] decimal | "0x" hex`. -/
def int : Parse Int
  | .dec n :: ts => some (n, ts)
  | .hex n _ :: ts => some (n, ts)
  | .sym '-' :: .dec n :: ts => some (-(n : Int), ts)
  | _ => none

/-- `comp := int | "?"`. -/
def comp : Parse Comp
  | .sym '?' :: ts => some (.nonint, ts)
  | ts => do
    let (z, ts) ← int ts
    some (.int z, ts)

/-- One or more of `p` with commas between, then the symbol `close`; `fuel` bounds the number. -/
def sepBy {α : Type} (p : Parse α) (close : Char) : Nat → Parse (List α)
  | 0, _ => none
  | fuel + 1, ts => do
    let (a, ts) ← p ts
    match ts with
    | .sym c :: ts =>
      if c = close then some ([a], ts)
      else if c = ',' then do
        let (as, ts) ← sepBy p close fuel ts
        some (a :: as, ts)
      else none
    | _ => none

/-- None or more of `p`. -/
def sepBy0 {α : Type} (p : Parse α) (close : Char) (fuel : Nat) : Parse (List α)
  | .sym c :: ts => if c = close then some ([], ts) else sepBy p close fuel (.sym c :: ts)
  | ts => sepBy p close fuel ts

/-- `rgb := "(" int "," int "," int ")"`, each 0..255. -/
def rgb (ts : List Token) : Option (RawColor × List Token) := do
  let (_, ts) ← symbol '(' ts
  let (r, ts) ← int ts
  let (_, ts) ← symbol ',' ts
  let (g, ts) ← int ts
  let (_, ts) ← symbol ',' ts
  let (b, ts) ← int ts
  let (_, ts) ← symbol ')' ts
  let c ← RawColor.toRGB? [.int r, .int g, .int b]
  some (c.toRaw, ts)

/-- `raw := "[" [comp {"," comp}] "]" | rgb`. -/
def raw : Parse RawColor
  | .sym '[' :: ts => sepBy0 comp ']' ts.length ts
  | ts => rgb ts

/-- A hex byte of `rows(...)`: `0x` and two digits.  DESIGN CHOICE (log 22): 30_encoding.md R70 leaves `hex2` undefined. -/
def hex2 : Parse Nat
  | .hex n 2 :: ts => some (n, ts)
  | _ => none

def white : RGB := ⟨255, 255, 255⟩

/-- The 8 pixels of a hex byte: bit 7 is element 0, a 1 bit is white and a 0 bit is black (30_encoding.md R71). -/
def rowOf (h : Nat) : List RawColor :=
  (List.range 8).map fun j => bif h.testBit (7 - j) then white.toRaw else BLACK.toRaw

/-- The colors a part of a pixel list stands for: a color, `rep(n, c)` or `rows(...)`, spliced in place. -/
def item : Parse (List RawColor)
  | .word w :: ts =>
    if w = "rep".toList then do
      let (_, ts) ← symbol '(' ts
      let (n, ts) ← int ts
      let (_, ts) ← symbol ',' ts
      let (c, ts) ← raw ts
      let (_, ts) ← symbol ')' ts
      if n < 0 then none else some (List.replicate n.toNat c, ts)
    else if w = "rows".toList then do
      let (_, ts) ← symbol '(' ts
      let (hs, ts) ← sepBy hex2 ')' ts.length ts
      some (hs.flatMap rowOf, ts)
    else none
  | ts => do
    let (c, ts) ← raw ts
    some ([c], ts)

/-- `operand := int | rgb | raw | str | list | glyphrows`; `rep(...)` stands alone as a list too (44_text_renderer.md R112,
its example). -/
def operand : Parse Value
  | .str t :: ts => some (.str t, ts)
  | .word w :: ts => do
    let (cs, ts) ← item (.word w :: ts)
    some (.list cs, ts)
  | .sym c :: ts =>
    if c = openBrace then do
      let (gs, ts) ← sepBy0 item closeBrace ts.length ts
      some (.list gs.flatten, ts)
    else if c = '(' ∨ c = '[' then do
      let (v, ts) ← raw (.sym c :: ts)
      some (.color v, ts)
    else do
      let (z, ts) ← int (.sym c :: ts)
      some (.int z, ts)
  | ts => do
    let (z, ts) ← int ts
    some (.int z, ts)

/-- `[operand {"," operand}]` to the end of the line. -/
def operands : Nat → List Token → Option (List Value)
  | _, [] => some []
  | 0, _ => none
  | fuel + 1, ts => do
    let (v, ts) ← operand ts
    match ts with
    | [] => some [v]
    | .sym ',' :: t :: ts => do
      let vs ← operands fuel (t :: ts)
      some (v :: vs)
    | _ => none

/-! ### Lines -/

/-- The mnemonics of 30_encoding.md R58. -/
def mnemonics : List (String × Opcode) :=
  [("PACK", .pack), ("UNPACK", .unpack), ("VALIDATE", .validate), ("SETROT", .setrot), ("GETROT", .getrot),
    ("SLOT", .slot), ("SLOTI", .sloti), ("DECODE", .decode), ("ENCODE", .encode)] ++
  [("CHECKGRID", .checkgrid), ("GETPIX", .getpix), ("SETPIX", .setpix), ("LOOKUP", .lookup), ("TRIM", .trim),
    ("RECOLOR", .recolor), ("RENDERLETTER", .renderletter), ("RENDERSTRING", .renderstring), ("SCROLL", .scroll)] ++
  [("SHOWLETTER", .showletter), ("SHOWMSG", .showmsg), ("FLASH", .flash), ("HMIRROR", .hmirror), ("VMIRROR", .vmirror),
    ("FLIPH", .fliph), ("FLIPV", .flipv), ("GETDIAG", .getdiag), ("CLRDIAG", .clrdiag)]

def opcodeOf (w : Str) : List (String × Opcode) → Option Opcode
  | [] => none
  | (m, op) :: rest => if m.toList = w then some op else opcodeOf w rest

/-- `mnemonic [".R"]`: `.R` only after SETROT, FLIPH and FLIPV (30_encoding.md R70). -/
def mnemonic (w : Str) : Option (Opcode × Bool) :=
  match opcodeOf w mnemonics with
  | some op => some (op, false)
  | none =>
    match w.reverse with
    | 'R' :: '.' :: back => do
      let op ← opcodeOf back.reverse mnemonics
      if op.takesRedraw then some (op, true) else none
    | _ => none

/-- SCROLL's step may be left out, and then it is 8 (44_text_renderer.md R112). -/
def withDefaults : Opcode → List Value → List Value
  | .scroll, [v] => [v, .int Config.stepDefault]
  | _, vs => vs

/-- The command of a line without its label: the word is `OP | (R << 8)` (30_encoding.md R72). -/
def command : List Token → Option Command
  | .word w :: ts => do
    let (op, r) ← mnemonic w
    let vs ← operands ts.length ts
    some ⟨encodeWord op r, withDefaults op vs⟩
  | _ => none

/-- `line := [label ":"] mnemonic [".R"] [operand {"," operand}] [";" comment]`; a label has no effect (30_encoding.md
R70), and how it may be spelled is `classify`'s reading (log 22). -/
def assemble (line : Str) : Option Command := do
  let ts ← lex .idle line
  match ts with
  | .word _ :: .sym ':' :: ts => command ts
  | ts => command ts

end Sys2Proof.Asm
end

