-- ==== Sys2Proof/Safety.lean ====
section
/-! DEFINITION. What the claims call a legal state, a host that keeps its duties, and a run that does not stop
(10_state.md, 20_memory.md, 60_exceptions.md). -/

namespace Sys2Proof.Machine

/-- A font table as a successful load leaves it: `'?'` is in it, every glyph has 40 pixels, no character stands twice
(43_glyph_store.md R98). -/
def FontTable.wf (ft : FontTable) : Bool :=
  (FontTable.find? ft Config.fallbackChar).isSome && ft.all (fun e => e.2.length == Config.glyphLen) &&
    !hasRepeat (ft.map Prod.fst)

/-- `FT` as the life cycle allows it: empty before the load ends and after a failed load, well-formed in a READY block
(10_state.md R25, 43_glyph_store.md R98). -/
def ftLegal : Life → FontTable → Bool
  | .init, ft => ft.isEmpty
  | .ready, ft => FontTable.wf ft
  | .failed, ft => ft.isEmpty

/-- A legal state between commands: `fb` in canonical form within its 128 offsets, DIAG's reserved bits 0 (10_state.md
R22), `FT` as the life cycle allows it (R24, R25), no frame index (R29). -/
def State.Legal (s : State) : Prop :=
  s.fb.wf = true ∧ s.diag.extractLsb' 4 4 = 0 ∧ ftLegal s.life s.ft = true ∧ s.frameIdx = none

/-- What a host that keeps its duties presents: no command while another runs, no write to an offset that does not exist
(60_exceptions.md R128, 70_reset_and_hazards.md R146, 20_memory.md R35). -/
def Input.dutiful : Input → Bool
  | .command _ => true
  | .overlap _ => false
  | .assets _ => true
  | .hostWrite off _ => decide (off < Config.fbBytes)
  | .reset => true

/-- Everything presented keeps the host's duties. -/
def State.Dutiful (s : State) : Prop := s.inbox.all Input.dutiful = true

/-- A step that does not stop the machine. -/
def Goes (o : Host.Outcome State Fault Refusal) : Prop := ∃ s, o = .next s

end Sys2Proof.Machine
end

