-- ==== Sys2Proof/Certificates/Slice0/Obligations.lean ====
section
/-! DEFINITION. The statements for the provers.  Each says which rule of spec/ it formalises.  A premise
`s.fb.wf = true`, or `s.Legal`, is the invariant of `Obligations.StepKeepsLegal`. -/

open Sys2Proof Sys2Proof.Machine

/-! ### Decoding (30_encoding.md) -/

/-- 30_encoding.md R62, R72: decoding the command of a well-formed instruction gives it back, for every operand. -/
def Obligations.DecodeOfEncode : Prop :=
  ∀ i : Instr, i.wf = true → decode (encode i) = .ok i

/-- 30_encoding.md R54 to R62: a command that decodes is exactly the encoding of the instruction it decodes to, which is
well-formed: no bit of the word and no value of the tuple is ignored. -/
def Obligations.EncodeOfDecode : Prop :=
  ∀ (c : Command) (i : Instr), decode c = .ok i → i.wf = true ∧ encode i = c

/-- 30_encoding.md R56, R57, R59: a word with a bit of 31:9 set, or with an `OP` outside the table of R58, or with `R = 1`
on an `OP` other than 0x10, 0x52, 0x53, is answered `REFUSED` in every state, and nothing else changes. -/
def Obligations.IllegalWordsAreRefused : Prop :=
  ∀ (s : State) (c : Command) (rest : List Input), s.inbox = .command c :: rest →
    ((∃ k, 9 ≤ k ∧ k < 32 ∧ c.word.getLsbD k = true) ∨
      c.word.toNat % 256 ∉ [0x01, 0x02, 0x03, 0x10, 0x11, 0x12, 0x13, 0x20, 0x21, 0x22, 0x23, 0x24, 0x30, 0x40, 0x41,
        0x42, 0x43, 0x44, 0x48, 0x49, 0x4A, 0x50, 0x51, 0x52, 0x53, 0x60, 0x61] ∨
      (c.word.getLsbD 8 = true ∧ c.word.toNat % 256 ∉ [0x10, 0x52, 0x53])) →
    step s = .next { s with inbox := rest, trace := s.trace ++ [.resp .refused .none] }

/-- 30_encoding.md R61: with a legal word, a tuple that is not of the opcode's types is answered `REFUSED` in every state
and nothing else changes; a tuple of its types is taken as a well-formed instruction of that opcode and flag. -/
def Obligations.TuplesAreTypedByTheTable : Prop :=
  ∀ (s : State) (op : Opcode) (r : Bool) (vs : List Value) (rest : List Input),
    s.inbox = .command ⟨encodeWord op r, vs⟩ :: rest → (r = true → op = .setrot ∨ op = .fliph ∨ op = .flipv) →
    (admitsAll op.signature vs = false →
      step s = .next { s with inbox := rest, trace := s.trace ++ [.resp .refused .none] }) ∧
    (admitsAll op.signature vs = true →
      ∃ i : Instr, i.wf = true ∧ i.opcode = op ∧ i.redraw = r ∧ i.operands = vs ∧
        step s = exec i { s with inbox := rest })

/-- 60_exceptions.md R127, 30_encoding.md R62: a presented command that decodes to `i` makes the step `exec i`, the
command taken from what is presented. -/
def Obligations.StepRunsTheDecodedCommand : Prop :=
  ∀ (s : State) (c : Command) (rest : List Input) (i : Instr),
    s.inbox = .command c :: rest → decode c = .ok i → step s = exec i { s with inbox := rest }

/-- A sanity check: words written out from the table of 30_encoding.md R58, one of each family, decode to their
instructions. -/
def Obligations.WrittenWordsDecode : Prop :=
  decode ⟨0x00000001, [.int 248, .int 252, .int 248]⟩ = .ok (.pack 248 252 248) ∧
    decode ⟨0x00000110, [.int 180]⟩ = .ok (.setrotR 180) ∧
    decode ⟨0x00000024, [.int 1, .int 0, .color [.int 255, .nonint]]⟩ = .ok (.setpix 1 0 [.int 255, .nonint]) ∧
    decode ⟨0x00000030, [.str ['a', 'b']]⟩ = .ok (.lookup ['a', 'b']) ∧
    decode ⟨0x00000049, [.str ['a'], .color [], .color [.int 300], .int 100]⟩ =
      .ok (.showmsg ['a'] [] [.int 300] 100) ∧
    decode ⟨0x00000153, []⟩ = .ok .flipvR ∧
    decode ⟨0x00000061, []⟩ = .ok .clrdiag

/-- 30_encoding.md R58, R70, R72, 44_text_renderer.md R112: a line assembles exactly when its tokens, after a label and its
colon if it has one, are a mnemonic of the table of R58, with `.R` only on SETROT, FLIPH and FLIPV, and an operand list of
the grammar. The word is then the mnemonic's own `OP | (R << 8)`, and it is legal. The operands are those the line lists,
and for a SCROLL line with one operand they are that one and the step 8. The grammar's open points, inside `Asm.lex` and
`Asm.operands`, are the model's choice (log 22). -/
def Obligations.AssembledWordsAreLegal : Prop :=
  (∀ (line : Str) (c : Command), Asm.assemble line = some c ↔
    ∃ (m : String) (op : Nat) (r : Bool) (ts : List Asm.Token) (vs : List Value),
      (m, op) ∈ [("PACK", 0x01), ("UNPACK", 0x02), ("VALIDATE", 0x03), ("SETROT", 0x10), ("GETROT", 0x11), ("SLOT", 0x12),
        ("SLOTI", 0x13), ("DECODE", 0x20), ("ENCODE", 0x21), ("CHECKGRID", 0x22), ("GETPIX", 0x23), ("SETPIX", 0x24),
        ("LOOKUP", 0x30), ("TRIM", 0x40), ("RECOLOR", 0x41), ("RENDERLETTER", 0x42), ("RENDERSTRING", 0x43),
        ("SCROLL", 0x44), ("SHOWLETTER", 0x48), ("SHOWMSG", 0x49), ("FLASH", 0x4A), ("HMIRROR", 0x50), ("VMIRROR", 0x51),
        ("FLIPH", 0x52), ("FLIPV", 0x53), ("GETDIAG", 0x60), ("CLRDIAG", 0x61)] ∧
      (r = true → op ∈ [0x10, 0x52, 0x53]) ∧
      (Asm.lex .idle line = some (.word (m.toList ++ bif r then ['.', 'R'] else []) :: ts) ∨
        ∃ label, Asm.lex .idle line =
          some (.word label :: .sym ':' :: .word (m.toList ++ bif r then ['.', 'R'] else []) :: ts)) ∧
      Asm.operands ts.length ts = some vs ∧
      c.word.toNat = op + 256 * r.toNat ∧
      (∀ v, op = 0x44 → vs = [v] → c.operands = [v, .int 8]) ∧
      ((op = 0x44 → ∀ v, vs ≠ [v]) → c.operands = vs)) ∧
  (∀ (line : Str) (c : Command), Asm.assemble line = some c →
    ∃ (op : Opcode) (r : Bool), c.word = encodeWord op r ∧ decodeWord c.word = .ok (op, r))

/-- 30_encoding.md R61, 60_exceptions.md R131: an instruction whose glyph or grid has the wrong length answers `REFUSED`
in every state and changes nothing else. (Such a term is built by no decoding; log 23.) -/
def Obligations.IllTypedTermsAreRefused : Prop :=
  ∀ (i : Instr) (s : State), i.wf = false →
    exec i s = .next { s with trace := s.trace ++ [.resp .refused .none] }

/-- 60_exceptions.md R132: in a block that is not ready every command answers `NOTREADY` and changes nothing else. -/
def Obligations.NotReadyServesNothing : Prop :=
  ∀ (i : Instr) (s : State), i.wf = true → s.life ≠ .ready →
    exec i s = .next { s with trace := s.trace ++ [.resp .notReady .none] }

/-! ### ColorCodec (40_color_codec.md) -/

/-- 40_color_codec.md R73: PACK of channels in 0..255, the word by the weights of its fields. -/
def Obligations.PackAnswersTheWord : Prop :=
  ∀ (s : State) (r g b : Int), s.life = .ready → (0 ≤ r ∧ r ≤ 255) → (0 ≤ g ∧ g ≤ 255) → (0 ≤ b ∧ b ≤ 255) →
    ∃ w : Word16, (w.toNat : Int) = r / 8 * 2048 + g / 4 * 32 + b / 8 ∧
      exec (.pack r g b) s = .next { s with trace := s.trace ++ [.resp .ok (.word16 w)] }

/-- 40_color_codec.md R74: PACK with a channel outside 0..255 answers `OK` with some word, no DIAG bit, no transaction.
The word is a free value, and so is the count of draws (log 8, log 9). -/
def Obligations.PackOutOfRangeAnswersSomeWord : Prop :=
  ∀ (s : State) (r g b : Int), s.life = .ready →
    ¬((0 ≤ r ∧ r ≤ 255) ∧ (0 ≤ g ∧ g ≤ 255) ∧ (0 ≤ b ∧ b ≤ 255)) →
    ∃ (w : Word16) (n : Nat),
      exec (.pack r g b) s = .next { s with draws := n, trace := s.trace ++ [.resp .ok (.word16 w)] }

/-- 40_color_codec.md R75: UNPACK, each channel by its field's place. -/
def Obligations.UnpackAnswersTheColor : Prop :=
  ∀ (s : State) (w : Word16), s.life = .ready →
    ∃ c : RGB, c.r.toNat = 8 * (w.toNat / 2048) ∧ c.g.toNat = 4 * (w.toNat / 32 % 64) ∧ c.b.toNat = 8 * (w.toNat % 32) ∧
      exec (.unpack w) s = .next { s with trace := s.trace ++ [.resp .ok (.rgb c)] }

/-- 40_color_codec.md R76: VALIDATE passes exactly 3 integers each in 0..255 and otherwise answers `BLACK` and sets bit 0. -/
def Obligations.ValidateFailsClosed : Prop :=
  ∀ (s : State) (c : RawColor), s.life = .ready →
    (∀ v : RGB, c = [.int v.r.toNat, .int v.g.toNat, .int v.b.toNat] →
      exec (.validate c) s = .next { s with trace := s.trace ++ [.resp .ok (.rgb v)] }) ∧
    ((¬∃ r g b : Int, c = [.int r, .int g, .int b] ∧ (0 ≤ r ∧ r ≤ 255) ∧ (0 ≤ g ∧ g ≤ 255) ∧ (0 ≤ b ∧ b ≤ 255)) →
      exec (.validate c) s =
        .next { s with diag := s.diag ||| 0x01, trace := s.trace ++ [.resp .ok (.rgb ⟨0, 0, 0⟩)] })

/-- 40_color_codec.md R77: the codec laws, item by item, the 65536 colors of item 3 as a list without repeats. -/
def Obligations.CodecLaws : Prop :=
  (∀ c : RGB, unpack (pack c) = c ↔ c.r.toNat % 8 = 0 ∧ c.g.toNat % 4 = 0 ∧ c.b.toNat % 8 = 0) ∧
    (∀ w : Word16, pack (unpack w) = w) ∧
    (∀ v w : Word16, unpack v = unpack w → v = w) ∧
    (∀ c : RGB, (∃ w, unpack w = c) ↔ c.r.toNat % 8 = 0 ∧ c.g.toNat % 4 = 0 ∧ c.b.toNat % 8 = 0) ∧
    (∃ l : List RGB, l.length = 65536 ∧ l.Nodup ∧ ∀ c : RGB, c ∈ l ↔ ∃ w, unpack w = c) ∧
    (∀ c : RGB, unpack (pack c) = ⟨c.r &&& 0xF8, c.g &&& 0xFC, c.b &&& 0xF8⟩) ∧
    (∀ (c : RGB) (s : State), Machine.validate c.toRaw s = (c, s)) ∧
    (∀ (c : RawColor) (s t : State), (Machine.validate (Machine.validate c s).1.toRaw t) = ((Machine.validate c s).1, t))

/-! ### RotationTransform (41_rotation.md) -/

/-- 41_rotation.md R78: an angle is accepted as code q exactly when adding 360 until it is not negative gives 90q. -/
def Obligations.NormaliseAddsUntilNonNegative : Prop :=
  ∀ (a : Int) (q : RotCode), normalise a = some q ↔
    ∃ n : Nat, 0 ≤ a + 360 * n ∧ (∀ m : Nat, m < n → a + 360 * m < 0) ∧ a + 360 * n = 90 * q.toNat

/-- 41_rotation.md R81: SETROT commits an accepted angle, and on a rejected one sets `BAD_ANGLE` and keeps `ROT`; no
transaction, `OK` either way. -/
def Obligations.SetrotCommitsOrRejects : Prop :=
  ∀ (s : State) (a : Int), s.life = .ready →
    (∀ q, normalise a = some q →
      exec (.setrot a) s = .next { s with rot := q, trace := s.trace ++ [.resp .ok .none] }) ∧
    (normalise a = none →
      exec (.setrot a) s = .next { s with diag := s.diag ||| 0x08, trace := s.trace ++ [.resp .ok .none] })

/-- 41_rotation.md R82, a behaviour the spec marks as general knowledge and its own choice (92 D13): SETROT.R. A rejected
angle does no transaction. A failed read leaves `ROT` and `fb`. Otherwise the word at old slot σ_old(i) goes to new
slot σ_q(i), for every i, and `ROT` is q; on a failed write `ROT` is q too, and the 128 bytes are any value. -/
def Obligations.SetrotRedrawMovesThePicture : Prop :=
  ∀ (s : State) (a : Int), s.life = .ready → s.fb.wf = true →
    (normalise a = none →
      exec (.setrotR a) s = .next { s with diag := s.diag ||| 0x08, trace := s.trace ++ [.resp .ok .none] }) ∧
    (∀ q rest, normalise a = some q → s.io = .fail :: rest →
      exec (.setrotR a) s =
        .next { s with io := rest, trace := s.trace ++ [.fbRead 0 128 .fail, .resp .ioerr .none] }) ∧
    (∀ q rest, normalise a = some q → s.io = .ok :: .ok :: rest →
      ∃ t, exec (.setrotR a) s = .next t ∧
        t = { s with rot := q, fb := t.fb, io := rest, trace := s.trace ++
          [.fbRead 0 128 .ok, .fbWrite 0 (t.fb.readBytes 0 128) none .ok, .resp .ok .none] } ∧
        (∀ i, t.fb.word (slotForIndex q i) = s.fb.word (slotForIndex s.rot i)) ∧
        (∀ off, 128 ≤ off → t.fb.read off = s.fb.read off)) ∧
    (∀ q rest, normalise a = some q → s.io = .ok :: .fail :: rest →
      ∃ t bytes, exec (.setrotR a) s = .next t ∧
        t = { s with rot := q, fb := t.fb, io := rest, draws := t.draws, trace := s.trace ++
          [.fbRead 0 128 .ok, .fbWrite 0 bytes none .fail, .resp .ioerr .none] } ∧
        bytes.length = 128 ∧ (∀ i, wordAt bytes (2 * (slotForIndex q i).val) = s.fb.word (slotForIndex s.rot i)) ∧
        (∀ off, 128 ≤ off → t.fb.read off = s.fb.read off))

/-- 41_rotation.md R83: GETROT answers `90 * ROT`, one of 0, 90, 180, 270. -/
def Obligations.GetrotAnswersDegrees : Prop :=
  ∀ s : State, s.life = .ready →
    ∃ d : Nat, d = 90 * s.rot.toNat ∧ (d = 0 ∨ d = 90 ∨ d = 180 ∨ d = 270) ∧
      exec .getrot s = .next { s with trace := s.trace ++ [.resp .ok (.angle d)] }

/-- 41_rotation.md R79, R84: SLOT answers the slot of a coordinate by the table of R79; a coordinate outside 0..7 answers
`NONE` and sets `BAD_COORD`. -/
def Obligations.SlotOfACoordinate : Prop :=
  ∀ (s : State) (x y : Int), s.life = .ready →
    ((0 ≤ x ∧ x ≤ 7) ∧ (0 ≤ y ∧ y ≤ 7) →
      ∃ v : Slot, exec (.slot x y) s = .next { s with trace := s.trace ++ [.resp .ok (.slot (some v))] } ∧
        (s.rot = 0 → (v.val : Int) = y * 8 + x) ∧ (s.rot = 1 → (v.val : Int) = y + (7 - x) * 8) ∧
        (s.rot = 2 → (v.val : Int) = (7 - y) * 8 + (7 - x)) ∧ (s.rot = 3 → (v.val : Int) = (7 - y) + x * 8)) ∧
    (¬((0 ≤ x ∧ x ≤ 7) ∧ (0 ≤ y ∧ y ≤ 7)) →
      exec (.slot x y) s =
        .next { s with diag := s.diag ||| 0x04, trace := s.trace ++ [.resp .ok (.slot none)] })

/-- 41_rotation.md R80, R85: SLOTI answers the slot of an index by the closed forms of R80; an index outside 0..63 answers
`NONE` and sets `BAD_COORD`. -/
def Obligations.SlotOfAnIndex : Prop :=
  ∀ (s : State) (i : Int), s.life = .ready →
    (0 ≤ i ∧ i ≤ 63 →
      ∃ v : Slot, exec (.sloti i) s = .next { s with trace := s.trace ++ [.resp .ok (.slot (some v))] } ∧
        (s.rot = 0 → (v.val : Int) = i) ∧ (s.rot = 1 → (v.val : Int) = i / 8 + 8 * (7 - i % 8)) ∧
        (s.rot = 2 → (v.val : Int) = 63 - i) ∧ (s.rot = 3 → (v.val : Int) = (7 - i / 8) + 8 * (i % 8))) ∧
    (¬(0 ≤ i ∧ i ≤ 63) →
      exec (.sloti i) s =
        .next { s with diag := s.diag ||| 0x04, trace := s.trace ++ [.resp .ok (.slot none)] })

/-- 41_rotation.md R86: under the current rotation each slot is the answer to exactly one index, the one whose coordinate
the table of inverses gives. -/
def Obligations.SlotsAreHitExactlyOnce : Prop :=
  ∀ (s : State) (v : Slot), s.life = .ready →
    ∀ i : Fin 64, exec (.sloti i.val) s = .next { s with trace := s.trace ++ [.resp .ok (.slot (some v))] } ↔
      i.val = 8 * (logicalY s.rot v).val + (logicalX s.rot v).val

/-! ### PixelBuffer (42_pixel_buffer.md) -/

/-- 42_pixel_buffer.md R88, R90: DECODE answers the grid whose element i is the color of the little-endian word at slot
σ_ROT(i); a failed read answers `IOERR`; `fb` and the block's state stay. -/
def Obligations.DecodeAnswersTheGrid : Prop :=
  ∀ (s : State) (rest : List IoAnswer), s.life = .ready →
    (s.io = .ok :: rest →
      ∃ g : List RGB, exec .fbDecode s =
          .next { s with io := rest, trace := s.trace ++ [.fbRead 0 128 .ok, .resp .ok (.grid g)] } ∧
        g.length = 64 ∧ ∀ i : Fin 64, g[i.val]? = some (unpack (s.fb.word (slotForIndex s.rot i)))) ∧
    (s.io = .fail :: rest →
      exec .fbDecode s = .next { s with io := rest, trace := s.trace ++ [.fbRead 0 128 .fail, .resp .ioerr .none] })

/-- 42_pixel_buffer.md R89, R91: ENCODE. A 64-element grid puts each element's word, a bad element's as black, at its
slot, and sets bit 0 if an element is bad; a grid of another length writes 128 zero bytes and sets bit 1 alone; on a
failed write the bits stay and the addressed bytes are any value. -/
def Obligations.EncodeWritesTheGrid : Prop :=
  ∀ (s : State) (g : RawGrid) (rest : List IoAnswer), s.life = .ready → s.fb.wf = true →
    (g.length = 64 → s.io = .ok :: rest →
      ∃ t, exec (.fbEncode g) s = .next t ∧
        t = { s with diag := (bif g.any badColor then s.diag ||| 0x01 else s.diag), fb := t.fb, io := rest,
                     trace := s.trace ++ [.fbWrite 0 (t.fb.readBytes 0 128) none .ok, .resp .ok .none] } ∧
        (∀ (i : Fin 64) (c : RawColor), g[i.val]? = some c →
          t.fb.word (slotForIndex s.rot i) = pack (validColor c)) ∧
        (∀ off, 128 ≤ off → t.fb.read off = s.fb.read off)) ∧
    (g.length ≠ 64 → s.io = .ok :: rest →
      ∃ t, exec (.fbEncode g) s = .next t ∧
        t = { s with diag := s.diag ||| 0x02, fb := t.fb, io := rest,
                     trace := s.trace ++ [.fbWrite 0 (List.replicate 128 0) none .ok, .resp .ok .none] } ∧
        (∀ off, off < 128 → t.fb.read off = 0) ∧ (∀ off, 128 ≤ off → t.fb.read off = s.fb.read off)) ∧
    (s.io = .fail :: rest →
      ∃ t bytes, exec (.fbEncode g) s = .next t ∧
        t = { s with diag := (if g.length = 64 then bif g.any badColor then s.diag ||| 0x01 else s.diag
                              else s.diag ||| 0x02),
                     fb := t.fb, io := rest, draws := t.draws,
                     trace := s.trace ++ [.fbWrite 0 bytes none .fail, .resp .ioerr .none] } ∧
        (g.length = 64 → bytes.length = 128 ∧ ∀ (i : Fin 64) (c : RawColor), g[i.val]? = some c →
          wordAt bytes (2 * (slotForIndex s.rot i).val) = pack (validColor c)) ∧
        (g.length ≠ 64 → bytes = List.replicate 128 0) ∧
        (∀ off, 128 ≤ off → t.fb.read off = s.fb.read off))

/-- 42_pixel_buffer.md R92: CHECKGRID answers exactly the guarded grid, with ENCODE's notices and no transaction. -/
def Obligations.CheckgridAnswersTheGuardedGrid : Prop :=
  ∀ (s : State) (g : RawGrid), s.life = .ready →
    (g.length = 64 →
      exec (.checkgrid g) s =
        .next { s with diag := (bif g.any badColor then s.diag ||| 0x01 else s.diag),
                       trace := s.trace ++ [.resp .ok (.grid (g.map validColor))] }) ∧
    (g.length ≠ 64 →
      exec (.checkgrid g) s =
        .next { s with diag := s.diag ||| 0x02,
                       trace := s.trace ++ [.resp .ok (.grid (List.replicate 64 ⟨0, 0, 0⟩))] })

/-- 42_pixel_buffer.md R93: GETPIX reads the two bytes of the coordinate's slot and answers their color; a bad coordinate
answers `BLACK` with no read; a failed read answers `IOERR`. -/
def Obligations.GetpixReadsOnePixel : Prop :=
  ∀ (s : State) (rest : List IoAnswer), s.life = .ready →
    (∀ x y : Int, ¬((0 ≤ x ∧ x ≤ 7) ∧ (0 ≤ y ∧ y ≤ 7)) →
      exec (.getpix x y) s =
        .next { s with diag := s.diag ||| 0x04, trace := s.trace ++ [.resp .ok (.rgb ⟨0, 0, 0⟩)] }) ∧
    (∀ x y : Coord, s.io = .ok :: rest →
      exec (.getpix x.val y.val) s =
        .next { s with io := rest, trace := s.trace ++
          [.fbRead (2 * (slotFor s.rot x y).val) 2 .ok, .resp .ok (.rgb (unpack (s.fb.word (slotFor s.rot x y))))] }) ∧
    (∀ x y : Coord, s.io = .fail :: rest →
      exec (.getpix x.val y.val) s =
        .next { s with io := rest, trace := s.trace ++
          [.fbRead (2 * (slotFor s.rot x y).val) 2 .fail, .resp .ioerr .none] })

/-- 42_pixel_buffer.md R94: SETPIX writes the two bytes of the coordinate's slot and no other byte; a bad color is written
as black and sets bit 0; a bad coordinate writes nothing and sets bit 2; on a failed write only the two bytes may
change. -/
def Obligations.SetpixWritesOnePixel : Prop :=
  ∀ (s : State) (c : RawColor) (rest : List IoAnswer), s.life = .ready → s.fb.wf = true →
    (∀ x y : Int, ¬((0 ≤ x ∧ x ≤ 7) ∧ (0 ≤ y ∧ y ≤ 7)) →
      exec (.setpix x y c) s =
        .next { s with diag := (bif badColor c then s.diag ||| 0x01 else s.diag) ||| 0x04,
                       trace := s.trace ++ [.resp .ok .none] }) ∧
    (∀ x y : Coord, s.io = .ok :: rest →
      ∃ t, exec (.setpix x.val y.val c) s = .next t ∧
        t = { s with diag := (bif badColor c then s.diag ||| 0x01 else s.diag), fb := t.fb, io := rest,
                     trace := s.trace ++ [.fbWrite (2 * (slotFor s.rot x y).val)
                       (t.fb.readBytes (2 * (slotFor s.rot x y).val) 2) none .ok, .resp .ok .none] } ∧
        t.fb.word (slotFor s.rot x y) = pack (validColor c) ∧
        (∀ off, off ≠ 2 * (slotFor s.rot x y).val → off ≠ 2 * (slotFor s.rot x y).val + 1 →
          t.fb.read off = s.fb.read off)) ∧
    (∀ x y : Coord, s.io = .fail :: rest →
      ∃ t, exec (.setpix x.val y.val c) s = .next t ∧
        t = { s with diag := (bif badColor c then s.diag ||| 0x01 else s.diag), fb := t.fb, io := rest,
                     draws := t.draws,
                     trace := s.trace ++ [.fbWrite (2 * (slotFor s.rot x y).val)
                       [(pack (validColor c)).setWidth 8, (pack (validColor c) >>> 8).setWidth 8] none .fail,
                       .resp .ioerr .none] } ∧
        (∀ off, off ≠ 2 * (slotFor s.rot x y).val → off ≠ 2 * (slotFor s.rot x y).val + 1 →
          t.fb.read off = s.fb.read off))

/-- 42_pixel_buffer.md R95: the grid codec laws, item by item, for every rotation code. -/
def Obligations.GridCodecLaws : Prop :=
  (∀ (q : RotCode) (g : List RGB), g.length = 64 →
      (∀ c ∈ g, c.r.toNat % 8 = 0 ∧ c.g.toNat % 4 = 0 ∧ c.b.toNat % 8 = 0) → decodeBytes (encodeBytes g q) q = g) ∧
    (∀ (q : RotCode) (g : List RGB), g.length = 64 →
      decodeBytes (encodeBytes g q) q = g.map fun c => unpack (pack c)) ∧
    (∀ (q : RotCode) (b : List Byte), b.length = 128 → encodeBytes (decodeBytes b q) q = b) ∧
    (∀ (q q' : RotCode) (b : List Byte) (i : Fin 64), b.length = 128 →
      wordAt (encodeBytes (decodeBytes b q) q') (2 * (slotForIndex q' i).val) =
        wordAt b (2 * (slotForIndex q i).val)) ∧
    (∀ (g : List RGB) (s : State), g.length = 64 → checkGrid (g.map RGB.toRaw) s = (g, s)) ∧
    (∀ (g : RawGrid) (s : State), g.length ≠ 64 → (checkGrid g s).1 = List.replicate 64 BLACK) ∧
    (∀ (g : RawGrid) (s t : State),
      (checkGrid ((checkGrid g s).1.map RGB.toRaw) t) = ((checkGrid g s).1, t))

/-- 20_memory.md R46, 42_pixel_buffer.md R95: with two answers `ok` and nothing between, DECODE after ENCODE of a valid
grid answers that grid with its low bits cleared, under every rotation. -/
def Obligations.DecodeReadsWhatEncodeWrote : Prop :=
  ∀ (s t : State) (g : List RGB) (rest : List IoAnswer), s.life = .ready → s.fb.wf = true → g.length = 64 →
    s.io = .ok :: .ok :: rest → exec (.fbEncode (g.map RGB.toRaw)) s = .next t →
    exec .fbDecode t = .next { t with io := rest, trace := t.trace ++
      [.fbRead 0 128 .ok, .resp .ok (.grid (g.map fun c => ⟨c.r &&& 0xF8, c.g &&& 0xFC, c.b &&& 0xF8⟩))] }

/-! ### GlyphStore (43_glyph_store.md) -/

/-- 43_glyph_store.md R97, R98: while `STATE = INIT` the load ends in `READY` exactly for assets that are both present,
match in count, repeat no character and hold `'?'`, and then each character has its 40 pixels and no other character
any; else it ends in `FAILED` with no table. No DIAG bit, no event. -/
def Obligations.FontLoadDecidesTheLife : Prop :=
  ∀ (s : State) (a : Assets), s.life = .init →
    (∀ (p : List RGB) (cs : Str), a.strip = some p → a.chars = some cs → p.length = 40 * cs.length → cs.Nodup →
      '?' ∈ cs →
      ∃ t, fontLoad a s = t ∧ t = { s with life := .ready, ft := t.ft } ∧
        (∀ k ch, cs[k]? = some ch → FontTable.find? t.ft ch = some ((p.drop (40 * k)).take 40)) ∧
        (∀ ch, ch ∉ cs → FontTable.find? t.ft ch = none)) ∧
    ((¬∃ (p : List RGB) (cs : Str), a.strip = some p ∧ a.chars = some cs ∧ p.length = 40 * cs.length ∧ cs.Nodup ∧
        '?' ∈ cs) →
      fontLoad a s = { s with life := .failed })

/-- 43_glyph_store.md R98, 10_state.md R32: a delivery of the assets runs the load once, while `STATE = INIT`; a later one
changes nothing. That the assets arrive as an input, and that a late delivery is dropped, is the model's choice (log
16). -/
def Obligations.DeliveredAssetsRunTheLoad : Prop :=
  ∀ (s : State) (a : Assets) (rest : List Input), s.inbox = .assets a :: rest →
    (s.life = .init → step s = .next (fontLoad a { s with inbox := rest })) ∧
    (s.life ≠ .init → step s = .next { s with inbox := rest })

/-- 43_glyph_store.md R100, R101: LOOKUP of one character in the table answers its glyph; any other string answers the
glyph of `'?'`; no DIAG bit, no transaction. -/
def Obligations.LookupFallsBackToQuestionMark : Prop :=
  ∀ (s : State) (g0 : List RGB), s.life = .ready → FontTable.find? s.ft '?' = some g0 →
    (∀ c gl, FontTable.find? s.ft c = some gl →
      exec (.lookup [c]) s = .next { s with trace := s.trace ++ [.resp .ok (.glyph gl)] }) ∧
    (∀ t : Str, (∀ c, t = [c] → FontTable.find? s.ft c = none) →
      exec (.lookup t) s = .next { s with trace := s.trace ++ [.resp .ok (.glyph g0)] })

/-! ### TextRenderer (44_text_renderer.md) -/

/-- 44_text_renderer.md R102, R109: TRIM of an all-black glyph answers it whole; else it answers rows a to b, where a is
the first and b the last row with an element other than black. -/
def Obligations.TrimKeepsTheInkRows : Prop :=
  ∀ (s : State) (gl : List RGB), s.life = .ready → gl.length = 40 →
    ((∀ c ∈ gl, c = BLACK) →
      exec (.trim gl) s = .next { s with trace := s.trace ++ [.resp .ok (.pixels gl)] }) ∧
    ((∃ c ∈ gl, c ≠ BLACK) →
      ∃ a b : Nat, a ≤ b ∧ b < 5 ∧
        exec (.trim gl) s = .next { s with trace := s.trace ++
          [.resp .ok (.pixels ((gl.drop (8 * a)).take (8 * (b + 1 - a))))] } ∧
        (∀ k c, gl[k]? = some c → k < 8 * a ∨ 8 * (b + 1) ≤ k → c = BLACK) ∧
        (∃ k c, 8 * a ≤ k ∧ k < 8 * (a + 1) ∧ gl[k]? = some c ∧ c ≠ BLACK) ∧
        (∃ k c, 8 * b ≤ k ∧ k < 8 * (b + 1) ∧ gl[k]? = some c ∧ c ≠ BLACK))

/-- 44_text_renderer.md R103, R110: RECOLOR answers as many pixels, each `bg` where the pixel is black and `fg` elsewhere. -/
def Obligations.RecolorMapsEachPixel : Prop :=
  ∀ (s : State) (p : List RGB) (fg bg : RGB), s.life = .ready →
    ∃ q : List RGB, exec (.recolor p fg bg) s = .next { s with trace := s.trace ++ [.resp .ok (.pixels q)] } ∧
      q.length = p.length ∧
      (∀ k : Nat, p[k]? = some BLACK → q[k]? = some bg) ∧ (∀ (k : Nat) c, p[k]? = some c → c ≠ BLACK → q[k]? = some fg)

/-- 44_text_renderer.md R104, R111: RENDERLETTER answers 64 elements: 8 of bg, the recolored glyph, 16 of bg. -/
def Obligations.RenderletterFramesTheGlyph : Prop :=
  ∀ (s : State) (t : Str) (fg bg : RGB), s.life = .ready → s.Legal →
    ∃ f : List RGB, exec (.renderletter t fg bg) s = .next { s with trace := s.trace ++ [.resp .ok (.grid f)] } ∧
      f.length = 64 ∧ (∀ k, k < 8 ∨ (48 ≤ k ∧ k < 64) → f[k]? = some bg) ∧
      (∀ k c, (lookup s.ft t)[k]? = some c → f[8 + k]? = some (if c = BLACK then bg else fg))

/-- 44_text_renderer.md R105, R113: RENDERSTRING answers 8 of bg, then for each character its trimmed and recolored glyph
and 16 of bg, then 8 of bg; each piece stands where the lengths before it put it. -/
def Obligations.RenderstringJoinsThePieces : Prop :=
  ∀ (s : State) (t : Str) (fg bg : RGB), s.life = .ready →
    ∃ q : List RGB, exec (.renderstring t fg bg) s = .next { s with trace := s.trace ++ [.resp .ok (.pixels q)] } ∧
      q.length = 16 + (t.map fun c => (trim (lookup s.ft [c])).length + 16).sum ∧
      q.take 8 = List.replicate 8 bg ∧ q.drop (q.length - 8) = List.replicate 8 bg ∧
      (∀ pre c post, t = pre ++ c :: post →
        (q.drop (8 + (pre.map fun c => (trim (lookup s.ft [c])).length + 16).sum)).take
            ((trim (lookup s.ft [c])).length + 16) =
          recolor (trim (lookup s.ft [c])) fg bg ++ List.replicate 16 bg)

/-- 44_text_renderer.md R106, R112: SCROLL answers one frame for each k with `k*step + 64 <= len(seq)`, elements `k*step`
to `k*step + 63`, and no other; a step of zero or less answers `REFUSED` and changes nothing. -/
def Obligations.ScrollCutsTheFrames : Prop :=
  ∀ (s : State) (seq : List RGB) (n : Int), s.life = .ready →
    (n ≤ 0 → exec (.scroll seq n) s = .next { s with trace := s.trace ++ [.resp .refused .none] }) ∧
    (1 ≤ n →
      ∃ fs : List (List RGB), exec (.scroll seq n) s = .next { s with trace := s.trace ++ [.resp .ok (.grids fs)] } ∧
        (∀ k : Nat, k < fs.length ↔ (k : Int) * n + 64 ≤ seq.length) ∧
        (∀ (k : Nat) f, fs[k]? = some f → f.length = 64 ∧ ∀ j : Nat, j < 64 → f[j]? = seq[k * n.toNat + j]?))

/-- 44_text_renderer.md R107, R108, R114, with the orientation that the spec derives in R117 item 4: SHOWLETTER does one
whole write, and frame element `8r + c` ends on the slot that shows caller-logical `(r, 7 - c)` under the rotation the
command found; `ROT` is as it was, on `ok` and on `fail`. What `SAVED` holds afterwards is free. -/
def Obligations.ShowletterDisplaysTheLetter : Prop :=
  ∀ (s : State) (t : Str) (fg bg : RawColor) (rest : List IoAnswer), s.life = .ready → s.Legal →
    (s.io = .ok :: rest →
      ∃ u, exec (.showletter t fg bg) s = .next u ∧
        u = { s with diag := (bif (renderLetter s.ft t fg bg).any badColor then s.diag ||| 0x01 else s.diag),
                     saved := u.saved, fb := u.fb, io := rest, draws := u.draws,
                     trace := s.trace ++ [.fbWrite 0 (u.fb.readBytes 0 128) none .ok, .resp .ok .none] } ∧
        (∀ (r c : Coord) (v : RawColor), (renderLetter s.ft t fg bg)[8 * r.val + c.val]? = some v →
          u.fb.word (slotFor s.rot r ⟨7 - c.val, by omega⟩) = pack (validColor v)) ∧
        (∀ off, 128 ≤ off → u.fb.read off = s.fb.read off)) ∧
    (s.io = .fail :: rest →
      ∃ u bytes, exec (.showletter t fg bg) s = .next u ∧
        u = { s with diag := (bif (renderLetter s.ft t fg bg).any badColor then s.diag ||| 0x01 else s.diag),
                     saved := u.saved, fb := u.fb, io := rest, draws := u.draws,
                     trace := s.trace ++ [.fbWrite 0 bytes none .fail, .resp .ioerr .none] } ∧
        bytes.length = 128 ∧
        (∀ (r c : Coord) (v : RawColor), (renderLetter s.ft t fg bg)[8 * r.val + c.val]? = some v →
          wordAt bytes (2 * (slotFor s.rot r ⟨7 - c.val, by omega⟩).val) = pack (validColor v)) ∧
        (∀ off, 128 ≤ off → u.fb.read off = s.fb.read off))

/-- 44_text_renderer.md R115: SHOWMSG. With every write answered `ok` it writes every frame of `scroll(renderString(t, fg,
bg), 8)` in order, each under the override code and carrying `hold`, and answers `OK`; `fb` holds the last frame, or
what it held when there is none. At the first failed write it stops: the frames before it are written, the failing one
is recorded, no later one is, and it answers `IOERR`. `ROT` is as it was on both paths. What `SAVED` holds afterwards
is free. -/
def Obligations.ShowmsgScrollsTheText : Prop :=
  ∀ (s : State) (t : Str) (fg bg : RawColor) (hold : Hold) (rest : List IoAnswer), s.life = .ready → s.Legal →
    let frames := scroll (renderString s.ft t fg bg) 8
    (s.io = List.replicate frames.length .ok ++ rest →
      ∃ u, exec (.showmsg t fg bg hold) s = .next u ∧
        u = { s with diag := (bif frames.any (fun f => f.any badColor) then s.diag ||| 0x01 else s.diag),
                     saved := u.saved, fb := u.fb, io := rest, draws := u.draws,
                     trace := s.trace ++ frames.map (fun f =>
                       .fbWrite 0 (encodeBytes (f.map validColor) (s.rot + 1)) (some hold) .ok) ++ [.resp .ok .none] } ∧
        (frames = [] → u.fb = s.fb) ∧
        (∀ f, frames.getLast? = some f → u.fb.readBytes 0 128 = encodeBytes (f.map validColor) (s.rot + 1)) ∧
        (∀ off, 128 ≤ off → u.fb.read off = s.fb.read off)) ∧
    (∀ (pre post : List RawGrid) (f : RawGrid), frames = pre ++ f :: post →
      s.io = List.replicate pre.length .ok ++ .fail :: rest →
      ∃ u, exec (.showmsg t fg bg hold) s = .next u ∧
        u = { s with diag := (bif (pre ++ [f]).any (fun f => f.any badColor) then s.diag ||| 0x01 else s.diag),
                     saved := u.saved, fb := u.fb, io := rest, draws := u.draws,
                     trace := s.trace ++ pre.map (fun f =>
                         .fbWrite 0 (encodeBytes (f.map validColor) (s.rot + 1)) (some hold) .ok) ++
                       [.fbWrite 0 (encodeBytes (f.map validColor) (s.rot + 1)) (some hold) .fail,
                        .resp .ioerr .none] } ∧
        (∀ off, 128 ≤ off → u.fb.read off = s.fb.read off))

/-- 44_text_renderer.md R116: the same for FLASH, one untrimmed letter frame for each character. -/
def Obligations.FlashShowsEveryLetter : Prop :=
  ∀ (s : State) (t : Str) (fg bg : RawColor) (hold : Hold) (rest : List IoAnswer), s.life = .ready → s.Legal →
    let frames := t.map fun c => renderLetter s.ft [c] fg bg
    (s.io = List.replicate t.length .ok ++ rest →
      ∃ u, exec (.flash t fg bg hold) s = .next u ∧
        u = { s with diag := (bif frames.any (fun f => f.any badColor) then s.diag ||| 0x01 else s.diag),
                     saved := u.saved, fb := u.fb, io := rest, draws := u.draws,
                     trace := s.trace ++ frames.map (fun f =>
                       .fbWrite 0 (encodeBytes (f.map validColor) (s.rot + 1)) (some hold) .ok) ++ [.resp .ok .none] } ∧
        (frames = [] → u.fb = s.fb) ∧
        (∀ f, frames.getLast? = some f → u.fb.readBytes 0 128 = encodeBytes (f.map validColor) (s.rot + 1)) ∧
        (∀ off, 128 ≤ off → u.fb.read off = s.fb.read off)) ∧
    (∀ (pre post : List RawGrid) (f : RawGrid), frames = pre ++ f :: post →
      s.io = List.replicate pre.length .ok ++ .fail :: rest →
      ∃ u, exec (.flash t fg bg hold) s = .next u ∧
        u = { s with diag := (bif (pre ++ [f]).any (fun f => f.any badColor) then s.diag ||| 0x01 else s.diag),
                     saved := u.saved, fb := u.fb, io := rest, draws := u.draws,
                     trace := s.trace ++ pre.map (fun f =>
                         .fbWrite 0 (encodeBytes (f.map validColor) (s.rot + 1)) (some hold) .ok) ++
                       [.fbWrite 0 (encodeBytes (f.map validColor) (s.rot + 1)) (some hold) .fail,
                        .resp .ioerr .none] } ∧
        (∀ off, 128 ≤ off → u.fb.read off = s.fb.read off))

/-! ### MirrorOps (45_mirror_ops.md) -/

/-- 45_mirror_ops.md R118 to R121: HMIRROR and VMIRROR answer the mirrored grid; no transaction, no DIAG bit. -/
def Obligations.MirrorsAnswerTheMirroredGrid : Prop :=
  ∀ (s : State) (g : List RGB), s.life = .ready → g.length = 64 →
    (∃ h : List RGB, exec (.hmirror g) s = .next { s with trace := s.trace ++ [.resp .ok (.grid h)] } ∧
      h.length = 64 ∧ ∀ r c : Coord, h[8 * r.val + c.val]? = g[8 * r.val + (7 - c.val)]?) ∧
    (∃ v : List RGB, exec (.vmirror g) s = .next { s with trace := s.trace ++ [.resp .ok (.grid v)] } ∧
      v.length = 64 ∧ ∀ r c : Coord, v[8 * r.val + c.val]? = g[8 * (7 - r.val) + c.val]?)

/-- 45_mirror_ops.md R124: the mirrors are involutions, they commute to the reversal of the grid, and two FLIPH.R (or two
FLIPV.R) with every transaction `ok` leave `fb` as it was. The last rests on the redrawing flips, a behaviour the spec marks
as general knowledge and its own choice (92 D22; log 24). -/
def Obligations.MirrorLaws : Prop :=
  (∀ g : List RGB, g.length = 64 → hmirror (hmirror g) = g ∧ vmirror (vmirror g) = g) ∧
    (∀ g : List RGB, g.length = 64 → hmirror (vmirror g) = g.reverse ∧ vmirror (hmirror g) = g.reverse) ∧
    (∀ (s t u : State) (i : Instr) (rest : List IoAnswer), i = .fliphR ∨ i = .flipvR → s.life = .ready →
      s.fb.wf = true → s.io = .ok :: .ok :: .ok :: .ok :: rest →
      exec i s = .next t → exec i t = .next u → u.fb = s.fb)

/-- 45_mirror_ops.md R122, a behaviour the spec marks as general knowledge and its own choice (92 D22): FLIPH and FLIPH.R
answer the decoded picture mirrored left to right; FLIPH writes nothing, FLIPH.R moves each word from slot σ(8r + c)
to slot σ(8r + 7 - c); a failed transaction answers `IOERR`. -/
def Obligations.FliphMirrorsThePicture : Prop :=
  ∀ (s : State) (rest : List IoAnswer), s.life = .ready → s.fb.wf = true →
    (∀ i : Instr, i = .fliph ∨ i = .fliphR → s.io = .fail :: rest →
      exec i s = .next { s with io := rest, trace := s.trace ++ [.fbRead 0 128 .fail, .resp .ioerr .none] }) ∧
    ∃ g : List RGB, g.length = 64 ∧
      (∀ r c : Coord, g[8 * r.val + (7 - c.val)]? = some (unpack (s.fb.word (slotFor s.rot c r)))) ∧
      (s.io = .ok :: rest →
        exec .fliph s = .next { s with io := rest, trace := s.trace ++ [.fbRead 0 128 .ok, .resp .ok (.grid g)] }) ∧
      (s.io = .ok :: .ok :: rest →
        ∃ t, exec .fliphR s = .next t ∧
          t = { s with fb := t.fb, io := rest, trace := s.trace ++
            [.fbRead 0 128 .ok, .fbWrite 0 (t.fb.readBytes 0 128) none .ok, .resp .ok (.grid g)] } ∧
          (∀ r c : Coord, t.fb.word (slotFor s.rot ⟨7 - c.val, by omega⟩ r) = s.fb.word (slotFor s.rot c r)) ∧
          (∀ off, 128 ≤ off → t.fb.read off = s.fb.read off)) ∧
      (s.io = .ok :: .fail :: rest →
        ∃ t bytes, exec .fliphR s = .next t ∧
          t = { s with fb := t.fb, io := rest, draws := t.draws, trace := s.trace ++
            [.fbRead 0 128 .ok, .fbWrite 0 bytes none .fail, .resp .ioerr .none] } ∧
          bytes.length = 128 ∧
          (∀ r c : Coord, wordAt bytes (2 * (slotFor s.rot ⟨7 - c.val, by omega⟩ r).val) = s.fb.word (slotFor s.rot c r)) ∧
          (∀ off, 128 ≤ off → t.fb.read off = s.fb.read off))

/-- 45_mirror_ops.md R123, marked as R122 is: FLIPV and FLIPV.R, top to bottom: each word from slot σ(8r + c) to slot
σ(8(7 - r) + c). -/
def Obligations.FlipvMirrorsThePicture : Prop :=
  ∀ (s : State) (rest : List IoAnswer), s.life = .ready → s.fb.wf = true →
    (∀ i : Instr, i = .flipv ∨ i = .flipvR → s.io = .fail :: rest →
      exec i s = .next { s with io := rest, trace := s.trace ++ [.fbRead 0 128 .fail, .resp .ioerr .none] }) ∧
    ∃ g : List RGB, g.length = 64 ∧
      (∀ r c : Coord, g[8 * (7 - r.val) + c.val]? = some (unpack (s.fb.word (slotFor s.rot c r)))) ∧
      (s.io = .ok :: rest →
        exec .flipv s = .next { s with io := rest, trace := s.trace ++ [.fbRead 0 128 .ok, .resp .ok (.grid g)] }) ∧
      (s.io = .ok :: .ok :: rest →
        ∃ t, exec .flipvR s = .next t ∧
          t = { s with fb := t.fb, io := rest, trace := s.trace ++
            [.fbRead 0 128 .ok, .fbWrite 0 (t.fb.readBytes 0 128) none .ok, .resp .ok (.grid g)] } ∧
          (∀ r c : Coord, t.fb.word (slotFor s.rot c ⟨7 - r.val, by omega⟩) = s.fb.word (slotFor s.rot c r)) ∧
          (∀ off, 128 ≤ off → t.fb.read off = s.fb.read off)) ∧
      (s.io = .ok :: .fail :: rest →
        ∃ t bytes, exec .flipvR s = .next t ∧
          t = { s with fb := t.fb, io := rest, draws := t.draws, trace := s.trace ++
            [.fbRead 0 128 .ok, .fbWrite 0 bytes none .fail, .resp .ioerr .none] } ∧
          bytes.length = 128 ∧
          (∀ r c : Coord, wordAt bytes (2 * (slotFor s.rot c ⟨7 - r.val, by omega⟩).val) = s.fb.word (slotFor s.rot c r)) ∧
          (∀ off, 128 ≤ off → t.fb.read off = s.fb.read off))

/-! ### Diagnostics (46_diagnostics.md) -/

/-- 46_diagnostics.md R125, R126: GETDIAG answers `DIAG`, whose bits 7..4 are 0 in a legal state, and does not clear it;
CLRDIAG clears all of it; no transaction. -/
def Obligations.DiagIsReadAndCleared : Prop :=
  ∀ s : State, s.life = .ready →
    exec .getdiag s = .next { s with trace := s.trace ++ [.resp .ok (.byte s.diag)] } ∧
    (s.Legal → s.diag.toNat < 16) ∧
    exec .clrdiag s = .next { s with diag := 0x00, trace := s.trace ++ [.resp .ok .none] }

/-! ### Reset, the outside, and the rules of the whole machine -/

/-- 70_reset_and_hazards.md R141: what reset leaves, at the launch in front of any buffer and for a reset of a running
block; `fb` is not touched. `SAVED` is unspecified and is not stated. The spec marks `ROT = 0` as general knowledge
(92 D8; log 3); that a reset arrives as an input is the model's choice (log 25). -/
def Obligations.ResetLeavesTheResetValues : Prop :=
  (∀ (m : Memory) (l : List Input) (a : List IoAnswer) (s : State), s = State.launch m l a →
      s.rot = 0 ∧ s.diag = 0x00 ∧ s.life = .init ∧ s.ft = [] ∧ s.trace = [] ∧ s.fb = m) ∧
    (∀ (s : State) (rest : List Input), s.inbox = .reset :: rest →
      ∃ t, step s = .next t ∧ t.rot = 0 ∧ t.diag = 0x00 ∧ t.life = .init ∧ t.ft = [] ∧ t.trace = [] ∧ t.fb = s.fb ∧
        t.inbox = rest ∧ t.io = s.io)

/-- 10_state.md R22, R24, R25, R29, R33: the state after reset is legal, in front of any buffer in canonical form. -/
def Obligations.ResetIsLegal : Prop :=
  State.reset.Legal ∧ ∀ (m : Memory) (l : List Input) (a : List IoAnswer), m.wf = true → (State.launch m l a).Legal

/-- 10_state.md R22, R24, R25, R29, 20_memory.md R35: every step from a legal state ends in a legal state: the buffer
keeps its canonical form within its 128 offsets, DIAG's reserved bits stay 0, a READY block holds a well-formed font
with `'?'`, any other block holds none, and no frame index survives a command. -/
def Obligations.StepKeepsLegal : Prop :=
  ∀ s t : State, s.Legal → step s = .next t → t.Legal

/-- 10_state.md R27, R28: a presented command, legal or not, is answered by exactly one response, the last of its events. -/
def Obligations.EveryCommandHasOneResponse : Prop :=
  ∀ (s : State) (c : Command) (rest : List Input), s.inbox = .command c :: rest →
    ∃ t evs st r, step s = .next t ∧ t.inbox = rest ∧ t.trace = s.trace ++ evs ++ [.resp st r] ∧
      ∀ st' r', Event.resp st' r' ∉ evs

/-- 10_state.md R22: DIAG bits are sticky: no command but CLRDIAG clears one, and no command sets one of bits 7..4. -/
def Obligations.DiagBitsAreSticky : Prop :=
  ∀ (i : Instr) (s t : State), exec i s = .next t →
    (i ≠ .clrdiag → s.diag &&& t.diag = s.diag) ∧
    (s.diag.extractLsb' 4 4 = 0 → t.diag.extractLsb' 4 4 = 0)

/-- 10_state.md R21, 70_reset_and_hazards.md R145: no command but SETROT and SETROT.R ends with another `ROT` than it
found, whatever the transactions answered. -/
def Obligations.OnlySetrotMovesTheRotation : Prop :=
  ∀ (i : Instr) (s t : State), (∀ a, i ≠ .setrot a ∧ i ≠ .setrotR a) → exec i s = .next t → t.rot = s.rot

/-- 43_glyph_store.md R99, 10_state.md R25: after a successful load the font table and `READY` stay until a reset, through
every step. -/
def Obligations.FontStaysUntilReset : Prop :=
  ∀ s t : State, s.life = .ready → s.inbox.head? ≠ some .reset → step s = .next t → t.ft = s.ft ∧ t.life = .ready

/-- 10_state.md R31: no command but GETDIAG lets a DIAG bit decide anything: from two states that differ in DIAG alone it
ends in two states that differ in DIAG at most. -/
def Obligations.DiagDecidesNothing : Prop :=
  ∀ (i : Instr) (s t u : State) (d : Byte), i ≠ .getdiag →
    exec i s = .next t → exec i { s with diag := d } = .next u → u = { t with diag := u.diag }

/-- 20_memory.md R41, its last row: the commands without a transaction leave `fb` and the environment's answers alone and
their one event is the response. -/
def Obligations.CommandsWithoutTransactions : Prop :=
  ∀ (i : Instr) (s t : State),
    i.opcode ∈ [Opcode.pack, .unpack, .validate, .getrot, .slot, .sloti, .checkgrid, .lookup, .trim, .recolor,
        .renderletter, .renderstring, .scroll, .hmirror, .vmirror, .getdiag, .clrdiag] ∨ (∃ a, i = .setrot a) →
    exec i s = .next t →
    t.fb = s.fb ∧ t.io = s.io ∧ ∃ st r, t.trace = s.trace ++ [.resp st r]

/-- 20_memory.md R35, R38: a direct host write replaces one byte and leaves no event; at an offset that does not exist the
machine stops (the stop is the model's, log 15). -/
def Obligations.HostWriteChangesOneByte : Prop :=
  ∀ (s : State) (off : Nat) (v : Byte) (rest : List Input), s.inbox = .hostWrite off v :: rest → s.fb.wf = true →
    (off < 128 →
      ∃ t, step s = .next t ∧ t = { s with inbox := rest, fb := t.fb } ∧ t.fb.read off = v ∧
        ∀ a, a ≠ off → t.fb.read a = s.fb.read a) ∧
    (128 ≤ off → step s = .fault (.noSuchOffset off))

/-- 60_exceptions.md R128: a command presented while another runs: the run is refused and has no meaning. -/
def Obligations.OverlappingCommandRefusesTheRun : Prop :=
  ∀ (s : State) (c : Command) (rest : List Input), s.inbox = .overlap c :: rest →
    step s = .refused .commandWhileBusy

/-- 60_exceptions.md R128, R134, 70_reset_and_hazards.md R151: while the host keeps its duties no step stops, so that a
run goes on to the end of what is presented: each step takes one input and the duties still hold. The model's choice are the
inputs as a list of which a step takes the first (log 1), the step that waits when none is left (log 19), and the two stops
the duties rule out (log 14, log 15). -/
def Obligations.DutifulRunsNeverStop : Prop :=
  ∀ s : State, s.Dutiful → ∃ t, step s = .next t ∧ t.Dutiful ∧ t.inbox = s.inbox.tail
end

