-- ==== Sys2Proof/Laws/Codec.lean ====
section
/-! SUPPORT. The laws of raw colors and of the RGB565 codec (00_scope.md R14, 40_color_codec.md R73 to R77). -/

namespace Sys2Proof

theorem RGB.ext_toNat {c d : RGB} (hr : c.r.toNat = d.r.toNat) (hg : c.g.toNat = d.g.toNat)
    (hb : c.b.toNat = d.b.toNat) : c = d := by
  cases c; cases d
  simp only [RGB.mk.injEq]
  exact ⟨BitVec.eq_of_toNat_eq hr, BitVec.eq_of_toNat_eq hg, BitVec.eq_of_toNat_eq hb⟩

theorem channel?_eq_some {z : Int} {b : Byte} : channel? z = some b ↔ z = b.toNat := by
  unfold channel?
  constructor
  · intro h
    split at h
    · rename_i hz
      simp only [Option.some.injEq] at h
      subst h
      simp [BitVec.toNat_ofNat]
      omega
    · simp at h
  · intro h
    have := b.isLt
    subst h
    simp; omega

theorem channel?_isSome {z : Int} : (channel? z).isSome = true ↔ 0 ≤ z ∧ z ≤ 255 := by
  unfold channel?; split <;> simp_all

@[simp] theorem channel?_toNat (b : Byte) : channel? (b.toNat : Int) = some b := channel?_eq_some.mpr rfl

theorem toRGB?_ints (r g b : Int) :
    RawColor.toRGB? [.int r, .int g, .int b] =
      (channel? r).bind fun r => (channel? g).bind fun g => (channel? b).bind fun b => some ⟨r, g, b⟩ := rfl

/-- The embedding is read back (00_scope.md R14). -/
@[simp] theorem toRGB?_toRaw (c : RGB) : RawColor.toRGB? c.toRaw = some c := by
  simp [RGB.toRaw, toRGB?_ints]

/-- Only the embedding of an `RGB` is that `RGB`. -/
theorem toRGB?_eq_some {c : RawColor} {v : RGB} : RawColor.toRGB? c = some v ↔ c = v.toRaw := by
  constructor
  · intro h
    unfold RawColor.toRGB? at h
    split at h
    · simp only [Option.bind_eq_bind, Option.bind_eq_some_iff, channel?_eq_some, Option.some.injEq] at h
      obtain ⟨r, rfl, g, rfl, b, rfl, rfl⟩ := h
      rfl
    · simp at h
  · rintro rfl; simp

/-- Exactly 3 integer components each in 0..255 (40_color_codec.md R76). -/
theorem toRGB?_isSome {c : RawColor} :
    (RawColor.toRGB? c).isSome = true ↔
      ∃ r g b : Int, c = [.int r, .int g, .int b] ∧ (0 ≤ r ∧ r ≤ 255) ∧ (0 ≤ g ∧ g ≤ 255) ∧ (0 ≤ b ∧ b ≤ 255) := by
  rw [Option.isSome_iff_exists]
  simp only [toRGB?_eq_some]
  constructor
  · rintro ⟨v, rfl⟩
    have := v.r.isLt; have := v.g.isLt; have := v.b.isLt
    exact ⟨_, _, _, rfl, by omega, by omega, by omega⟩
  · rintro ⟨r, g, b, rfl, hr, hg, hb⟩
    refine ⟨⟨BitVec.ofNat 8 r.toNat, BitVec.ofNat 8 g.toNat, BitVec.ofNat 8 b.toNat⟩, ?_⟩
    simp only [RGB.toRaw, BitVec.toNat_ofNat, List.cons.injEq, Comp.int.injEq, and_true]
    omega

@[simp] theorem toRGBs?_map (p : List RGB) : toRGBs? (p.map RGB.toRaw) = some p := by
  induction p with
  | nil => rfl
  | cons c p ih => simp [toRGBs?, ih]

theorem toRGBs?_eq_some {cs : List RawColor} {p : List RGB} : toRGBs? cs = some p ↔ cs = p.map RGB.toRaw := by
  constructor
  · intro h
    induction cs generalizing p with
    | nil => simp [toRGBs?] at h; subst h; rfl
    | cons c cs ih =>
      simp only [toRGBs?, Option.bind_eq_bind, Option.bind_eq_some_iff, Option.some.injEq] at h
      obtain ⟨v, hv, vs, hvs, rfl⟩ := h
      rw [toRGB?_eq_some.mp hv, ih hvs]; rfl
  · rintro rfl; simp

end Sys2Proof

namespace Sys2Proof.Machine

/-- The fields of the word by their weights (30_encoding.md R63, 40_color_codec.md R73). -/
theorem pack_toNat (c : RGB) :
    (pack c).toNat = c.r.toNat / 8 * 2048 + c.g.toNat / 4 * 32 + c.b.toNat / 8 := by
  have hr := c.r.isLt; have hg := c.g.isLt; have hb := c.b.isLt
  have e1 : ((c.r.setWidth 16 >>> 3) &&& 0x1F : Word16).toNat = c.r.toNat / 8 := by
    rw [BitVec.toNat_and, BitVec.toNat_ushiftRight, BitVec.toNat_setWidth]
    rw [show (0x1F : Word16).toNat = 2 ^ 5 - 1 from rfl, Nat.and_two_pow_sub_one_eq_mod, Nat.shiftRight_eq_div_pow]
    omega
  have e2 : ((c.g.setWidth 16 >>> 2) &&& 0x3F : Word16).toNat = c.g.toNat / 4 := by
    rw [BitVec.toNat_and, BitVec.toNat_ushiftRight, BitVec.toNat_setWidth]
    rw [show (0x3F : Word16).toNat = 2 ^ 6 - 1 from rfl, Nat.and_two_pow_sub_one_eq_mod, Nat.shiftRight_eq_div_pow]
    omega
  have e3 : ((c.b.setWidth 16 >>> 3) &&& 0x1F : Word16).toNat = c.b.toNat / 8 := by
    rw [BitVec.toNat_and, BitVec.toNat_ushiftRight, BitVec.toNat_setWidth]
    rw [show (0x1F : Word16).toNat = 2 ^ 5 - 1 from rfl, Nat.and_two_pow_sub_one_eq_mod, Nat.shiftRight_eq_div_pow]
    omega
  unfold pack
  rw [BitVec.toNat_or, BitVec.toNat_or, BitVec.toNat_shiftLeft, BitVec.toNat_shiftLeft, e1, e2, e3]
  have s1 : (c.r.toNat / 8) <<< 11 % 2 ^ 16 = (c.r.toNat / 8) <<< 11 := by
    rw [Nat.shiftLeft_eq]; omega
  have s2 : (c.g.toNat / 4) <<< 5 % 2 ^ 16 = (c.g.toNat / 4) <<< 5 := by
    rw [Nat.shiftLeft_eq]; omega
  rw [s1, s2, ← Nat.shiftLeft_add_eq_or_of_lt (i := 11) (by rw [Nat.shiftLeft_eq]; omega)]
  rw [show (c.r.toNat / 8) <<< 11 + (c.g.toNat / 4) <<< 5 = (c.r.toNat / 8 * 64 + c.g.toNat / 4) <<< 5 by
    simp only [Nat.shiftLeft_eq]; omega]
  rw [← Nat.shiftLeft_add_eq_or_of_lt (i := 5) (by omega), Nat.shiftLeft_eq]
  omega

/-- The channels of a word by its fields (40_color_codec.md R75). -/
theorem unpack_toNat (w : Word16) :
    (unpack w).r.toNat = w.toNat / 2048 * 8 ∧ (unpack w).g.toNat = w.toNat / 32 % 64 * 4 ∧
      (unpack w).b.toNat = w.toNat % 32 * 8 := by
  have hw := w.isLt
  refine ⟨?_, ?_, ?_⟩
  · have : (w &&& 0xF800) >>> 11 = w >>> 11 := by
      ext i hi; simp; intro h
      have : i = 0 ∨ i = 1 ∨ i = 2 ∨ i = 3 ∨ i = 4 ∨ 5 ≤ i := by omega
      rcases this with rfl | rfl | rfl | rfl | rfl | h5
      any_goals rfl
      rw [BitVec.getLsbD_of_ge _ _ (by omega)] at h
      exact absurd h (by simp)
    simp only [unpack, this]
    rw [BitVec.toNat_setWidth, BitVec.toNat_shiftLeft, BitVec.toNat_ushiftRight, Nat.shiftRight_eq_div_pow,
      Nat.shiftLeft_eq]
    omega
  · have : (w &&& 0x07E0) >>> 5 = (w >>> 5) &&& 0x3F := by
      ext i hi
      interval_cases i <;> simp
    simp only [unpack, this]
    rw [BitVec.toNat_setWidth, BitVec.toNat_shiftLeft, BitVec.toNat_and, BitVec.toNat_ushiftRight,
      show (0x3F : Word16).toNat = 2 ^ 6 - 1 from rfl, Nat.and_two_pow_sub_one_eq_mod, Nat.shiftRight_eq_div_pow,
      Nat.shiftLeft_eq]
    omega
  · simp only [unpack]
    rw [BitVec.toNat_setWidth, BitVec.toNat_shiftLeft, BitVec.toNat_and,
      show (0x001F : Word16).toNat = 2 ^ 5 - 1 from rfl, Nat.and_two_pow_sub_one_eq_mod, Nat.shiftLeft_eq]
    omega

/-- Word to RGB to word is exact (40_color_codec.md R77). -/
@[simp] theorem pack_unpack (w : Word16) : pack (unpack w) = w := by
  have hw := w.isLt
  obtain ⟨hr, hg, hb⟩ := unpack_toNat w
  refine BitVec.eq_of_toNat_eq ?_
  rw [pack_toNat, hr, hg, hb]
  omega

/-- RGB to word to RGB clears the low bits (40_color_codec.md R77). -/
theorem unpack_pack_toNat (c : RGB) :
    (unpack (pack c)).r.toNat = c.r.toNat / 8 * 8 ∧ (unpack (pack c)).g.toNat = c.g.toNat / 4 * 4 ∧
      (unpack (pack c)).b.toNat = c.b.toNat / 8 * 8 := by
  have hr := c.r.isLt; have hg := c.g.isLt; have hb := c.b.isLt
  obtain ⟨h1, h2, h3⟩ := unpack_toNat (pack c)
  rw [pack_toNat] at h1 h2 h3
  omega

/-- `pack` of black is the zero word, so a bad color is written as 0x0000 (42_pixel_buffer.md R91). -/
@[simp] theorem pack_black : pack BLACK = 0 := by decide

end Sys2Proof.Machine
end

