-- ==== Sys2Proof/Laws/Decode.lean ====
section
/-! SUPPORT. The decoder and the encoder: words, operand types, both directions (30_encoding.md R54 to R62, R72). -/

namespace Sys2Proof

/-! ### Words -/

theorem ofCode_eq_some {c : Byte} {op : Opcode} : Opcode.ofCode c = some op ↔ c = op.code := by
  constructor
  · revert c op; decide +kernel
  · rintro rfl; cases op <;> rfl

theorem decodeWord_encodeWord (op : Opcode) (r : Bool) (h : r = true → op.takesRedraw = true) :
    decodeWord (encodeWord op r) = .ok (op, r) := by
  cases r
  · cases op <;> rfl
  · cases op <;> first | rfl | exact absurd (h rfl) (by decide)

theorem encodeWord_fields (op : Opcode) (r : Bool) :
    (encodeWord op r).extractLsb' 9 23 = 0 ∧ (encodeWord op r).extractLsb' 0 8 = op.code ∧
      (encodeWord op r).getLsbD 8 = r := by
  cases op <;> cases r <;> decide

/-- A word is its three fields (30_encoding.md R55). -/
theorem word_ext {v w : Word32} (h1 : v.extractLsb' 9 23 = w.extractLsb' 9 23)
    (h2 : v.extractLsb' 0 8 = w.extractLsb' 0 8) (h3 : v.getLsbD 8 = w.getLsbD 8) : v = w := by
  refine BitVec.eq_of_getLsbD_eq fun i hi => ?_
  have a1 := congrArg (fun x => BitVec.getLsbD x (i - 9)) h1
  have a2 := congrArg (fun x => BitVec.getLsbD x i) h2
  simp only [BitVec.getLsbD_extractLsb'] at a1 a2
  by_cases c1 : i < 8
  · simpa [c1] using a2
  · by_cases c2 : i = 8
    · subst c2; exact h3
    · have e : 9 + (i - 9) = i := by omega
      have e' : i - 9 < 23 := by omega
      simpa [e, e'] using a1

/-- What a word that decodes is (30_encoding.md R62, R72). -/
theorem decodeWord_eq_ok {w : Word32} {op : Opcode} {r : Bool} :
    decodeWord w = .ok (op, r) ↔ w = encodeWord op r ∧ (r = true → op.takesRedraw = true) := by
  constructor
  · intro h
    unfold decodeWord at h
    split at h
    · cases h
    rename_i h0
    split at h
    · cases h
    rename_i op' hop
    split at h
    · cases h
    rename_i hr
    simp only [Except.ok.injEq, Prod.mk.injEq] at h
    obtain ⟨rfl, rfl⟩ := h
    obtain ⟨f1, f2, f3⟩ := encodeWord_fields op' (w.getLsbD 8)
    refine ⟨word_ext ?_ ?_ f3.symm, ?_⟩
    · rw [f1]; simpa using h0
    · rw [f2]; exact ofCode_eq_some.mp hop
    · intro hb
      simpa [hb] using hr
  · rintro ⟨rfl, h⟩; exact decodeWord_encodeWord op r h

/-! ### Operands -/

theorem Value.pixelsOf?_eq_some {n : Nat} {v : Value} {p : List RGB} :
    v.pixelsOf? n = some p ↔ v.pixels? = some p ∧ p.length = n := by
  unfold Value.pixelsOf?
  split
  · rename_i q hq
    constructor
    · intro h
      split at h
      · simp only [Option.some.injEq] at h; subst h; exact ⟨hq, by assumption⟩
      · cases h
    · rintro ⟨h, rfl⟩; simp_all
  · rename_i hq; simp_all

theorem Value.int?_eq_some {v : Value} {z : Int} : v.int? = some z ↔ v = .int z := by
  cases v <;> simp [Value.int?]

theorem Value.raw?_eq_some {v : Value} {c : RawColor} : v.raw? = some c ↔ v = .color c := by
  cases v <;> simp [Value.raw?]

theorem Value.rawGrid?_eq_some {v : Value} {g : RawGrid} : v.rawGrid? = some g ↔ v = .list g := by
  cases v <;> simp [Value.rawGrid?]

theorem Value.str?_eq_some {v : Value} {t : Str} : v.str? = some t ↔ v = .str t := by
  cases v <;> simp [Value.str?]

theorem Value.rgb?_eq_some {v : Value} {c : RGB} : v.rgb? = some c ↔ v = .color c.toRaw := by
  cases v <;> simp [Value.rgb?, toRGB?_eq_some]

theorem Value.pixels?_eq_some {v : Value} {p : List RGB} : v.pixels? = some p ↔ v = .list (p.map RGB.toRaw) := by
  cases v <;> simp [Value.pixels?, toRGBs?_eq_some]

theorem Value.word16?_eq_some {v : Value} {w : Word16} : v.word16? = some w ↔ v = .int w.toNat := by
  have := w.isLt
  cases v <;> simp only [Value.word16?, reduceCtorEq]
  rename_i z
  constructor
  · intro h
    split at h
    · simp only [Option.some.injEq] at h; subst h
      simp only [BitVec.toNat_ofNat, Value.int.injEq]; omega
    · cases h
  · intro h
    simp only [Value.int.injEq] at h
    subst h
    simp; omega

theorem Value.hold?_eq_some {v : Value} {n : Hold} : v.hold? = some n ↔ v = .int n := by
  cases v <;> simp only [Value.hold?, reduceCtorEq]
  rename_i z
  constructor
  · intro h
    split at h
    · simp only [Option.some.injEq] at h; subst h
      simp only [Value.int.injEq]; omega
    · cases h
  · intro h
    simp only [Value.int.injEq] at h
    subst h
    simp

/-- Each reader of a value takes exactly the values its writer makes. -/
theorem tuple0_eq_some {i j : Instr} {vs : List Value} : tuple0 i vs = some j ↔ vs = [] ∧ i = j := by
  cases vs <;> simp [tuple0]

theorem tuple1_eq_some {α : Type} {p : Value → Option α} {mk : α → Instr} {vs : List Value} {j : Instr} :
    tuple1 p mk vs = some j ↔ ∃ a x, vs = [a] ∧ p a = some x ∧ mk x = j := by
  unfold tuple1
  split
  · rename_i a
    constructor
    · intro h
      obtain ⟨x, hx, rfl⟩ := Option.map_eq_some_iff.mp h
      exact ⟨a, x, rfl, hx, rfl⟩
    · rintro ⟨a', x, h, hx, rfl⟩
      cases h; simp [hx]
  · rename_i hne
    constructor
    · intro h; cases h
    · rintro ⟨a, _, rfl, _⟩; exact absurd rfl (hne a)

theorem tuple2_eq_some {α β : Type} {p : Value → Option α} {q : Value → Option β} {mk : α → β → Instr}
    {vs : List Value} {j : Instr} :
    tuple2 p q mk vs = some j ↔
      ∃ a b x y, vs = [a, b] ∧ p a = some x ∧ q b = some y ∧ mk x y = j := by
  unfold tuple2
  split
  · rename_i a b
    simp only [Option.bind_eq_bind, Option.bind_eq_some_iff, Option.some.injEq]
    constructor
    · rintro ⟨x, hx, y, hy, rfl⟩; exact ⟨a, b, x, y, rfl, hx, hy, rfl⟩
    · rintro ⟨a', b', x, y, h, hx, hy, rfl⟩
      cases h; exact ⟨x, hx, y, hy, rfl⟩
  · rename_i hne
    constructor
    · intro h; cases h
    · rintro ⟨a, b, _, _, rfl, _⟩; exact absurd rfl (hne a b)

theorem tuple3_eq_some {α β γ : Type} {p : Value → Option α} {q : Value → Option β} {r : Value → Option γ}
    {mk : α → β → γ → Instr} {vs : List Value} {j : Instr} :
    tuple3 p q r mk vs = some j ↔
      ∃ a b c x y z, vs = [a, b, c] ∧ p a = some x ∧ q b = some y ∧ r c = some z ∧ mk x y z = j := by
  unfold tuple3
  split
  · rename_i a b c
    simp only [Option.bind_eq_bind, Option.bind_eq_some_iff, Option.some.injEq]
    constructor
    · rintro ⟨x, hx, y, hy, z, hz, rfl⟩; exact ⟨a, b, c, x, y, z, rfl, hx, hy, hz, rfl⟩
    · rintro ⟨a', b', c', x, y, z, h, hx, hy, hz, rfl⟩
      cases h; exact ⟨x, hx, y, hy, z, hz, rfl⟩
  · rename_i hne
    constructor
    · intro h; cases h
    · rintro ⟨a, b, c, _, _, _, rfl, _⟩; exact absurd rfl (hne a b c)

theorem tuple4_eq_some {α β γ δ : Type} {p : Value → Option α} {q : Value → Option β} {r : Value → Option γ}
    {t : Value → Option δ} {mk : α → β → γ → δ → Instr} {vs : List Value} {j : Instr} :
    tuple4 p q r t mk vs = some j ↔
      ∃ a b c d x y z u, vs = [a, b, c, d] ∧ p a = some x ∧ q b = some y ∧ r c = some z ∧ t d = some u ∧
        mk x y z u = j := by
  unfold tuple4
  split
  · rename_i a b c d
    simp only [Option.bind_eq_bind, Option.bind_eq_some_iff, Option.some.injEq]
    constructor
    · rintro ⟨x, hx, y, hy, z, hz, u, hu, rfl⟩; exact ⟨a, b, c, d, x, y, z, u, rfl, hx, hy, hz, hu, rfl⟩
    · rintro ⟨a', b', c', d', x, y, z, u, h, hx, hy, hz, hu, rfl⟩
      cases h; exact ⟨x, hx, y, hy, z, hz, u, hu, rfl⟩
  · rename_i hne
    constructor
    · intro h; cases h
    · rintro ⟨a, b, c, d, _, _, _, _, rfl, _⟩; exact absurd rfl (hne a b c d)

/-! ### Commands -/

theorem decode_eq_ok {c : Command} {i : Instr} :
    decode c = .ok i ↔ ∃ op r, decodeWord c.word = .ok (op, r) ∧ ofOperands op r c.operands = some i := by
  unfold decode
  split
  · rename_i e he
    constructor
    · intro h; cases h
    · rintro ⟨op, r, h, _⟩; rw [he] at h; cases h
  · rename_i op r hw
    split
    · rename_i j hj
      constructor
      · intro h; cases h; exact ⟨op, r, hw, hj⟩
      · rintro ⟨op', r', h, h'⟩
        rw [hw] at h
        simp only [Except.ok.injEq, Prod.mk.injEq] at h
        obtain ⟨rfl, rfl⟩ := h
        rw [hj] at h'
        simpa using h'
    · rename_i hj
      constructor
      · intro h; cases h
      · rintro ⟨op', r', h, h'⟩
        rw [hw] at h
        simp only [Except.ok.injEq, Prod.mk.injEq] at h
        obtain ⟨rfl, rfl⟩ := h
        rw [hj] at h'
        cases h'

theorem Instr.redraw_legal (i : Instr) : i.redraw = true → i.opcode.takesRedraw = true := by
  cases i <;> simp [Instr.redraw, Instr.opcode, Opcode.takesRedraw]

/-- The encoder's words decode as soon as its tuple does. -/
theorem decode_encode_of {i : Instr} (h : ofOperands i.opcode i.redraw i.operands = some i) :
    decode (encode i) = .ok i :=
  decode_eq_ok.mpr ⟨_, _, decodeWord_encodeWord _ _ i.redraw_legal, h⟩

/-- Reading a legal opcode's tuple gives a well-formed instruction of that opcode, whose tuple it is. -/
theorem ofOperands_eq_some {op : Opcode} {r : Bool} {vs : List Value} {i : Instr}
    (hr : r = true → op.takesRedraw = true) (h : ofOperands op r vs = some i) :
    i.wf = true ∧ i.opcode = op ∧ i.redraw = r ∧ i.operands = vs := by
  cases op <;> cases r <;>
    first
    | exact absurd (hr rfl) (by decide)
    | simp only [ofOperands, tuple0_eq_some, tuple1_eq_some, tuple2_eq_some, tuple3_eq_some, tuple4_eq_some,
        Value.int?_eq_some, Value.word16?_eq_some, Value.raw?_eq_some, Value.rgb?_eq_some, Value.rawGrid?_eq_some,
        Value.pixels?_eq_some, Value.pixelsOf?_eq_some, Value.str?_eq_some, Value.hold?_eq_some] at h
  all_goals
    first
    | (obtain ⟨rfl, rfl⟩ := h; exact ⟨rfl, rfl, rfl, rfl⟩)
    | (obtain ⟨_, _, rfl, rfl, rfl⟩ := h; exact ⟨rfl, rfl, rfl, rfl⟩)
    | (obtain ⟨_, _, rfl, ⟨rfl, hl⟩, rfl⟩ := h
       exact ⟨by simp [Instr.wf, hl], rfl, rfl, rfl⟩)
    | (obtain ⟨_, _, _, _, rfl, rfl, rfl, rfl⟩ := h; exact ⟨rfl, rfl, rfl, rfl⟩)
    | (obtain ⟨_, _, _, _, _, _, rfl, rfl, rfl, rfl, rfl⟩ := h; exact ⟨rfl, rfl, rfl, rfl⟩)
    | (obtain ⟨_, _, _, _, _, _, _, _, rfl, rfl, rfl, rfl, rfl, rfl⟩ := h; exact ⟨rfl, rfl, rfl, rfl⟩)

/-- The readers of the operand types take what the encoder writes. -/
theorem ofOperands_operands {i : Instr} (h : i.wf = true) :
    ofOperands i.opcode i.redraw i.operands = some i := by
  cases i <;>
    simp_all [ofOperands, Instr.opcode, Instr.redraw, Instr.operands, Instr.wf, tuple0_eq_some, tuple1_eq_some,
      tuple2_eq_some, tuple3_eq_some, tuple4_eq_some, Value.int?_eq_some, Value.word16?_eq_some, Value.raw?_eq_some,
      Value.rgb?_eq_some, Value.rawGrid?_eq_some, Value.pixels?_eq_some, Value.pixelsOf?_eq_some, Value.str?_eq_some,
      Value.hold?_eq_some]

theorem tuple0_admits (i : Instr) (vs : List Value) : (tuple0 i vs).isSome = admitsAll [] vs := by
  cases vs <;> rfl

theorem tuple1_admits {α : Type} {p : Value → Option α} {mk : α → Instr} {t : OperandType}
    (hp : ∀ v, (p v).isSome = t.admits v) (vs : List Value) : (tuple1 p mk vs).isSome = admitsAll [t] vs := by
  rcases vs with _ | ⟨a, _ | ⟨b, vs⟩⟩ <;> simp [tuple1, admitsAll, ← hp]

theorem tuple2_admits {α β : Type} {p : Value → Option α} {q : Value → Option β} {mk : α → β → Instr}
    {t u : OperandType} (hp : ∀ v, (p v).isSome = t.admits v) (hq : ∀ v, (q v).isSome = u.admits v)
    (vs : List Value) : (tuple2 p q mk vs).isSome = admitsAll [t, u] vs := by
  rcases vs with _ | ⟨a, _ | ⟨b, _ | ⟨c, vs⟩⟩⟩ <;> simp [tuple2, admitsAll, ← hp, ← hq]
  cases p a <;> cases q b <;> rfl

theorem tuple3_admits {α β γ : Type} {p : Value → Option α} {q : Value → Option β} {r : Value → Option γ}
    {mk : α → β → γ → Instr} {t u v : OperandType} (hp : ∀ x, (p x).isSome = t.admits x)
    (hq : ∀ x, (q x).isSome = u.admits x) (hr : ∀ x, (r x).isSome = v.admits x) (vs : List Value) :
    (tuple3 p q r mk vs).isSome = admitsAll [t, u, v] vs := by
  rcases vs with _ | ⟨a, _ | ⟨b, _ | ⟨c, _ | ⟨d, vs⟩⟩⟩⟩ <;> simp [tuple3, admitsAll, ← hp, ← hq, ← hr]
  cases p a <;> cases q b <;> cases r c <;> rfl

theorem tuple4_admits {α β γ δ : Type} {p : Value → Option α} {q : Value → Option β} {r : Value → Option γ}
    {m : Value → Option δ} {mk : α → β → γ → δ → Instr} {t u v w : OperandType}
    (hp : ∀ x, (p x).isSome = t.admits x) (hq : ∀ x, (q x).isSome = u.admits x)
    (hr : ∀ x, (r x).isSome = v.admits x) (hm : ∀ x, (m x).isSome = w.admits x) (vs : List Value) :
    (tuple4 p q r m mk vs).isSome = admitsAll [t, u, v, w] vs := by
  rcases vs with _ | ⟨a, _ | ⟨b, _ | ⟨c, _ | ⟨d, _ | ⟨e, vs⟩⟩⟩⟩⟩ <;>
    simp [tuple4, admitsAll, ← hp, ← hq, ← hr, ← hm]
  cases p a <;> cases q b <;> cases r c <;> cases m d <;> rfl

/-- A tuple is read exactly when it has the opcode's types (30_encoding.md R61). -/
theorem ofOperands_isSome (op : Opcode) (r : Bool) (vs : List Value) :
    (ofOperands op r vs).isSome = admitsAll op.signature vs := by
  cases op <;> cases r <;>
    first
    | exact tuple0_admits _ vs
    | exact tuple1_admits (fun _ => rfl) vs
    | exact tuple2_admits (fun _ => rfl) (fun _ => rfl) vs
    | exact tuple3_admits (fun _ => rfl) (fun _ => rfl) (fun _ => rfl) vs
    | exact tuple4_admits (fun _ => rfl) (fun _ => rfl) (fun _ => rfl) (fun _ => rfl) vs

end Sys2Proof
end

