-- ==== Sys2Proof/Laws/Asm.lean ====
section
/-! SUPPORT. What the assembler's functions on mnemonics and token lists answer (30_encoding.md R70, R72). -/

namespace Sys2Proof.Asm

/-- The word of a mnemonic with its suffix. -/
def spelled (m : String) (r : Bool) : Str := m.toList ++ bif r then ['.', 'R'] else []

theorem opcodeOf_mem {w : Str} {op : Opcode} : ∀ {l : List (String × Opcode)}, opcodeOf w l = some op →
    ∃ m, (m, op) ∈ l ∧ m.toList = w
  | [], h => nomatch h
  | (m, o) :: l, h => by
    unfold opcodeOf at h
    split at h
    · next hm => cases h; exact ⟨m, by simp, hm⟩
    · obtain ⟨m', hl, hw⟩ := opcodeOf_mem h
      exact ⟨m', by simp [hl], hw⟩

/-- `mnemonic` takes exactly the spellings of the table, `.R` only where redraw is taken. -/
theorem mnemonic_eq_some {w : Str} {op : Opcode} {r : Bool} :
    mnemonic w = some (op, r) ↔
      ∃ m, (m, op) ∈ mnemonics ∧ (r = true → op.takesRedraw = true) ∧ w = spelled m r := by
  constructor
  · intro h
    unfold mnemonic at h
    split at h
    · next o ho =>
      cases h
      obtain ⟨m, hm, hw⟩ := opcodeOf_mem ho
      exact ⟨m, hm, nofun, by simp [spelled, hw]⟩
    · split at h
      · next back hb =>
        simp only [Option.bind_eq_bind, Option.bind_eq_some_iff] at h
        obtain ⟨o, ho, h⟩ := h
        split at h
        · next hr =>
          cases h
          obtain ⟨m, hm, hw⟩ := opcodeOf_mem ho
          refine ⟨m, hm, fun _ => hr, ?_⟩
          rw [← List.reverse_reverse w, hb, spelled, hw]
          simp
        · cases h
      · cases h
  · rintro ⟨m, hm, hr, rfl⟩
    have table : ∀ e ∈ mnemonics, ∀ r : Bool, (r = true → e.2.takesRedraw = true) →
        mnemonic (spelled e.1 r) = some (e.2, r) := by decide +kernel
    exact table (m, op) hm r hr

/-- `command` on a word and its tokens. -/
theorem command_word {w : Str} {ts : List Token} {c : Command} :
    command (.word w :: ts) = some c ↔
      ∃ op r vs, mnemonic w = some (op, r) ∧ operands ts.length ts = some vs ∧
        c = ⟨encodeWord op r, withDefaults op vs⟩ := by
  simp only [command, Option.bind_eq_bind, Option.bind_eq_some_iff, Prod.exists, Option.some.injEq]
  constructor
  · rintro ⟨op, r, hm, vs, hv, rfl⟩
    exact ⟨op, r, vs, hm, hv, rfl⟩
  · rintro ⟨op, r, vs, hm, hv, rfl⟩
    exact ⟨op, r, hm, vs, hv, rfl⟩

theorem command_eq_some {ts : List Token} {c : Command} (h : command ts = some c) : ∃ w us, ts = .word w :: us := by
  unfold command at h
  split at h
  · exact ⟨_, _, rfl⟩
  · cases h

/-- No operand starts with a colon, so a mnemonic is never read as a label. -/
theorem operands_colon (n : Nat) (ts : List Token) : operands n (.sym ':' :: ts) = none := by
  cases n <;> simp [operands, operand, openBrace, int]

/-- `withDefaults` adds the step 8 to a SCROLL line with one operand, and nothing elsewhere. -/
theorem withDefaults_scroll (v : Value) : withDefaults .scroll [v] = [v, .int 8] := rfl

theorem withDefaults_of_ne {op : Opcode} {vs : List Value} (h : op = .scroll → ∀ v, vs ≠ [v]) :
    withDefaults op vs = vs := by
  unfold withDefaults
  split
  · next v => exact absurd rfl (h rfl v)
  · rfl

/-- `assemble`: a label and its colon, if there are any, and then a command. -/
theorem assemble_eq_some {line : Str} {c : Command} :
    assemble line = some c ↔
      ∃ w ts, (lex .idle line = some (.word w :: ts) ∨
          ∃ label, lex .idle line = some (.word label :: .sym ':' :: .word w :: ts)) ∧
        command (.word w :: ts) = some c := by
  unfold assemble
  simp only [Option.bind_eq_bind, Option.bind_eq_some_iff]
  constructor
  · rintro ⟨ts, hl, h⟩
    split at h
    · next label us =>
      obtain ⟨w, vs, rfl⟩ := command_eq_some h
      exact ⟨w, vs, .inr ⟨label, hl⟩, h⟩
    · obtain ⟨w, vs, rfl⟩ := command_eq_some h
      exact ⟨w, vs, .inl hl, h⟩
  · rintro ⟨w, ts, hl | ⟨label, hl⟩, h⟩
    · refine ⟨_, hl, ?_⟩
      split
      · next heq =>
        cases heq
        obtain ⟨_, _, vs, _, hv, _⟩ := command_word.1 h
        rw [operands_colon] at hv
        cases hv
      · exact h
    · exact ⟨_, hl, h⟩

end Sys2Proof.Asm
end

