-- ==== Sys2Proof/Laws/State.lean ====
section
/-! SUPPORT. One lemma per field per update of the state, so that no later proof unfolds an update. -/

namespace Sys2Proof.Machine

@[simp] theorem note_rot (c : Notice) (s : State) : (note c s).rot = s.rot := rfl
@[simp] theorem note_diag (c : Notice) (s : State) : (note c s).diag = s.diag ||| c.bit := rfl
@[simp] theorem note_life (c : Notice) (s : State) : (note c s).life = s.life := rfl
@[simp] theorem note_ft (c : Notice) (s : State) : (note c s).ft = s.ft := rfl
@[simp] theorem note_saved (c : Notice) (s : State) : (note c s).saved = s.saved := rfl
@[simp] theorem note_frameIdx (c : Notice) (s : State) : (note c s).frameIdx = s.frameIdx := rfl
@[simp] theorem note_fb (c : Notice) (s : State) : (note c s).fb = s.fb := rfl
@[simp] theorem note_trace (c : Notice) (s : State) : (note c s).trace = s.trace := rfl
@[simp] theorem note_inbox (c : Notice) (s : State) : (note c s).inbox = s.inbox := rfl
@[simp] theorem note_io (c : Notice) (s : State) : (note c s).io = s.io := rfl
@[simp] theorem note_draws (c : Notice) (s : State) : (note c s).draws = s.draws := rfl

@[simp] theorem emit_rot (e : Event) (s : State) : (emit e s).rot = s.rot := rfl
@[simp] theorem emit_diag (e : Event) (s : State) : (emit e s).diag = s.diag := rfl
@[simp] theorem emit_life (e : Event) (s : State) : (emit e s).life = s.life := rfl
@[simp] theorem emit_ft (e : Event) (s : State) : (emit e s).ft = s.ft := rfl
@[simp] theorem emit_saved (e : Event) (s : State) : (emit e s).saved = s.saved := rfl
@[simp] theorem emit_frameIdx (e : Event) (s : State) : (emit e s).frameIdx = s.frameIdx := rfl
@[simp] theorem emit_fb (e : Event) (s : State) : (emit e s).fb = s.fb := rfl
@[simp] theorem emit_trace (e : Event) (s : State) : (emit e s).trace = s.trace ++ [e] := rfl
@[simp] theorem emit_inbox (e : Event) (s : State) : (emit e s).inbox = s.inbox := rfl
@[simp] theorem emit_io (e : Event) (s : State) : (emit e s).io = s.io := rfl
@[simp] theorem emit_draws (e : Event) (s : State) : (emit e s).draws = s.draws := rfl

@[simp] theorem respond_rot (st : Status) (r : Result) (s : State) : (respond st r s).rot = s.rot := rfl
@[simp] theorem respond_diag (st : Status) (r : Result) (s : State) : (respond st r s).diag = s.diag := rfl
@[simp] theorem respond_life (st : Status) (r : Result) (s : State) : (respond st r s).life = s.life := rfl
@[simp] theorem respond_ft (st : Status) (r : Result) (s : State) : (respond st r s).ft = s.ft := rfl
@[simp] theorem respond_saved (st : Status) (r : Result) (s : State) : (respond st r s).saved = s.saved := rfl
@[simp] theorem respond_frameIdx (st : Status) (r : Result) (s : State) : (respond st r s).frameIdx = s.frameIdx := rfl
@[simp] theorem respond_fb (st : Status) (r : Result) (s : State) : (respond st r s).fb = s.fb := rfl
@[simp] theorem respond_trace (st : Status) (r : Result) (s : State) : (respond st r s).trace = s.trace ++ [.resp st r] := rfl
@[simp] theorem respond_inbox (st : Status) (r : Result) (s : State) : (respond st r s).inbox = s.inbox := rfl
@[simp] theorem respond_io (st : Status) (r : Result) (s : State) : (respond st r s).io = s.io := rfl
@[simp] theorem respond_draws (st : Status) (r : Result) (s : State) : (respond st r s).draws = s.draws := rfl

@[simp] theorem refuse_rot (s : State) : (refuse s).rot = s.rot := rfl
@[simp] theorem refuse_diag (s : State) : (refuse s).diag = s.diag := rfl
@[simp] theorem refuse_life (s : State) : (refuse s).life = s.life := rfl
@[simp] theorem refuse_ft (s : State) : (refuse s).ft = s.ft := rfl
@[simp] theorem refuse_saved (s : State) : (refuse s).saved = s.saved := rfl
@[simp] theorem refuse_frameIdx (s : State) : (refuse s).frameIdx = s.frameIdx := rfl
@[simp] theorem refuse_fb (s : State) : (refuse s).fb = s.fb := rfl
@[simp] theorem refuse_trace (s : State) : (refuse s).trace = s.trace ++ [.resp .refused .none] := rfl
@[simp] theorem refuse_inbox (s : State) : (refuse s).inbox = s.inbox := rfl
@[simp] theorem refuse_io (s : State) : (refuse s).io = s.io := rfl
@[simp] theorem refuse_draws (s : State) : (refuse s).draws = s.draws := rfl

@[simp] theorem countFrame_rot (s : State) : (countFrame s).rot = s.rot := rfl
@[simp] theorem countFrame_diag (s : State) : (countFrame s).diag = s.diag := rfl
@[simp] theorem countFrame_life (s : State) : (countFrame s).life = s.life := rfl
@[simp] theorem countFrame_ft (s : State) : (countFrame s).ft = s.ft := rfl
@[simp] theorem countFrame_saved (s : State) : (countFrame s).saved = s.saved := rfl
@[simp] theorem countFrame_frameIdx (s : State) : (countFrame s).frameIdx = s.frameIdx.map (· + 1) := rfl
@[simp] theorem countFrame_fb (s : State) : (countFrame s).fb = s.fb := rfl
@[simp] theorem countFrame_trace (s : State) : (countFrame s).trace = s.trace := rfl
@[simp] theorem countFrame_inbox (s : State) : (countFrame s).inbox = s.inbox := rfl
@[simp] theorem countFrame_io (s : State) : (countFrame s).io = s.io := rfl
@[simp] theorem countFrame_draws (s : State) : (countFrame s).draws = s.draws := rfl

@[simp] theorem noteIf_true (c : Notice) (s : State) : noteIf true c s = note c s := rfl
@[simp] theorem noteIf_false (c : Notice) (s : State) : noteIf false c s = s := rfl
@[simp] theorem noteIf_rot (b : Bool) (c : Notice) (s : State) : (noteIf b c s).rot = s.rot := by cases b <;> rfl
@[simp] theorem noteIf_life (b : Bool) (c : Notice) (s : State) : (noteIf b c s).life = s.life := by cases b <;> rfl
@[simp] theorem noteIf_ft (b : Bool) (c : Notice) (s : State) : (noteIf b c s).ft = s.ft := by cases b <;> rfl
@[simp] theorem noteIf_saved (b : Bool) (c : Notice) (s : State) : (noteIf b c s).saved = s.saved := by cases b <;> rfl
@[simp] theorem noteIf_frameIdx (b : Bool) (c : Notice) (s : State) : (noteIf b c s).frameIdx = s.frameIdx := by cases b <;> rfl
@[simp] theorem noteIf_fb (b : Bool) (c : Notice) (s : State) : (noteIf b c s).fb = s.fb := by cases b <;> rfl
@[simp] theorem noteIf_trace (b : Bool) (c : Notice) (s : State) : (noteIf b c s).trace = s.trace := by cases b <;> rfl
@[simp] theorem noteIf_inbox (b : Bool) (c : Notice) (s : State) : (noteIf b c s).inbox = s.inbox := by cases b <;> rfl
@[simp] theorem noteIf_io (b : Bool) (c : Notice) (s : State) : (noteIf b c s).io = s.io := by cases b <;> rfl
@[simp] theorem noteIf_draws (b : Bool) (c : Notice) (s : State) : (noteIf b c s).draws = s.draws := by cases b <;> rfl
@[simp] theorem noteIf_diag (b : Bool) (c : Notice) (s : State) :
    (noteIf b c s).diag = bif b then s.diag ||| c.bit else s.diag := by cases b <;> rfl

@[simp] theorem respondIo_ok (r : Result) (s : State) : respondIo .ok r s = respond .ok r s := rfl
@[simp] theorem respondIo_fail (r : Result) (s : State) : respondIo .fail r s = respond .ioerr .none s := rfl
@[simp] theorem respondIo_rot (a : IoAnswer) (r : Result) (s : State) : (respondIo a r s).rot = s.rot := by cases a <;> rfl
@[simp] theorem respondIo_diag (a : IoAnswer) (r : Result) (s : State) : (respondIo a r s).diag = s.diag := by cases a <;> rfl
@[simp] theorem respondIo_life (a : IoAnswer) (r : Result) (s : State) : (respondIo a r s).life = s.life := by cases a <;> rfl
@[simp] theorem respondIo_ft (a : IoAnswer) (r : Result) (s : State) : (respondIo a r s).ft = s.ft := by cases a <;> rfl
@[simp] theorem respondIo_saved (a : IoAnswer) (r : Result) (s : State) : (respondIo a r s).saved = s.saved := by cases a <;> rfl
@[simp] theorem respondIo_frameIdx (a : IoAnswer) (r : Result) (s : State) : (respondIo a r s).frameIdx = s.frameIdx := by cases a <;> rfl
@[simp] theorem respondIo_fb (a : IoAnswer) (r : Result) (s : State) : (respondIo a r s).fb = s.fb := by cases a <;> rfl
@[simp] theorem respondIo_inbox (a : IoAnswer) (r : Result) (s : State) : (respondIo a r s).inbox = s.inbox := by cases a <;> rfl
@[simp] theorem respondIo_io (a : IoAnswer) (r : Result) (s : State) : (respondIo a r s).io = s.io := by cases a <;> rfl
@[simp] theorem respondIo_draws (a : IoAnswer) (r : Result) (s : State) : (respondIo a r s).draws = s.draws := by cases a <;> rfl

/-! ### The fields after reset (70_reset_and_hazards.md R141) -/

@[simp] theorem launch_rot (m : Memory) (i : List Input) (a : List IoAnswer) : (State.launch m i a).rot = 0 := rfl
@[simp] theorem launch_diag (m : Memory) (i : List Input) (a : List IoAnswer) : (State.launch m i a).diag = 0 := rfl
@[simp] theorem launch_life (m : Memory) (i : List Input) (a : List IoAnswer) : (State.launch m i a).life = .init := rfl
@[simp] theorem launch_ft (m : Memory) (i : List Input) (a : List IoAnswer) : (State.launch m i a).ft = [] := rfl
@[simp] theorem launch_saved (m : Memory) (i : List Input) (a : List IoAnswer) : (State.launch m i a).saved = 0 := rfl
@[simp] theorem launch_frameIdx (m : Memory) (i : List Input) (a : List IoAnswer) : (State.launch m i a).frameIdx = none := rfl
@[simp] theorem launch_fb (m : Memory) (i : List Input) (a : List IoAnswer) : (State.launch m i a).fb = m := rfl
@[simp] theorem launch_trace (m : Memory) (i : List Input) (a : List IoAnswer) : (State.launch m i a).trace = [] := rfl
@[simp] theorem launch_inbox (m : Memory) (i : List Input) (a : List IoAnswer) : (State.launch m i a).inbox = i := rfl
@[simp] theorem launch_io (m : Memory) (i : List Input) (a : List IoAnswer) : (State.launch m i a).io = a := rfl
@[simp] theorem launch_draws (m : Memory) (i : List Input) (a : List IoAnswer) : (State.launch m i a).draws = 0 := rfl

/-! ### A body that is served (60_exceptions.md R134) -/

theorem served_ready (body : State → State) (s : State) (h : s.life = .ready) :
    served true body s = .next (body s) := by simp [served, h]

theorem served_illTyped (body : State → State) (s : State) : served false body s = .next (refuse s) := by
  cases h : s.life <;> simp [served, refuse]

theorem served_notReady (body : State → State) (s : State) (h : s.life ≠ .ready) :
    served true body s = .next (respond .notReady .none s) := by
  cases h' : s.life <;> simp_all [served]

/-- Everything `served` can answer. -/
theorem served_cases (typed : Bool) (body : State → State) (s : State) :
    (typed = false ∧ served typed body s = .next (respond .refused .none s)) ∨
      (typed = true ∧ s.life ≠ .ready ∧ served typed body s = .next (respond .notReady .none s)) ∨
      (typed = true ∧ s.life = .ready ∧ served typed body s = .next (body s)) := by
  cases typed
  · exact .inl ⟨rfl, served_illTyped body s⟩
  · by_cases h : s.life = .ready
    · exact .inr (.inr ⟨rfl, h, served_ready body s h⟩)
    · exact .inr (.inl ⟨rfl, h, served_notReady body s h⟩)

end Sys2Proof.Machine
end

