-- ==== Sys2Proof/Laws/Memory.lean ====
section
/-! SUPPORT. The laws of the physical buffer: read after write, the canonical form, several bytes at once, words
(20_memory.md R36, R40). -/

namespace Sys2Proof.Machine

theorem Memory.wfFrom_mono {lo lo' : Nat} (m : Memory) (h : lo' ≤ lo) (hw : Memory.wfFrom lo m = true) :
    Memory.wfFrom lo' m = true := by
  cases m with
  | nil => rfl
  | cons e m =>
    obtain ⟨k, v⟩ := e
    simp only [Memory.wfFrom, Bool.and_eq_true, decide_eq_true_eq] at hw ⊢
    exact ⟨⟨⟨by omega, hw.1.1.2⟩, hw.1.2⟩, hw.2⟩

/-- Below the first offset nothing is listed. -/
theorem Memory.read_below {lo a : Nat} (m : Memory) (hw : Memory.wfFrom lo m = true) (h : a < lo) :
    m.read a = Memory.unlisted := by
  induction m generalizing lo with
  | nil => rfl
  | cons e m ih =>
    obtain ⟨k, v⟩ := e
    simp only [Memory.wfFrom, Bool.and_eq_true, decide_eq_true_eq] at hw
    have : k ≠ a := by omega
    simp only [Memory.read, this, ↓reduceIte]
    exact ih hw.2 (by omega)

/-- A write leaves every other offset alone, in any list. -/
theorem Memory.read_write_other (m : Memory) {a a' : Nat} (v : Byte) (h : a' ≠ a) :
    (m.write a v).read a' = m.read a' := by
  induction m with
  | nil => simp only [Memory.write]; split <;> simp [Memory.read, Ne.symm h]
  | cons e m ih =>
    obtain ⟨k, w⟩ := e
    simp only [Memory.write]
    split
    · split <;> simp [Memory.read, Ne.symm h]
    · split
      · subst_vars; split <;> simp [Memory.read, Ne.symm h]
      · simp [Memory.read, ih]

/-- A read after a write to the same offset gives the value written. -/
theorem Memory.read_write_same {lo : Nat} (m : Memory) (hw : Memory.wfFrom lo m = true) (a : Nat) (v : Byte) :
    (m.write a v).read a = v := by
  induction m generalizing lo with
  | nil => simp only [Memory.write]; split <;> simp_all [Memory.read]
  | cons e m ih =>
    obtain ⟨k, w⟩ := e
    simp only [Memory.wfFrom, Bool.and_eq_true, decide_eq_true_eq] at hw
    simp only [Memory.write]
    split
    · split
      · have : k ≠ a := by omega
        simp only [Memory.read, this, ↓reduceIte]
        rw [Memory.read_below m hw.2 (by omega)]; simp_all
      · simp [Memory.read]
    · split
      · subst_vars
        split
        · rw [Memory.read_below m hw.2 (by omega)]; simp_all
        · simp [Memory.read]
      · have : k ≠ a := by omega
        simp only [Memory.read, this, ↓reduceIte]
        exact ih hw.2

theorem Memory.write_wfFrom {lo a : Nat} (m : Memory) (hw : Memory.wfFrom lo m = true) (hl : lo ≤ a)
    (ha : a < Config.fbBytes) (v : Byte) : Memory.wfFrom lo (m.write a v) = true := by
  induction m generalizing lo with
  | nil => simp only [Memory.write]; split <;> simp_all [Memory.wfFrom]
  | cons e m ih =>
    obtain ⟨k, w⟩ := e
    have hc := hw
    simp only [Memory.wfFrom, Bool.and_eq_true, decide_eq_true_eq] at hw
    simp only [Memory.write]
    split
    · split
      · exact hc
      · simp only [Memory.wfFrom, Bool.and_eq_true, decide_eq_true_eq]
        simp_all
    · split
      · subst_vars
        split
        · exact Memory.wfFrom_mono m (by omega) hw.2
        · simp_all [Memory.wfFrom]
      · simp only [Memory.wfFrom, Bool.and_eq_true, decide_eq_true_eq]
        exact ⟨hw.1, ih hw.2 (by omega)⟩

/-- A write within the 128 offsets keeps the canonical form. -/
theorem Memory.write_wf {a : Nat} (m : Memory) (hw : m.wf = true) (ha : a < Config.fbBytes) (v : Byte) :
    (m.write a v).wf = true := Memory.write_wfFrom m hw (Nat.zero_le _) ha v

theorem Memory.writeBytes_wf (bs : List Byte) (m : Memory) (off : Nat) (hw : m.wf = true)
    (h : off + bs.length ≤ Config.fbBytes) : (m.writeBytes off bs).wf = true := by
  induction bs generalizing off with
  | nil => exact hw
  | cons b bs ih =>
    simp only [List.length_cons] at h
    exact Memory.write_wf _ (ih (off + 1) (by omega)) (by omega) b

/-- The offsets before and after the bytes written are left alone, in any list. -/
theorem Memory.read_writeBytes_outside (bs : List Byte) (m : Memory) (off a : Nat)
    (h : a < off ∨ off + bs.length ≤ a) : (m.writeBytes off bs).read a = m.read a := by
  induction bs generalizing off with
  | nil => rfl
  | cons b bs ih =>
    simp only [List.length_cons] at h
    rw [Memory.writeBytes, Memory.read_write_other _ _ (by omega), ih _ (by omega)]

/-- The offsets written hold the bytes. -/
theorem Memory.read_writeBytes_inside (bs : List Byte) (m : Memory) (off j : Nat) (hw : m.wf = true)
    (hb : off + bs.length ≤ Config.fbBytes) (h : j < bs.length) :
    (m.writeBytes off bs).read (off + j) = bs[j] := by
  induction bs generalizing off j with
  | nil => simp at h
  | cons b bs ih =>
    simp only [List.length_cons] at h hb
    rw [Memory.writeBytes]
    cases j with
    | zero =>
      exact Memory.read_write_same _ (Memory.writeBytes_wf bs m (off + 1) hw (by omega)) _ b
    | succ j =>
      rw [Memory.read_write_other _ _ (by omega)]
      have := ih (off + 1) j (by omega) (by omega)
      rw [show off + (j + 1) = off + 1 + j by omega, this]; rfl

@[simp] theorem Memory.readBytes_length (m : Memory) (off n : Nat) : (m.readBytes off n).length = n := by
  simp [Memory.readBytes]

@[simp] theorem Memory.readBytes_getElem (m : Memory) (off n j : Nat) (h : j < (m.readBytes off n).length) :
    (m.readBytes off n)[j] = m.read (off + j) := by
  simp [Memory.readBytes]

theorem Memory.readBytes_getD (m : Memory) (off n j : Nat) (d : Byte) (h : j < n) :
    (m.readBytes off n).getD j d = m.read (off + j) := by
  rw [List.getD_eq_getElem _ _ (by simpa using h)]; simp

/-- Two memories in canonical form that read alike are equal. -/
theorem Memory.ext_of_wf {lo : Nat} (m m' : Memory) (hw : Memory.wfFrom lo m = true)
    (hw' : Memory.wfFrom lo m' = true) (h : ∀ a, m.read a = m'.read a) : m = m' := by
  induction m generalizing lo m' with
  | nil =>
    cases m' with
    | nil => rfl
    | cons e m' =>
      obtain ⟨k, v⟩ := e
      have := h k
      simp_all [Memory.wfFrom, Memory.read]
  | cons e m ih =>
    obtain ⟨k, v⟩ := e
    have hc := hw
    simp only [Memory.wfFrom, Bool.and_eq_true, decide_eq_true_eq, Bool.not_eq_true',
      decide_eq_false_iff_not] at hw
    cases m' with
    | nil =>
      have := h k
      simp_all [Memory.read]
    | cons e' m' =>
      obtain ⟨k', v'⟩ := e'
      have hc' := hw'
      simp only [Memory.wfFrom, Bool.and_eq_true, decide_eq_true_eq, Bool.not_eq_true',
        decide_eq_false_iff_not] at hw'
      have hk : k = k' := by
        rcases Nat.lt_trichotomy k k' with hlt | heq | hgt
        · exfalso
          have hr := h k
          rw [Memory.read_below (lo := k') ((k', v') :: m')
            (by simp [Memory.wfFrom, hw']) hlt] at hr
          simp [Memory.read] at hr; exact hw.1.2 hr
        · exact heq
        · exfalso
          have hr := h k'
          rw [Memory.read_below (lo := k) ((k, v) :: m) (by simp [Memory.wfFrom, hw]) hgt] at hr
          simp [Memory.read] at hr; exact hw'.1.2 hr.symm
      subst hk
      have hv : v = v' := by simpa [Memory.read] using h k
      subst hv
      have : m = m' := by
        refine ih m' hw.2 hw'.2 fun a => ?_
        by_cases ha : k = a
        · subst ha
          rw [Memory.read_below m hw.2 (by omega), Memory.read_below m' hw'.2 (by omega)]
        · simpa [Memory.read, ha] using h a
      rw [this]

end Sys2Proof.Machine
end

