-- ==== Sys2Proof/Laws/PixelBuffer.lean ====
section
/-! SUPPORT. The laws of the slot mapping and of the pixel-buffer codec (41_rotation.md R86, 42_pixel_buffer.md R95). -/

namespace Sys2Proof.Machine

/-! ### Slots -/

/-- The element of logical coordinates (30_encoding.md R65). -/
def elementOf (x y : Coord) : Fin 64 := ⟨8 * y.val + x.val, by omega⟩

theorem slotForIndex_elementOf (q : RotCode) (x y : Coord) : slotForIndex q (elementOf x y) = slotFor q x y := by
  unfold slotForIndex elementOf
  congr 1 <;> (apply Fin.ext; simp only; omega)

/-- The table of inverses (41_rotation.md R86). -/
theorem slotFor_logical (q : RotCode) (s : Slot) : slotFor q (logicalX q s) (logicalY q s) = s := by
  revert q s; decide +kernel

theorem logical_slotFor (q : RotCode) (x y : Coord) :
    logicalX q (slotFor q x y) = x ∧ logicalY q (slotFor q x y) = y := by
  revert q x y; decide +kernel

theorem slotForIndex_inj {q : RotCode} {i j : Fin 64} (h : slotForIndex q i = slotForIndex q j) : i = j := by
  obtain ⟨a, b⟩ := logical_slotFor q ⟨i.val % 8, by omega⟩ ⟨i.val / 8, by omega⟩
  obtain ⟨c, d⟩ := logical_slotFor q ⟨j.val % 8, by omega⟩ ⟨j.val / 8, by omega⟩
  unfold slotForIndex at h
  rw [h] at a b
  have hx := congrArg Fin.val (a.symm.trans c)
  have hy := congrArg Fin.val (b.symm.trans d)
  simp only at hx hy
  apply Fin.ext; omega

theorem slotForIndex_surj (q : RotCode) (s : Slot) : ∃ i, slotForIndex q i = s :=
  ⟨elementOf (logicalX q s) (logicalY q s), by rw [slotForIndex_elementOf, slotFor_logical]⟩

/-- The override code of the text renderer composes with the quarter turn (44_text_renderer.md R117 item 4): frame element
`8r + c` lands on the slot that shows caller-logical `(r, 7 - c)`. -/
theorem slotForIndex_override (q : RotCode) (r c : Coord) :
    slotForIndex (q + Config.textRotOffset) (elementOf c r) = slotFor q r ⟨7 - c.val, by omega⟩ := by
  revert q r c; decide +kernel

/-! ### Words in byte lists -/

theorem bytes_word (w : Word16) :
    (w.setWidth 8).setWidth 16 ||| (((w >>> 8).setWidth 8).setWidth 16 <<< 8 : Word16) = w := by
  ext i hi
  interval_cases i <;> simp

theorem putWord_length (out : List Byte) (s : Slot) (w : Word16) : (putWord out s w).length = out.length := by
  simp [putWord]

theorem wordAt_putWord_same {out : List Byte} (h : out.length = 128) (s : Slot) (w : Word16) :
    wordAt (putWord out s w) (2 * s.val) = w := by
  have hs := s.isLt
  unfold wordAt putWord
  rw [List.getD_eq_getElem _ _ (by simp; omega), List.getD_eq_getElem _ _ (by simp; omega)]
  simp only [List.getElem_set, Nat.add_eq_left, one_ne_zero, ↓reduceIte]
  exact bytes_word w

theorem wordAt_putWord_other {out : List Byte} {s t : Slot} (w : Word16) (hne : t ≠ s) :
    wordAt (putWord out s w) (2 * t.val) = wordAt out (2 * t.val) := by
  have hne' : t.val ≠ s.val := fun h => hne (Fin.ext h)
  have e1 : ∀ k, k ≠ 2 * s.val → k ≠ 2 * s.val + 1 → (putWord out s w).getD k 0 = out.getD k 0 := by
    intro k h1 h2
    simp only [putWord, List.getD_eq_getElem?_getD, List.getElem?_set]
    rw [if_neg (Ne.symm h2), if_neg (Ne.symm h1)]
  unfold wordAt
  rw [e1 _ (by omega) (by omega), e1 _ (by omega) (by omega)]

theorem encodeFold_length (g : List RGB) (q : RotCode) (l : List (Fin 64)) (out : List Byte) :
    (l.foldl (fun out i => putWord out (slotForIndex q i) (pack (g.getD i.val BLACK))) out).length = out.length := by
  induction l generalizing out with
  | nil => rfl
  | cons i l ih => rw [List.foldl_cons, ih, putWord_length]

theorem encodeFold_word (g : List RGB) (q : RotCode) (l : List (Fin 64)) (out : List Byte) (h : out.length = 128)
    (j : Fin 64) :
    wordAt (l.foldl (fun out i => putWord out (slotForIndex q i) (pack (g.getD i.val BLACK))) out)
        (2 * (slotForIndex q j).val) =
      if j ∈ l then pack (g.getD j.val BLACK) else wordAt out (2 * (slotForIndex q j).val) := by
  induction l generalizing out with
  | nil => simp
  | cons i l ih =>
    rw [List.foldl_cons, ih _ (by rw [putWord_length, h])]
    by_cases hj : j ∈ l
    · simp [hj]
    · by_cases hi : j = i
      · subst hi; simp [hj, wordAt_putWord_same h]
      · have : slotForIndex q j ≠ slotForIndex q i := fun h => hi (slotForIndex_inj h)
        simp [hj, hi, wordAt_putWord_other _ this]

/-- `encode_bytes` gives 128 bytes (42_pixel_buffer.md R89). -/
@[simp] theorem encodeBytes_length (g : List RGB) (q : RotCode) : (encodeBytes g q).length = 128 := by
  rw [encodeBytes, encodeFold_length]; simp

/-- `encode_bytes` puts element i's word at slot `slotForIndex_q(i)` (42_pixel_buffer.md R89). -/
theorem encodeBytes_word (g : List RGB) (q : RotCode) (i : Fin 64) :
    wordAt (encodeBytes g q) (2 * (slotForIndex q i).val) = pack (g.getD i.val BLACK) := by
  rw [encodeBytes, encodeFold_word _ _ _ _ (by simp)]
  simp

@[simp] theorem decodeBytes_length (bytes : List Byte) (q : RotCode) : (decodeBytes bytes q).length = 64 := by
  simp [decodeBytes]

@[simp] theorem decodeBytes_getElem (bytes : List Byte) (q : RotCode) (i : Nat)
    (h : i < (decodeBytes bytes q).length) :
    (decodeBytes bytes q)[i] =
      unpack (wordAt bytes (2 * (slotForIndex q ⟨i, by simpa using h⟩).val)) := by
  simp [decodeBytes]

theorem decodeBytes_getD (bytes : List Byte) (q : RotCode) (i : Fin 64) :
    (decodeBytes bytes q).getD i.val BLACK = unpack (wordAt bytes (2 * (slotForIndex q i).val)) := by
  rw [List.getD_eq_getElem _ _ (by simp)]; simp

/-- A list of 128 bytes is its 64 words. -/
theorem bytes_ext {b b' : List Byte} (h : b.length = 128) (h' : b'.length = 128)
    (hw : ∀ s : Slot, wordAt b (2 * s.val) = wordAt b' (2 * s.val)) : b = b' := by
  refine List.ext_getElem (by rw [h, h']) fun k hk hk' => ?_
  have key := hw ⟨k / 2, by omega⟩
  have low := congrArg (fun x : Word16 => x.setWidth 8) key
  have high := congrArg (fun x : Word16 => (x >>> 8).setWidth 8) key
  have e1 : ∀ x y : Byte, ((x.setWidth 16 ||| y.setWidth 16 <<< 8 : Word16)).setWidth 8 = x := by
    intro x y; ext i hi; interval_cases i <;> simp
  have e2 : ∀ x y : Byte, ((x.setWidth 16 ||| y.setWidth 16 <<< 8 : Word16) >>> 8).setWidth 8 = y := by
    intro x y; ext i hi; interval_cases i <;> simp
  simp only [wordAt, e1, e2] at low high
  rw [← List.getD_eq_getElem b 0 hk, ← List.getD_eq_getElem b' 0 hk']
  rcases Nat.mod_two_eq_zero_or_one k with h0 | h1
  · rwa [show 2 * (k / 2) = k by omega] at low
  · rwa [show 2 * (k / 2) + 1 = k by omega] at high

/-- `encode_bytes(decode_bytes(B, q), q) = B` (42_pixel_buffer.md R95 item 3). -/
theorem encodeBytes_decodeBytes {b : List Byte} (h : b.length = 128) (q : RotCode) :
    encodeBytes (decodeBytes b q) q = b := by
  refine bytes_ext (by simp) h fun s => ?_
  obtain ⟨i, rfl⟩ := slotForIndex_surj q s
  rw [encodeBytes_word, decodeBytes_getD, pack_unpack]

/-- The word of slot `σ_q(i)` moves to slot `σ_q'(i)` (42_pixel_buffer.md R95 item 4). -/
theorem encodeBytes_decodeBytes_word (b : List Byte) (q q' : RotCode) (i : Fin 64) :
    wordAt (encodeBytes (decodeBytes b q) q') (2 * (slotForIndex q' i).val) =
      wordAt b (2 * (slotForIndex q i).val) := by
  rw [encodeBytes_word, decodeBytes_getD, pack_unpack]

/-- Element i of a grid that was encoded and decoded again (42_pixel_buffer.md R95 item 2). -/
theorem decodeBytes_encodeBytes_getElem (g : List RGB) (q : RotCode) (i : Fin 64) :
    (decodeBytes (encodeBytes g q) q).getD i.val BLACK = unpack (pack (g.getD i.val BLACK)) := by
  rw [decodeBytes_getD, encodeBytes_word]

/-! ### Words in the buffer -/

theorem word_eq (m : Memory) (s : Slot) :
    m.word s = (m.read (2 * s.val)).setWidth 16 ||| (m.read (2 * s.val + 1)).setWidth 16 <<< 8 := rfl

/-- The words of a whole-buffer read are the buffer's words. -/
theorem wordAt_readBytes (m : Memory) (s : Slot) :
    wordAt (m.readBytes 0 Config.fbBytes) (2 * s.val) = m.word s := by
  have := s.isLt
  simp only [wordAt, word_eq, Config.fbBytes]
  rw [Memory.readBytes_getD _ _ _ _ _ (by omega), Memory.readBytes_getD _ _ _ _ _ (by omega)]
  simp

/-- The word of a slot's own read. -/
theorem wordAt_readBytes_word (m : Memory) (s : Slot) :
    wordAt (m.readBytes (2 * s.val) 2) 0 = m.word s := by
  simp only [wordAt, word_eq]
  rw [Memory.readBytes_getD _ _ _ _ _ (by omega), Memory.readBytes_getD _ _ _ _ _ (by omega)]
  simp

/-- The bytes of a whole-buffer write are the buffer's bytes. -/
theorem read_writeBytes_whole {m : Memory} (hw : m.wf = true) {b : List Byte} (h : b.length = 128) {a : Nat}
    (ha : a < 128) : (m.writeBytes 0 b).read a = b.getD a 0 := by
  have := Memory.read_writeBytes_inside b m 0 a hw (by simp [h]) (by omega)
  rw [Nat.zero_add] at this
  rw [this, List.getD_eq_getElem]

theorem word_writeBytes_whole {m : Memory} (hw : m.wf = true) {b : List Byte} (h : b.length = 128) (s : Slot) :
    (m.writeBytes 0 b).word s = wordAt b (2 * s.val) := by
  have := s.isLt
  simp only [word_eq, wordAt]
  rw [read_writeBytes_whole hw h (by omega), read_writeBytes_whole hw h (by omega)]

/-- After a whole-buffer write of an encoded grid, slot `σ_q(i)` holds element i's word. -/
theorem word_encodeBytes {m : Memory} (hw : m.wf = true) (g : List RGB) (q : RotCode) (i : Fin 64) :
    (m.writeBytes 0 (encodeBytes g q)).word (slotForIndex q i) = pack (g.getD i.val BLACK) := by
  rw [word_writeBytes_whole hw (by simp), encodeBytes_word]

/-- After a one-slot write, the slot holds the word. -/
theorem word_writeBytes_word {m : Memory} (hw : m.wf = true) (s : Slot) (w : Word16) :
    (m.writeBytes (2 * s.val) (bytesOf w)).word s = w := by
  have hs := s.isLt
  have e0 := Memory.read_writeBytes_inside (bytesOf w) m (2 * s.val) 0 hw (by simp [bytesOf]; omega) (by simp [bytesOf])
  have e1 := Memory.read_writeBytes_inside (bytesOf w) m (2 * s.val) 1 hw (by simp [bytesOf]; omega) (by simp [bytesOf])
  rw [Nat.add_zero] at e0
  rw [word_eq, e0, e1]
  exact bytes_word w

end Sys2Proof.Machine
end

