-- ==== Sys2Proof/Laws/Text.lean ====
section
/-! SUPPORT. The laws of rows, mirrors, trimming, scrolling, rendering and of the font table (43_glyph_store.md,
44_text_renderer.md R117, 45_mirror_ops.md R124). -/

namespace Sys2Proof.Machine

/-! ### Rows (00_scope.md R11) -/

theorem flatten_getElem? {α : Type} {n : Nat} (L : List (List α)) (h : ∀ l ∈ L, l.length = n) (r c : Nat)
    (hc : c < n) : L.flatten[n * r + c]? = (L[r]?).bind (·[c]?) := by
  induction L generalizing r with
  | nil => simp
  | cons l L ih =>
    have hl : l.length = n := h l (by simp)
    rw [List.flatten_cons]
    cases r with
    | zero =>
      simp only [Nat.mul_zero, Nat.zero_add, List.getElem?_cons_zero, Option.bind_some]
      rw [List.getElem?_append_left (by omega)]
    | succ r =>
      rw [List.getElem?_append_right (by rw [hl, Nat.mul_succ]; omega), hl]
      have : n * (r + 1) + c - n = n * r + c := by rw [Nat.mul_succ]; omega
      rw [this, ih (fun l hl => h l (by simp [hl]))]
      simp

theorem flatten_length {α : Type} {n : Nat} (L : List (List α)) (h : ∀ l ∈ L, l.length = n) :
    L.flatten.length = n * L.length := by
  induction L with
  | nil => simp
  | cons l L ih =>
    rw [List.flatten_cons, List.length_append, ih fun l hl => h l (by simp [hl]), h l (by simp), List.length_cons,
      Nat.mul_succ]
    omega

@[simp] theorem rows_length {α : Type} (xs : List α) : (rows xs).length = xs.length / 8 := by simp [rows]

theorem rows_mem_length {α : Type} {xs row : List α} (h : row ∈ rows xs) : row.length = 8 := by
  simp only [rows, List.mem_map, List.mem_range] at h
  obtain ⟨j, hj, rfl⟩ := h
  simp only [Config.rowLen] at hj ⊢
  simp; omega

/-- `rows(xs)[j] = xs[8j..8j+8)`. -/
theorem rows_getElem? {α : Type} (xs : List α) (r c : Nat) (hr : r < xs.length / 8) (hc : c < 8) :
    ((rows xs)[r]?).bind (·[c]?) = xs[8 * r + c]? := by
  simp only [rows, Config.rowLen, List.getElem?_map]
  rw [List.getElem?_range hr]
  simp only [Option.map_some, Option.bind_some]
  rw [List.getElem?_take_of_lt hc, List.getElem?_drop]

theorem rows_flatten {α : Type} (xs : List α) (h : 8 ∣ xs.length) : (rows xs).flatten = xs := by
  have hl := flatten_length (n := 8) (rows xs) fun _ => rows_mem_length
  rw [rows_length] at hl
  refine List.ext_getElem? fun k => ?_
  by_cases hk : k < xs.length
  · have := flatten_getElem? (rows xs) (fun _ => rows_mem_length) (k / 8) (k % 8) (by omega)
    rw [rows_getElem? xs _ _ (by omega) (by omega)] at this
    rwa [show 8 * (k / 8) + k % 8 = k by omega] at this
  · rw [List.getElem?_eq_none (by omega), List.getElem?_eq_none (by omega)]

/-! ### Mirrors (45_mirror_ops.md) -/

theorem hmirror_rows {α : Type} (g : List α) : ∀ l ∈ (rows g).map List.reverse, l.length = 8 := by
  intro l hl
  obtain ⟨row, hr, rfl⟩ := List.mem_map.mp hl
  simpa using rows_mem_length hr

theorem hmirror_length {α : Type} {g : List α} (h : g.length = 64) : (hmirror g).length = 64 := by
  rw [hmirror, flatten_length _ (hmirror_rows g)]; simp [h]

theorem vmirror_length {α : Type} {g : List α} (h : g.length = 64) : (vmirror g).length = 64 := by
  rw [vmirror, flatten_length (n := 8) _ fun l hl => rows_mem_length (List.mem_reverse.mp hl)]; simp [h]

/-- `hmirror(g)[8r + c] = g[8r + (7 - c)]` (45_mirror_ops.md R118). -/
theorem hmirror_getElem? {α : Type} {g : List α} (h : g.length = 64) (r c : Coord) :
    (hmirror g)[8 * r.val + c.val]? = g[8 * r.val + (7 - c.val)]? := by
  have hr := r.isLt; have hc := c.isLt
  rw [hmirror, flatten_getElem? _ (hmirror_rows g) _ _ hc, List.getElem?_map]
  rw [← rows_getElem? g r.val (7 - c.val) (by omega) (by omega)]
  have hlt : r.val < (rows g).length := by rw [rows_length, h]; omega
  rw [List.getElem?_eq_getElem hlt]
  have hl : (rows g)[r.val].length = 8 := rows_mem_length (List.getElem_mem hlt)
  simp only [Option.map_some, Option.bind_some]
  rw [List.getElem?_reverse (by omega), hl]

/-- `vmirror(g)[8r + c] = g[8(7 - r) + c]` (45_mirror_ops.md R119). -/
theorem vmirror_getElem? {α : Type} {g : List α} (h : g.length = 64) (r c : Coord) :
    (vmirror g)[8 * r.val + c.val]? = g[8 * (7 - r.val) + c.val]? := by
  have hr := r.isLt; have hc := c.isLt
  rw [vmirror, flatten_getElem? (n := 8) _ (fun l hl => rows_mem_length (List.mem_reverse.mp hl)) _ _ hc]
  rw [← rows_getElem? g (7 - r.val) c.val (by omega) hc]
  rw [List.getElem?_reverse (by rw [rows_length, h]; omega), rows_length, h]

/-- Two 64-element lists that agree at every row and column are equal. -/
theorem grid_ext {α : Type} {g g' : List α} (h : g.length = 64) (h' : g'.length = 64)
    (e : ∀ r c : Coord, g[8 * r.val + c.val]? = g'[8 * r.val + c.val]?) : g = g' := by
  refine List.ext_getElem? fun k => ?_
  by_cases hk : k < 64
  · have := e ⟨k / 8, by omega⟩ ⟨k % 8, by omega⟩
    simpa [show 8 * (k / 8) + k % 8 = k by omega] using this
  · rw [List.getElem?_eq_none (by omega), List.getElem?_eq_none (by omega)]

/-! ### Trimming (44_text_renderer.md R102) -/

theorem dropWhile_split {α : Type} (p : α → Bool) (l : List α) :
    ∃ a, l = a ++ l.dropWhile p ∧ a.all p = true := by
  refine ⟨l.takeWhile p, by simp, ?_⟩
  rw [List.all_eq_true]
  intro x hx
  exact List.mem_takeWhile_imp hx

/-- The rows from the first to the last with ink, and black rows around them. -/
theorem inkRows_spec (rs : List (List RGB)) (h : rs.all blackRow = false) :
    ∃ pre post first last mid, rs = pre ++ inkRows rs ++ post ∧ pre.all blackRow = true ∧
      post.all blackRow = true ∧ blackRow first = false ∧ blackRow last = false ∧
      inkRows rs = first :: mid ∧ (inkRows rs).getLast? = some last := by
  obtain ⟨pre, hpre, hb⟩ := dropWhile_split blackRow rs
  have hne : rs.dropWhile blackRow ≠ [] := by
    intro h0
    rw [h0, List.append_nil] at hpre
    rw [hpre, hb] at h; cases h
  obtain ⟨first, rest, hfr⟩ := List.exists_cons_of_ne_nil hne
  have hfirst : blackRow first = false := by
    have := List.head_dropWhile_not blackRow hne
    simpa [hfr] using this
  obtain ⟨pr, hpr, hb'⟩ := dropWhile_split blackRow (rs.dropWhile blackRow).reverse
  have hmem : first ∈ (rs.dropWhile blackRow).reverse.dropWhile blackRow := by
    have hm : first ∈ (rs.dropWhile blackRow).reverse := by simp [hfr]
    rw [hpr] at hm
    rcases List.mem_append.mp hm with hm | hm
    · have := List.all_eq_true.mp hb' _ hm
      rw [hfirst] at this; cases this
    · exact hm
  have hne' : (rs.dropWhile blackRow).reverse.dropWhile blackRow ≠ [] := List.ne_nil_of_mem hmem
  have hsplit : rs.dropWhile blackRow = inkRows rs ++ pr.reverse := by
    have := congrArg List.reverse hpr
    simpa [inkRows] using this
  have hink : inkRows rs ≠ [] := by simpa [inkRows] using hne'
  obtain ⟨f, mid, hfm⟩ := List.exists_cons_of_ne_nil hink
  have hf : f = first := by
    rw [hfm, List.cons_append] at hsplit
    rw [hfr] at hsplit
    exact (List.cons.inj hsplit).1.symm
  refine ⟨pre, pr.reverse, first, _, mid, ?_, hb, by simpa using hb', hfirst,
    List.head_dropWhile_not blackRow hne', by rw [hfm, hf], ?_⟩
  · rw [List.append_assoc, ← hsplit]; exact hpre
  · rw [inkRows, List.getLast?_reverse, List.head?_eq_some_head hne']

theorem blackRow_flatten (rs : List (List RGB)) : blackRow rs.flatten = rs.all blackRow := by
  induction rs with
  | nil => rfl
  | cons r rs ih => rw [List.flatten_cons, List.all_cons, ← ih]; simp [blackRow]

theorem trim_black {gl : List RGB} (h : blackRow gl = true) : trim gl = gl := by simp [trim, h]

/-- A glyph of whole rows is black rows, the trimmed glyph, black rows. -/
theorem trim_split (gl : List RGB) (h : 8 ∣ gl.length) (hb : blackRow gl = false) :
    ∃ pre post : List RGB, gl = pre ++ trim gl ++ post ∧ blackRow pre = true ∧ blackRow post = true ∧
      8 ∣ pre.length ∧ 8 ∣ (trim gl).length ∧ 8 ≤ (trim gl).length ∧
      blackRow ((trim gl).take 8) = false ∧ blackRow ((trim gl).drop ((trim gl).length - 8)) = false := by
  have hall : (rows gl).all blackRow = false := by rw [← blackRow_flatten, rows_flatten gl h, hb]
  obtain ⟨pre, post, first, last, mid, hrs, hpre, hpost, hfirst, hlast, hcons, hlast?⟩ := inkRows_spec _ hall
  have ht : trim gl = (inkRows (rows gl)).flatten := by simp [trim, hb]
  have hlen : ∀ l ∈ pre ++ inkRows (rows gl) ++ post, l.length = 8 := by
    intro l hl; rw [← hrs] at hl; exact rows_mem_length hl
  have hpl : pre.flatten.length = 8 * pre.length := flatten_length _ fun l hl => hlen l (by simp [hl])
  have hil : ∀ l ∈ inkRows (rows gl), l.length = 8 := fun l hl => hlen l (by simp [hl])
  have htl : (trim gl).length = 8 * (inkRows (rows gl)).length := by rw [ht]; exact flatten_length _ hil
  have hf8 : first.length = 8 := hil first (by simp [hcons])
  refine ⟨pre.flatten, post.flatten, ?_, by rw [blackRow_flatten, hpre], by rw [blackRow_flatten, hpost],
    ⟨_, hpl⟩, ⟨_, htl⟩, ?_, ?_, ?_⟩
  · rw [ht, ← List.flatten_append, ← List.flatten_append, ← hrs, rows_flatten gl h]
  · rw [htl, hcons, List.length_cons]; omega
  · have : (trim gl).take 8 = first := by
      rw [ht, hcons, List.flatten_cons, List.take_append_of_le_length (by omega), List.take_of_length_le (by omega)]
    rw [this, hfirst]
  · obtain ⟨init, hinit⟩ : ∃ init, inkRows (rows gl) = init ++ [last] :=
      ⟨_, (List.dropLast_append_getLast? _ hlast?).symm⟩
    have hl8 : last.length = 8 := hil last (by simp [hinit])
    have : (trim gl).drop ((trim gl).length - 8) = last := by
      rw [ht, hinit, List.flatten_append]
      simp only [List.flatten_cons, List.flatten_nil, List.append_nil, List.length_append, hl8,
        Nat.add_sub_cancel]
      simp
    rw [this, hlast]

theorem trim_dvd {gl : List RGB} (h : 8 ∣ gl.length) : 8 ∣ (trim gl).length := by
  by_cases hb : blackRow gl = true
  · rwa [trim_black hb]
  · obtain ⟨_, _, _, _, _, _, hd, _⟩ := trim_split gl h (by simpa using hb)
    exact hd

/-! ### Rendering and scrolling (44_text_renderer.md R103 to R106) -/

@[simp] theorem recolor_length {α : Type} (p : List RGB) (fg bg : α) : (recolor p fg bg).length = p.length := by
  simp [recolor]

theorem recolor_getElem? {α : Type} (p : List RGB) (fg bg : α) (k : Nat) :
    (recolor p fg bg)[k]? = (p[k]?).map fun c => if c = BLACK then bg else fg := by
  simp [recolor]

@[simp] theorem renderLetter_length {α : Type} (ft : FontTable) (t : Str) (fg bg : α) :
    (renderLetter ft t fg bg).length = 24 + (lookup ft t).length := by
  simp [renderLetter]; omega

/-- `scroll` takes a frame for exactly the k with `k*step + 64 <= len` (44_text_renderer.md R106). -/
theorem lt_frameCount {len step k : Nat} (h : 1 ≤ step) : k < frameCount len step ↔ k * step + 64 ≤ len := by
  unfold frameCount
  simp only [Config.frameLen]
  split
  · simp; have := Nat.zero_le (k * step); omega
  · rename_i hlen
    rw [Nat.lt_succ_iff, Nat.le_div_iff_mul_le (by omega)]
    omega

@[simp] theorem scroll_length {α : Type} (q : List α) (step : Nat) :
    (scroll q step).length = frameCount q.length step := by simp [scroll]

theorem scroll_getElem? {α : Type} (q : List α) {step k : Nat} (h : 1 ≤ step) (hk : k * step + 64 ≤ q.length) :
    (scroll q step)[k]? = some ((q.drop (k * step)).take 64) := by
  simp only [scroll, List.getElem?_map]
  rw [List.getElem?_range ((lt_frameCount h).mpr hk)]
  rfl

theorem scroll_mem_length {α : Type} {q frame : List α} {step : Nat} (hs : 1 ≤ step) (h : frame ∈ scroll q step) :
    frame.length = 64 := by
  simp only [scroll, List.mem_map, List.mem_range] at h
  obtain ⟨k, hk, rfl⟩ := h
  have := (lt_frameCount hs).mp hk
  simp; omega

/-! ### The font table (43_glyph_store.md) -/

theorem find?_cons (k c : Char) (gl : List RGB) (ft : FontTable) :
    FontTable.find? ((k, gl) :: ft) c = if k = c then some gl else FontTable.find? ft c := rfl

theorem find?_mem {ft : FontTable} {c : Char} {gl : List RGB} (h : FontTable.find? ft c = some gl) :
    (c, gl) ∈ ft := by
  induction ft with
  | nil => cases h
  | cons e ft ih =>
    obtain ⟨k, g⟩ := e
    rw [find?_cons] at h
    split at h
    · simp only [Option.some.injEq] at h; subst_vars; simp
    · exact List.mem_cons_of_mem _ (ih h)

/-- With no repeated character, the pair at position k is what its character finds. -/
theorem find?_of_mem {ft : FontTable} (hr : hasRepeat (ft.map Prod.fst) = false) {c : Char} {gl : List RGB}
    (h : (c, gl) ∈ ft) : FontTable.find? ft c = some gl := by
  induction ft with
  | nil => cases h
  | cons e ft ih =>
    obtain ⟨k, g⟩ := e
    simp only [List.map_cons, hasRepeat, Bool.or_eq_false_iff] at hr
    rw [find?_cons]
    rcases List.mem_cons.mp h with h | h
    · cases h; simp
    · have : k ≠ c := by
        rintro rfl
        have : (ft.map Prod.fst).contains k = true := by
          simp only [List.contains_iff_mem, List.mem_map]; exact ⟨_, h, rfl⟩
        rw [this] at hr; cases hr.1
      rw [if_neg this, ih hr.2 h]

theorem fontTable_fst (p : List RGB) (c : Str) : (fontTable p c).map Prod.fst = c := by
  simp only [fontTable, List.map_map]
  exact List.zipIdx_map_fst 0 c

theorem fontTable_getElem? (p : List RGB) (cs : Str) (k : Nat) :
    (fontTable p cs)[k]? = (cs[k]?).map fun ch => (ch, (p.drop (40 * k)).take 40) := by
  simp [fontTable, Option.map_map, Function.comp_def]

/-- What a successful load leaves (43_glyph_store.md R98). -/
theorem loadedTable_eq_some {a : Assets} {ft : FontTable} :
    loadedTable a = some ft ↔
      ∃ p c, a.strip = some p ∧ a.chars = some c ∧ p.length = 40 * c.length ∧ hasRepeat c = false ∧
        '?' ∈ c ∧ ft = fontTable p c := by
  obtain ⟨sp, ch⟩ := a
  unfold loadedTable
  cases sp with
  | none => simp
  | some p =>
    cases ch with
    | none => simp
    | some c =>
      simp only [Config.glyphLen, Config.fallbackChar, Option.some.injEq]
      split
      · simp_all
      · rename_i h
        split
        · simp_all
        · split
          · simp_all
          · rename_i h1 h2
            simp only [Option.some.injEq, Bool.not_eq_true', Bool.not_eq_false, List.contains_iff_mem] at *
            constructor
            · rintro rfl; exact ⟨p, c, rfl, rfl, by omega, by simpa using h1, h2, rfl⟩
            · rintro ⟨_, _, rfl, rfl, _, _, _, rfl⟩; rfl

theorem mem_hasRepeat_false {c : Str} : hasRepeat c = false ↔ c.Nodup := by
  induction c with
  | nil => simp [hasRepeat]
  | cons a c ih => simp [hasRepeat, ih, Bool.or_eq_false_iff]

end Sys2Proof.Machine
end

