-- ==== Sys2Proof/Laws/Ops.lean ====
section
/-! SUPPORT. What each shared operation can do, said once: the checks, the two transactions, frames, the rotation
override, the font load (20_memory.md R39, R40, 42_pixel_buffer.md R89, 44_text_renderer.md R107, R108). -/

namespace Sys2Proof.Machine

/-! ### The checks -/

theorem validate_eq (c : RawColor) (s : State) : validate c s = (validColor c, noteIf (badColor c) .badColor s) := rfl

theorem noteIf_noteIf (a b : Bool) (n : Notice) (s : State) : noteIf b n (noteIf a n s) = noteIf (a || b) n s := by
  cases a <;> cases b <;> simp [note, BitVec.or_assoc]

/-- Every element validated, one notice if any of them is bad (42_pixel_buffer.md R89). -/
theorem validateAll_eq (g : RawGrid) (s : State) :
    validateAll g s = (g.map validColor, noteIf (g.any badColor) .badColor s) := by
  induction g generalizing s with
  | nil => rfl
  | cons c g ih => simp only [validateAll, validate_eq, ih, List.map_cons, List.any_cons, noteIf_noteIf]

/-- `checkGrid` on a 64-element grid (42_pixel_buffer.md R89). -/
theorem checkGrid_64 {g : RawGrid} (h : g.length = 64) (s : State) :
    checkGrid g s = (g.map validColor, noteIf (g.any badColor) .badColor s) := by
  simp [checkGrid, h, validateAll_eq]

/-- `checkGrid` on a grid of another length (42_pixel_buffer.md R89). -/
theorem checkGrid_bad {g : RawGrid} (h : g.length ≠ 64) (s : State) :
    checkGrid g s = (List.replicate 64 BLACK, note .badGridLen s) := by
  simp [checkGrid, h]

/-- Either way `checkGrid` gives a grid and sets at most one bit. -/
theorem checkGrid_eq (g : RawGrid) (s : State) :
    ∃ p n b, checkGrid g s = (p, noteIf b n s) ∧ p.length = 64 := by
  by_cases h : g.length = 64
  · exact ⟨_, _, _, checkGrid_64 h s, by simp [h]⟩
  · exact ⟨_, .badGridLen, true, checkGrid_bad h s, by simp⟩

@[simp] theorem checkGrid_length (g : RawGrid) (s : State) : (checkGrid g s).1.length = 64 := by
  obtain ⟨p, n, b, h, hl⟩ := checkGrid_eq g s
  rw [h]; exact hl

theorem validColor_black : validColor BLACK.toRaw = BLACK := by decide

theorem validColor_toRaw (c : RGB) : validColor c.toRaw = c := by simp [validColor]

theorem badColor_toRaw (c : RGB) : badColor c.toRaw = false := by simp [badColor]

theorem badColor_iff {c : RawColor} : badColor c = true ↔ RawColor.toRGB? c = none := by
  simp [badColor]

theorem validColor_bad {c : RawColor} (h : badColor c = true) : validColor c = BLACK := by
  simp [validColor, badColor_iff.mp h]

theorem coord?_eq_some {z : Int} {c : Coord} : coord? z = some c ↔ z = c.val := by
  have := c.isLt
  unfold coord?
  constructor
  · intro h
    split at h
    · simp only [Option.some.injEq] at h; subst h; simp only; omega
    · cases h
  · rintro rfl
    simp; omega

theorem coord?_eq_none {z : Int} : coord? z = none ↔ ¬(0 ≤ z ∧ z ≤ 7) := by
  unfold coord?; split <;> simp_all

theorem coords?_eq_some {x y : Int} {a b : Coord} : coords? x y = some (a, b) ↔ x = a.val ∧ y = b.val := by
  unfold coords?
  rw [← coord?_eq_some, ← coord?_eq_some]
  cases coord? x <;> cases coord? y <;> simp

theorem coords?_eq_none {x y : Int} : coords? x y = none ↔ ¬((0 ≤ x ∧ x ≤ 7) ∧ 0 ≤ y ∧ y ≤ 7) := by
  unfold coords?
  have hx := @coord?_eq_none x
  have hy := @coord?_eq_none y
  cases h : coord? x <;> cases h' : coord? y <;> simp_all

theorem coords?_of_range {x y : Int} (h : (0 ≤ x ∧ x ≤ 7) ∧ 0 ≤ y ∧ y ≤ 7) :
    ∃ a b : Coord, coords? x y = some (a, b) ∧ x = a.val ∧ y = b.val := by
  refine ⟨⟨x.toNat, by omega⟩, ⟨y.toNat, by omega⟩, coords?_eq_some.mpr ?_, ?_, ?_⟩
  · simp only; omega
  · simp only; omega
  · simp only; omega

theorem index?_eq_some {z : Int} {i : Fin 64} : index? z = some i ↔ z = i.val := by
  have := i.isLt
  unfold index?
  constructor
  · intro h
    split at h
    · simp only [Option.some.injEq] at h; subst h; simp only; omega
    · cases h
  · rintro rfl
    simp; omega

theorem index?_eq_none {z : Int} : index? z = none ↔ ¬(0 ≤ z ∧ z ≤ 63) := by
  unfold index?; split <;> simp_all

/-- An accepted angle is a quarter turn, up to the whole turns added to a negative one (41_rotation.md R78). -/
theorem normalise_eq_some {a : Int} {q : RotCode} :
    normalise a = some q ↔ (if a < 0 then a % 360 else a) = 90 * (q.toNat : Int) := by
  have hq : q = 0 ∨ q = 1 ∨ q = 2 ∨ q = 3 := by revert q; decide
  unfold normalise
  simp only
  generalize (if a < 0 then a % 360 else a) = b
  constructor
  · intro h
    split at h
    · simp only [Option.some.injEq] at h; subst h; simpa
    · split at h
      · simp only [Option.some.injEq] at h; subst h; simpa
      · split at h
        · simp only [Option.some.injEq] at h; subst h; simpa
        · split at h
          · simp only [Option.some.injEq] at h; subst h; simpa
          · cases h
  · rintro rfl
    rcases hq with rfl | rfl | rfl | rfl <;> decide

/-! ### Transactions -/

theorem nextAnswer_cons {s : State} {a : IoAnswer} {as : List IoAnswer} (h : s.io = a :: as) :
    nextAnswer s = (a, { s with io := as }) := by
  rw [nextAnswer, h]

/-- The next answer takes one of `io`, or a free value; nothing else changes. -/
theorem nextAnswer_spec (s : State) : ∃ a io n, nextAnswer s = (a, { s with io := io, draws := n }) := by
  cases h : s.io with
  | nil => exact ⟨_, [], _, by rw [nextAnswer, h]⟩
  | cons a as => exact ⟨a, as, s.draws, by rw [nextAnswer_cons h]⟩

theorem memRead_ok {s : State} {as : List IoAnswer} (h : s.io = .ok :: as) (sp : Span) :
    memRead sp s = (some (s.fb.readBytes sp.off sp.len),
      { s with io := as, trace := s.trace ++ [.fbRead sp.off sp.len .ok] }) := by
  rw [memRead, nextAnswer_cons h]; rfl

theorem memRead_fail {s : State} {as : List IoAnswer} (h : s.io = .fail :: as) (sp : Span) :
    memRead sp s = (none, { s with io := as, trace := s.trace ++ [.fbRead sp.off sp.len .fail] }) := by
  rw [memRead, nextAnswer_cons h]; rfl

/-- A read transaction records one event; `fb` and the block's state stay (20_memory.md R39). -/
theorem memRead_spec (sp : Span) (s : State) : ∃ a io n,
    memRead sp s =
      ((match a with | .ok => some (s.fb.readBytes sp.off sp.len) | .fail => none),
        { s with io := io, draws := n, trace := s.trace ++ [.fbRead sp.off sp.len a] }) := by
  obtain ⟨a, io, n, h⟩ := nextAnswer_spec s
  refine ⟨a, io, n, ?_⟩
  rw [memRead, h]; cases a <;> rfl

theorem memWrite_ok {s : State} {as : List IoAnswer} (h : s.io = .ok :: as) (sp : Span) (b : List Byte)
    (hold : Option Hold) :
    memWrite sp b hold s = (.ok,
      { s with fb := s.fb.writeBytes sp.off b, io := as, trace := s.trace ++ [.fbWrite sp.off b hold .ok] }) := by
  rw [memWrite, nextAnswer_cons h]; rfl

theorem memWrite_fail {s : State} {as : List IoAnswer} (h : s.io = .fail :: as) (sp : Span) (b : List Byte)
    (hold : Option Hold) :
    memWrite sp b hold s = (.fail,
      { s with fb := s.fb.writeBytes sp.off (failedBytes s.draws sp), io := as, draws := s.draws + 1,
               trace := s.trace ++ [.fbWrite sp.off b hold .fail] }) := by
  rw [memWrite, nextAnswer_cons h]; rfl

@[simp] theorem failedBytes_length (n : Nat) (sp : Span) : (failedBytes n sp).length = sp.len := by
  simp [failedBytes]

/-- A write transaction writes as many bytes as it addresses and records one event (20_memory.md R40). -/
theorem memWrite_spec (sp : Span) (b : List Byte) (hold : Option Hold) (s : State) : ∃ a io n b',
    memWrite sp b hold s = (a,
      { s with fb := s.fb.writeBytes sp.off b', io := io, draws := n,
               trace := s.trace ++ [.fbWrite sp.off b hold a] }) ∧
      (b' = b ∨ b'.length = sp.len) := by
  obtain ⟨a, io, n, h⟩ := nextAnswer_spec s
  cases a with
  | ok => exact ⟨.ok, io, n, b, by rw [memWrite, h]; rfl, .inl rfl⟩
  | fail => exact ⟨.fail, io, n + 1, failedBytes n sp, by rw [memWrite, h]; rfl, .inr (by simp)⟩

theorem Span.bounds (sp : Span) : sp.off + sp.len ≤ 128 := by
  cases sp with
  | whole => simp [Span.off, Span.len]
  | word s => simp [Span.off, Span.len]; omega

@[simp] theorem validate_rot (c : RawColor) (s : State) : (validate c s).2.rot = s.rot := by
  simp [validate_eq]
@[simp] theorem validate_life (c : RawColor) (s : State) : (validate c s).2.life = s.life := by
  simp [validate_eq]
@[simp] theorem validate_ft (c : RawColor) (s : State) : (validate c s).2.ft = s.ft := by
  simp [validate_eq]
@[simp] theorem validate_saved (c : RawColor) (s : State) : (validate c s).2.saved = s.saved := by
  simp [validate_eq]
@[simp] theorem validate_frameIdx (c : RawColor) (s : State) : (validate c s).2.frameIdx = s.frameIdx := by
  simp [validate_eq]
@[simp] theorem validate_fb (c : RawColor) (s : State) : (validate c s).2.fb = s.fb := by
  simp [validate_eq]
@[simp] theorem validate_trace (c : RawColor) (s : State) : (validate c s).2.trace = s.trace := by
  simp [validate_eq]
@[simp] theorem validate_inbox (c : RawColor) (s : State) : (validate c s).2.inbox = s.inbox := by
  simp [validate_eq]
@[simp] theorem validate_io (c : RawColor) (s : State) : (validate c s).2.io = s.io := by
  simp [validate_eq]
@[simp] theorem validate_draws (c : RawColor) (s : State) : (validate c s).2.draws = s.draws := by
  simp [validate_eq]

@[simp] theorem checkGrid_rot (g : RawGrid) (s : State) : (checkGrid g s).2.rot = s.rot := by
  obtain ⟨p, n, b, h, -⟩ := checkGrid_eq g s; simp [h]
@[simp] theorem checkGrid_life (g : RawGrid) (s : State) : (checkGrid g s).2.life = s.life := by
  obtain ⟨p, n, b, h, -⟩ := checkGrid_eq g s; simp [h]
@[simp] theorem checkGrid_ft (g : RawGrid) (s : State) : (checkGrid g s).2.ft = s.ft := by
  obtain ⟨p, n, b, h, -⟩ := checkGrid_eq g s; simp [h]
@[simp] theorem checkGrid_saved (g : RawGrid) (s : State) : (checkGrid g s).2.saved = s.saved := by
  obtain ⟨p, n, b, h, -⟩ := checkGrid_eq g s; simp [h]
@[simp] theorem checkGrid_frameIdx (g : RawGrid) (s : State) : (checkGrid g s).2.frameIdx = s.frameIdx := by
  obtain ⟨p, n, b, h, -⟩ := checkGrid_eq g s; simp [h]
@[simp] theorem checkGrid_fb (g : RawGrid) (s : State) : (checkGrid g s).2.fb = s.fb := by
  obtain ⟨p, n, b, h, -⟩ := checkGrid_eq g s; simp [h]
@[simp] theorem checkGrid_trace (g : RawGrid) (s : State) : (checkGrid g s).2.trace = s.trace := by
  obtain ⟨p, n, b, h, -⟩ := checkGrid_eq g s; simp [h]
@[simp] theorem checkGrid_inbox (g : RawGrid) (s : State) : (checkGrid g s).2.inbox = s.inbox := by
  obtain ⟨p, n, b, h, -⟩ := checkGrid_eq g s; simp [h]
@[simp] theorem checkGrid_io (g : RawGrid) (s : State) : (checkGrid g s).2.io = s.io := by
  obtain ⟨p, n, b, h, -⟩ := checkGrid_eq g s; simp [h]
@[simp] theorem checkGrid_draws (g : RawGrid) (s : State) : (checkGrid g s).2.draws = s.draws := by
  obtain ⟨p, n, b, h, -⟩ := checkGrid_eq g s; simp [h]

@[simp] theorem memRead_rot (sp : Span) (s : State) : (memRead sp s).2.rot = s.rot := by
  obtain ⟨a, io, n, h⟩ := memRead_spec sp s; rw [h]
@[simp] theorem memRead_diag (sp : Span) (s : State) : (memRead sp s).2.diag = s.diag := by
  obtain ⟨a, io, n, h⟩ := memRead_spec sp s; rw [h]
@[simp] theorem memRead_life (sp : Span) (s : State) : (memRead sp s).2.life = s.life := by
  obtain ⟨a, io, n, h⟩ := memRead_spec sp s; rw [h]
@[simp] theorem memRead_ft (sp : Span) (s : State) : (memRead sp s).2.ft = s.ft := by
  obtain ⟨a, io, n, h⟩ := memRead_spec sp s; rw [h]
@[simp] theorem memRead_saved (sp : Span) (s : State) : (memRead sp s).2.saved = s.saved := by
  obtain ⟨a, io, n, h⟩ := memRead_spec sp s; rw [h]
@[simp] theorem memRead_frameIdx (sp : Span) (s : State) : (memRead sp s).2.frameIdx = s.frameIdx := by
  obtain ⟨a, io, n, h⟩ := memRead_spec sp s; rw [h]
@[simp] theorem memRead_fb (sp : Span) (s : State) : (memRead sp s).2.fb = s.fb := by
  obtain ⟨a, io, n, h⟩ := memRead_spec sp s; rw [h]
@[simp] theorem memRead_inbox (sp : Span) (s : State) : (memRead sp s).2.inbox = s.inbox := by
  obtain ⟨a, io, n, h⟩ := memRead_spec sp s; rw [h]

@[simp] theorem memWrite_rot (sp : Span) (b : List Byte) (hold : Option Hold) (s : State) : (memWrite sp b hold s).2.rot = s.rot := by
  obtain ⟨a, io, n, b', h, -⟩ := memWrite_spec sp b hold s; rw [h]
@[simp] theorem memWrite_diag (sp : Span) (b : List Byte) (hold : Option Hold) (s : State) : (memWrite sp b hold s).2.diag = s.diag := by
  obtain ⟨a, io, n, b', h, -⟩ := memWrite_spec sp b hold s; rw [h]
@[simp] theorem memWrite_life (sp : Span) (b : List Byte) (hold : Option Hold) (s : State) : (memWrite sp b hold s).2.life = s.life := by
  obtain ⟨a, io, n, b', h, -⟩ := memWrite_spec sp b hold s; rw [h]
@[simp] theorem memWrite_ft (sp : Span) (b : List Byte) (hold : Option Hold) (s : State) : (memWrite sp b hold s).2.ft = s.ft := by
  obtain ⟨a, io, n, b', h, -⟩ := memWrite_spec sp b hold s; rw [h]
@[simp] theorem memWrite_saved (sp : Span) (b : List Byte) (hold : Option Hold) (s : State) : (memWrite sp b hold s).2.saved = s.saved := by
  obtain ⟨a, io, n, b', h, -⟩ := memWrite_spec sp b hold s; rw [h]
@[simp] theorem memWrite_frameIdx (sp : Span) (b : List Byte) (hold : Option Hold) (s : State) : (memWrite sp b hold s).2.frameIdx = s.frameIdx := by
  obtain ⟨a, io, n, b', h, -⟩ := memWrite_spec sp b hold s; rw [h]
@[simp] theorem memWrite_inbox (sp : Span) (b : List Byte) (hold : Option Hold) (s : State) : (memWrite sp b hold s).2.inbox = s.inbox := by
  obtain ⟨a, io, n, b', h, -⟩ := memWrite_spec sp b hold s; rw [h]

/-! ### Frames -/

theorem writeFrame_eq (f : RawGrid) (hold : Option Hold) (s : State) :
    writeFrame f hold s =
      memWrite .whole (encodeBytes (checkGrid f s).1 s.rot) hold (checkGrid f s).2 := by
  conv_rhs => rw [← checkGrid_rot f s]
  rfl

@[simp] theorem writeFrame_rot (f : RawGrid) (hold : Option Hold) (s : State) : (writeFrame f hold s).2.rot = s.rot := by
  rw [writeFrame_eq]; simp
@[simp] theorem writeFrame_life (f : RawGrid) (hold : Option Hold) (s : State) : (writeFrame f hold s).2.life = s.life := by
  rw [writeFrame_eq]; simp
@[simp] theorem writeFrame_ft (f : RawGrid) (hold : Option Hold) (s : State) : (writeFrame f hold s).2.ft = s.ft := by
  rw [writeFrame_eq]; simp
@[simp] theorem writeFrame_saved (f : RawGrid) (hold : Option Hold) (s : State) : (writeFrame f hold s).2.saved = s.saved := by
  rw [writeFrame_eq]; simp
@[simp] theorem writeFrame_frameIdx (f : RawGrid) (hold : Option Hold) (s : State) : (writeFrame f hold s).2.frameIdx = s.frameIdx := by
  rw [writeFrame_eq]; simp
@[simp] theorem writeFrame_inbox (f : RawGrid) (hold : Option Hold) (s : State) : (writeFrame f hold s).2.inbox = s.inbox := by
  rw [writeFrame_eq]; simp

theorem writeFrames_cons (hold : Option Hold) (f : RawGrid) (fs : List RawGrid) (s : State) :
    writeFrames hold (f :: fs) s =
      match (writeFrame f hold s).1 with
      | .ok => writeFrames hold fs (countFrame (writeFrame f hold s).2)
      | .fail => (.fail, (writeFrame f hold s).2) := by
  rw [writeFrames]
  rcases h : writeFrame f hold s with ⟨a, t⟩
  cases a <;> rfl

/-- What every frame keeps, the frame loop keeps. -/
theorem writeFrames_induct {P : State → State → Prop} (hrefl : ∀ s, P s s)
    (htrans : ∀ {s t u}, P s t → P t u → P s u)
    (hframe : ∀ f hold s, P s (writeFrame f hold s).2) (hcount : ∀ s, P s (countFrame s))
    (hold : Option Hold) (fs : List RawGrid) (s : State) : P s (writeFrames hold fs s).2 := by
  induction fs generalizing s with
  | nil => exact hrefl s
  | cons f fs ih =>
    rw [writeFrames_cons]
    have h1 := hframe f hold s
    cases h : (writeFrame f hold s).1 with
    | ok => exact htrans h1 (htrans (hcount _) (ih _))
    | fail => exact h1

@[simp] theorem writeFrames_rot (hold : Option Hold) (fs : List RawGrid) (s : State) : (writeFrames hold fs s).2.rot = s.rot := by
  exact writeFrames_induct (P := fun s t => t.rot = s.rot) (fun _ => rfl) (fun a b => b.trans a) (by simp) (by simp) hold fs s
@[simp] theorem writeFrames_life (hold : Option Hold) (fs : List RawGrid) (s : State) : (writeFrames hold fs s).2.life = s.life := by
  exact writeFrames_induct (P := fun s t => t.life = s.life) (fun _ => rfl) (fun a b => b.trans a) (by simp) (by simp) hold fs s
@[simp] theorem writeFrames_ft (hold : Option Hold) (fs : List RawGrid) (s : State) : (writeFrames hold fs s).2.ft = s.ft := by
  exact writeFrames_induct (P := fun s t => t.ft = s.ft) (fun _ => rfl) (fun a b => b.trans a) (by simp) (by simp) hold fs s
@[simp] theorem writeFrames_saved (hold : Option Hold) (fs : List RawGrid) (s : State) : (writeFrames hold fs s).2.saved = s.saved := by
  exact writeFrames_induct (P := fun s t => t.saved = s.saved) (fun _ => rfl) (fun a b => b.trans a) (by simp) (by simp) hold fs s
@[simp] theorem writeFrames_inbox (hold : Option Hold) (fs : List RawGrid) (s : State) : (writeFrames hold fs s).2.inbox = s.inbox := by
  exact writeFrames_induct (P := fun s t => t.inbox = s.inbox) (fun _ => rfl) (fun a b => b.trans a) (by simp) (by simp) hold fs s

theorem runFrames_eq (hold : Option Hold) (fs : List RawGrid) (s : State) :
    runFrames hold fs s =
      ((writeFrames hold fs { s with frameIdx := some 0 }).1,
        { (writeFrames hold fs { s with frameIdx := some 0 }).2 with frameIdx := none }) := rfl

@[simp] theorem runFrames_frameIdx (hold : Option Hold) (fs : List RawGrid) (s : State) :
    (runFrames hold fs s).2.frameIdx = none := rfl

@[simp] theorem runFrames_rot (hold : Option Hold) (fs : List RawGrid) (s : State) : (runFrames hold fs s).2.rot = s.rot := by
  rw [runFrames_eq]; simp
@[simp] theorem runFrames_life (hold : Option Hold) (fs : List RawGrid) (s : State) : (runFrames hold fs s).2.life = s.life := by
  rw [runFrames_eq]; simp
@[simp] theorem runFrames_ft (hold : Option Hold) (fs : List RawGrid) (s : State) : (runFrames hold fs s).2.ft = s.ft := by
  rw [runFrames_eq]; simp
@[simp] theorem runFrames_saved (hold : Option Hold) (fs : List RawGrid) (s : State) : (runFrames hold fs s).2.saved = s.saved := by
  rw [runFrames_eq]; simp
@[simp] theorem runFrames_inbox (hold : Option Hold) (fs : List RawGrid) (s : State) : (runFrames hold fs s).2.inbox = s.inbox := by
  rw [runFrames_eq]; simp

/-! ### The scoped rotation override (44_text_renderer.md R108) -/

/-- The state the body of a display command starts in. -/
def overridden (s : State) : State := { s with saved := s.rot, rot := s.rot + Config.textRotOffset }

/-- The state after the body: `ROT` restored, `SAVED` any value. -/
def restored (s : State) : State :=
  { s with rot := s.saved, saved := Config.savedDraw s.draws, draws := s.draws + 1 }

theorem scopedRotation_eq (body : State → IoAnswer × State) (s : State) :
    scopedRotation body s =
      respondIo (body (overridden s)).1 .none (restored (body (overridden s)).2) := rfl

/-- A body that keeps `SAVED` leaves `ROT` as the command found it, on every path. -/
theorem scopedRotation_rot {body : State → IoAnswer × State} {s : State}
    (h : (body (overridden s)).2.saved = (overridden s).saved) : (scopedRotation body s).rot = s.rot := by
  rw [scopedRotation_eq, respondIo_rot]; exact h

/-! ### The font load -/

theorem fontLoad_init (a : Assets) {s : State} (h : s.life = .init) :
    fontLoad a s =
      match loadedTable a with
      | some ft => { s with ft := ft, life := .ready }
      | none => { s with life := .failed } := by
  cases hl : loadedTable a <;> simp [fontLoad, h, hl]

theorem fontLoad_late (a : Assets) {s : State} (h : s.life ≠ .init) : fontLoad a s = s := by
  rw [fontLoad]; split <;> simp_all

end Sys2Proof.Machine
end

