-- ==== Sys2Proof/Laws/Exec.lean ====
section
/-! SUPPORT. What a command can do to the state, said once for every operation and every meaning: the relation `Kept`,
which the whole-machine rules are read from (10_state.md R22, R25, R27, R32). -/

namespace Sys2Proof.Machine

/-- Is the event a response? (10_state.md R28) -/
def Event.isResp : Event → Bool
  | .fbRead _ _ _ => false
  | .fbWrite _ _ _ _ => false
  | .resp _ _ => true

/-- What the body of a command keeps from `s` to `t`: the life cycle, the font table, what is presented, every DIAG bit
that was set, DIAG's reserved bits, the buffer's form; and the trace grows by transactions only. -/
structure Kept (s t : State) : Prop where
  life : t.life = s.life
  ft : t.ft = s.ft
  inbox : t.inbox = s.inbox
  sticky : s.diag ||| t.diag = t.diag
  reserved : t.diag.extractLsb' 4 4 = s.diag.extractLsb' 4 4
  fb : s.fb.wf = true → t.fb.wf = true
  events : ∃ evs, t.trace = s.trace ++ evs ∧ ∀ e ∈ evs, e.isResp = false

namespace Kept

theorem refl (s : State) : Kept s s :=
  ⟨rfl, rfl, rfl, by simp, rfl, id, [], by simp, by simp⟩

theorem trans {s t u : State} (a : Kept s t) (b : Kept t u) : Kept s u := by
  obtain ⟨e1, h1, n1⟩ := a.events
  obtain ⟨e2, h2, n2⟩ := b.events
  refine ⟨b.life.trans a.life, b.ft.trans a.ft, b.inbox.trans a.inbox, ?_, b.reserved.trans a.reserved,
    fun h => b.fb (a.fb h), e1 ++ e2, by rw [h2, h1, List.append_assoc], ?_⟩
  · have hb := b.sticky
    rw [← a.sticky] at hb
    rw [← hb, ← BitVec.or_assoc, ← BitVec.or_assoc, BitVec.or_self]
  · intro e he
    rcases List.mem_append.mp he with he | he
    · exact n1 e he
    · exact n2 e he

theorem note (c : Notice) (s : State) : Kept s (Machine.note c s) := by
  refine ⟨rfl, rfl, rfl, ?_, ?_, id, [], by simp, by simp⟩
  · simp [← BitVec.or_assoc]
  · have : c.bit.extractLsb' 4 4 = 0 := by cases c <;> decide
    simp [BitVec.extractLsb'_or, this]

theorem noteIf (b : Bool) (c : Notice) (s : State) : Kept s (Machine.noteIf b c s) := by
  cases b
  · exact refl s
  · exact note c s

theorem validate (c : RawColor) (s : State) : Kept s (Machine.validate c s).2 := noteIf _ _ s

theorem checkGrid (g : RawGrid) (s : State) : Kept s (Machine.checkGrid g s).2 := by
  obtain ⟨p, n, b, h, -⟩ := checkGrid_eq g s
  rw [h]; exact noteIf b n s

theorem memRead (sp : Span) (s : State) : Kept s (Machine.memRead sp s).2 := by
  obtain ⟨a, io, n, h⟩ := memRead_spec sp s
  rw [h]
  exact ⟨rfl, rfl, rfl, by simp, rfl, id, _, rfl, by simp [Event.isResp]⟩

theorem memWrite (sp : Span) (b : List Byte) (hb : b.length = sp.len) (hold : Option Hold) (s : State) :
    Kept s (Machine.memWrite sp b hold s).2 := by
  obtain ⟨a, io, n, b', h, hl⟩ := memWrite_spec sp b hold s
  have hl' : b'.length = sp.len := by rcases hl with rfl | hl <;> assumption
  rw [h]
  refine ⟨rfl, rfl, rfl, by simp, rfl, fun hw => ?_, _, rfl, by simp [Event.isResp]⟩
  exact Memory.writeBytes_wf _ _ _ hw (by rw [hl']; exact sp.bounds)

theorem memWriteGrid (g : List RGB) (q : RotCode) (hold : Option Hold) (s : State) :
    Kept s (Machine.memWrite .whole (encodeBytes g q) hold s).2 := memWrite _ _ (by simp [Span.len]) _ s

theorem writeFrame (f : RawGrid) (hold : Option Hold) (s : State) : Kept s (Machine.writeFrame f hold s).2 := by
  rw [writeFrame_eq]
  exact (checkGrid f s).trans (memWriteGrid _ _ _ _)

/-- An update of the rotation, the latches, the environment's answers or the draws is none of `Kept`'s business. -/
theorem internal {s t : State} (hd : t.diag = s.diag) (hl : t.life = s.life) (hft : t.ft = s.ft) (hfb : t.fb = s.fb)
    (htr : t.trace = s.trace) (hin : t.inbox = s.inbox) : Kept s t :=
  ⟨hl, hft, hin, by simp [hd], by rw [hd], by rw [hfb]; exact id, [], by simp [htr], by simp⟩

theorem writeFrames (hold : Option Hold) (fs : List RawGrid) (s : State) :
    Kept s (Machine.writeFrames hold fs s).2 :=
  writeFrames_induct (P := Kept) refl trans writeFrame (fun _ => internal rfl rfl rfl rfl rfl rfl) hold fs s

theorem runFrames (hold : Option Hold) (fs : List RawGrid) (s : State) : Kept s (Machine.runFrames hold fs s).2 := by
  rw [runFrames_eq]
  exact (internal rfl rfl rfl rfl rfl rfl : Kept s { s with frameIdx := some 0 }).trans ((writeFrames hold fs _).trans (internal rfl rfl rfl rfl rfl rfl))

end Kept

/-- A command that runs: transactions and notices, then its one response (10_state.md R27). -/
def Runs (s t : State) : Prop := ∃ u st r, Kept s u ∧ t = respond st r u

namespace Runs

theorem of {s u : State} (h : Kept s u) (st : Status) (r : Result) : Runs s (respond st r u) := ⟨u, st, r, h, rfl⟩

theorem io {s u : State} (h : Kept s u) (a : IoAnswer) (r : Result) : Runs s (respondIo a r u) := by
  cases a
  · exact of h _ _
  · exact of h _ _

theorem scopedBody {body : State → IoAnswer × State} {s : State}
    (h : Kept (overridden s) (body (overridden s)).2) : Runs s (scopedRotation body s) := by
  rw [scopedRotation_eq]
  exact io ((Kept.internal rfl rfl rfl rfl rfl rfl : Kept s (overridden s)).trans
    (h.trans (Kept.internal (t := restored (body (overridden s)).2) rfl rfl rfl rfl rfl rfl))) _ _

theorem rest {s t : State} (h : Runs s t) : t.life = s.life ∧ t.ft = s.ft ∧ t.inbox = s.inbox := by
  obtain ⟨u, st, r, h, rfl⟩ := h
  exact ⟨h.life, h.ft, h.inbox⟩

theorem served {typed : Bool} {body : State → State} {s t : State}
    (h : s.life = .ready → Runs s (body s)) (e : Machine.served typed body s = .next t) : Runs s t := by
  rcases served_cases typed body s with ⟨-, e'⟩ | ⟨-, -, e'⟩ | ⟨-, hl, e'⟩ <;> rw [e'] at e <;> cases e
  · exact of (Kept.refl s) _ _
  · exact of (Kept.refl s) _ _
  · exact h hl

end Runs

/-! ### The bodies that read the buffer -/

/-- A read and what follows it, by its answer. -/
theorem memRead_match {β : Type} (sp : Span) (s : State) (f : List Byte → State → β) (g : State → β) :
    (match memRead sp s with | (some b, t) => f b t | (none, t) => g t) =
      match (memRead sp s).1 with | some b => f b (memRead sp s).2 | none => g (memRead sp s).2 := by
  rcases memRead sp s with ⟨_ | b, t⟩ <;> rfl

theorem flipWith_eq (mirror : List RGB → List RGB) (redraw : Bool) (s : State) :
    flipWith mirror redraw s =
      match (memRead .whole s).1 with
      | none => respond .ioerr .none (memRead .whole s).2
      | some bytes =>
        let grid := mirror (decodeBytes bytes s.rot)
        if redraw then
          respondIo (memWrite .whole (encodeBytes grid s.rot) none (memRead .whole s).2).1 (.grid grid)
            (memWrite .whole (encodeBytes grid s.rot) none (memRead .whole s).2).2
        else respond .ok (.grid grid) (memRead .whole s).2 := by
  have hr := memRead_rot .whole s
  unfold flipWith
  revert hr
  rcases memRead .whole s with ⟨_ | b, t⟩ <;> intro hr
  · rfl
  · simp only at hr ⊢
    rw [hr]

theorem Runs.flip (mirror : List RGB → List RGB) (redraw : Bool) (s : State) : Runs s (flipWith mirror redraw s) := by
  rw [flipWith_eq]
  have hk := Kept.memRead .whole s
  cases h : (memRead .whole s).1 with
  | none => exact .of hk _ _
  | some b =>
    simp only
    split
    · exact .io (hk.trans (Kept.memWriteGrid _ _ _ _)) _ _
    · exact .of hk _ _

/-- Every command but CLRDIAG only adds to what it found, and answers once.  CLRDIAG also clears DIAG (46_diagnostics.md
R126). -/
theorem exec_runs {i : Instr} {s t : State} (hi : i ≠ .clrdiag) (h : exec i s = .next t) : Runs s t := by
  cases i with
  | pack r g b =>
    simp only [exec] at h; unfold execPack at h
    refine Runs.served (fun _ => ?_) h
    split
    · exact .of (Kept.refl _) _ _
    · exact .of (by exact Kept.internal rfl rfl rfl rfl rfl rfl) _ _
  | unpack w =>
    simp only [exec] at h; unfold execUnpack at h
    exact Runs.served (fun _ => .of (Kept.refl _) _ _) h
  | validate c =>
    simp only [exec] at h; unfold execValidate at h
    exact Runs.served (fun _ => .of (Kept.validate _ _) _ _) h
  | setrot a =>
    simp only [exec] at h; unfold execSetrot at h
    refine Runs.served (fun _ => ?_) h
    split
    · exact .of (by exact Kept.internal rfl rfl rfl rfl rfl rfl) _ _
    · exact .of (Kept.note _ _) _ _
  | setrotR a =>
    simp only [exec] at h; unfold execSetrotR at h
    refine Runs.served (fun _ => ?_) h
    split
    · exact .of (Kept.note _ _) _ _
    · rename_i q _
      have hk := Kept.memRead .whole s
      rcases hm : memRead .whole s with ⟨_ | b, u⟩
      · exact .of (by simpa [hm] using hk) _ _
      · rw [hm] at hk
        exact .io ((hk.trans (Kept.internal rfl rfl rfl rfl rfl rfl : Kept u { u with rot := q })).trans (Kept.memWriteGrid _ _ _ _)) _ _
  | getrot =>
    simp only [exec] at h; unfold execGetrot at h
    exact Runs.served (fun _ => .of (Kept.refl _) _ _) h
  | slot x y =>
    simp only [exec] at h; unfold execSlot at h
    refine Runs.served (fun _ => ?_) h
    split
    · exact .of (Kept.refl _) _ _
    · exact .of (Kept.note _ _) _ _
  | sloti j =>
    simp only [exec] at h; unfold execSloti at h
    refine Runs.served (fun _ => ?_) h
    split
    · exact .of (Kept.refl _) _ _
    · exact .of (Kept.note _ _) _ _
  | fbDecode =>
    simp only [exec] at h; unfold execFbDecode at h
    refine Runs.served (fun _ => ?_) h
    have hk := Kept.memRead .whole s
    rcases hm : memRead .whole s with ⟨_ | b, u⟩
    · exact .of (by simpa [hm] using hk) _ _
    · exact .of (by simpa [hm] using hk) _ _
  | fbEncode g =>
    simp only [exec] at h; unfold execFbEncode at h
    exact Runs.served (fun _ => .io ((Kept.checkGrid g s).trans (Kept.memWriteGrid _ _ _ _)) _ _) h
  | checkgrid g =>
    simp only [exec] at h; unfold execCheckgrid at h
    exact Runs.served (fun _ => .of (Kept.checkGrid g s) _ _) h
  | getpix x y =>
    simp only [exec] at h; unfold execGetpix at h
    refine Runs.served (fun _ => ?_) h
    split
    · exact .of (Kept.note _ _) _ _
    · rename_i x y _
      have hk := Kept.memRead (.word (slotFor s.rot x y)) s
      rcases hm : memRead (.word (slotFor s.rot x y)) s with ⟨_ | b, u⟩
      · exact .of (by simpa [hm] using hk) _ _
      · exact .of (by simpa [hm] using hk) _ _
  | setpix x y c =>
    simp only [exec] at h; unfold execSetpix at h
    refine Runs.served (fun _ => ?_) h
    have hk := Kept.validate c s
    simp only [validate_eq] at hk ⊢
    split
    · exact .of (hk.trans (Kept.note _ _)) _ _
    · exact .io (hk.trans (Kept.memWrite _ _ (by simp [bytesOf, Span.len]) _ _)) _ _
  | lookup t =>
    simp only [exec] at h; unfold execLookup at h
    exact Runs.served (fun _ => .of (Kept.refl _) _ _) h
  | trim gl =>
    simp only [exec] at h; unfold execTrim at h
    exact Runs.served (fun _ => .of (Kept.refl _) _ _) h
  | recolor p fg bg =>
    simp only [exec] at h; unfold execRecolor at h
    exact Runs.served (fun _ => .of (Kept.refl _) _ _) h
  | renderletter t fg bg =>
    simp only [exec] at h; unfold execRenderletter at h
    exact Runs.served (fun _ => .of (Kept.refl _) _ _) h
  | renderstring t fg bg =>
    simp only [exec] at h; unfold execRenderstring at h
    exact Runs.served (fun _ => .of (Kept.refl _) _ _) h
  | scroll q n =>
    simp only [exec] at h; unfold execScroll at h
    refine Runs.served (fun _ => ?_) h
    split
    · exact .of (Kept.refl _) _ _
    · exact .of (Kept.refl _) _ _
  | showletter t fg bg =>
    simp only [exec] at h; unfold execShowletter at h
    refine Runs.served (fun _ => Runs.scopedBody ?_) h
    exact Kept.writeFrame (renderLetter (overridden s).ft t fg bg) none (overridden s)
  | showmsg t fg bg hold =>
    simp only [exec] at h; unfold execShowmsg at h
    refine Runs.served (fun _ => Runs.scopedBody ?_) h
    exact Kept.runFrames (some hold) (scroll (renderString (overridden s).ft t fg bg) Config.stepDefault) (overridden s)
  | flash t fg bg hold =>
    simp only [exec] at h; unfold execFlash at h
    refine Runs.served (fun _ => Runs.scopedBody ?_) h
    exact Kept.runFrames (some hold) (t.map fun c => renderLetter (overridden s).ft [c] fg bg) (overridden s)
  | hmirror g =>
    simp only [exec] at h; unfold execHmirror at h
    exact Runs.served (fun _ => .of (Kept.refl _) _ _) h
  | vmirror g =>
    simp only [exec] at h; unfold execVmirror at h
    exact Runs.served (fun _ => .of (Kept.refl _) _ _) h
  | fliph =>
    simp only [exec] at h; unfold execFliph at h
    exact Runs.served (fun _ => .flip _ _ _) h
  | fliphR =>
    simp only [exec] at h; unfold execFliphR at h
    exact Runs.served (fun _ => .flip _ _ _) h
  | flipv =>
    simp only [exec] at h; unfold execFlipv at h
    exact Runs.served (fun _ => .flip _ _ _) h
  | flipvR =>
    simp only [exec] at h; unfold execFlipvR at h
    exact Runs.served (fun _ => .flip _ _ _) h
  | getdiag =>
    simp only [exec] at h; unfold execGetdiag at h
    exact Runs.served (fun _ => .of (Kept.refl _) _ _) h
  | clrdiag => exact absurd rfl hi

/-- CLRDIAG answers once, and in a READY block clears DIAG (46_diagnostics.md R126). -/
theorem exec_clrdiag {s : State} :
    exec .clrdiag s =
      .next (if s.life = .ready then respond .ok .none { s with diag := 0x00 } else respond .notReady .none s) := by
  simp only [exec]; unfold execClrdiag
  split
  · rename_i h; rw [served_ready _ _ h]
  · rename_i h; rw [served_notReady _ _ h]

/-- `exec` always answers a next state. -/
theorem exec_goes (i : Instr) (s : State) : ∃ t, exec i s = .next t := by
  cases i <;> exact ⟨_, rfl⟩

/-- No command touches the life cycle, the font table or what is presented (10_state.md R32). -/
theorem exec_rest {i : Instr} {s t : State} (h : exec i s = .next t) :
    t.life = s.life ∧ t.ft = s.ft ∧ t.inbox = s.inbox := by
  by_cases hi : i = .clrdiag
  · subst hi; rw [exec_clrdiag] at h; cases h; split <;> exact ⟨rfl, rfl, rfl⟩
  · exact (exec_runs hi h).rest

/-- No command leaves a frame index that it did not find (10_state.md R29). -/
theorem exec_frameIdx {i : Instr} {s t : State} (h : exec i s = .next t) :
    t.frameIdx = s.frameIdx ∨ t.frameIdx = none := by
  have sv : ∀ {typed : Bool} {body : State → State},
      ((body s).frameIdx = s.frameIdx ∨ (body s).frameIdx = none) → served typed body s = .next t →
      t.frameIdx = s.frameIdx ∨ t.frameIdx = none := by
    intro typed body hb e
    rcases served_cases typed body s with ⟨-, e'⟩ | ⟨-, -, e'⟩ | ⟨-, -, e'⟩ <;> rw [e'] at e <;> cases e
    · exact .inl rfl
    · exact .inl rfl
    · exact hb
  have fl : ∀ m b, (flipWith m b s).frameIdx = s.frameIdx := by
    intro m b
    rw [flipWith_eq]
    cases (memRead .whole s).1 with
    | none => simp
    | some bytes => simp only; split <;> simp
  cases i <;> simp only [exec] at h
  case pack => exact sv (.inl (by split <;> rfl)) h
  case setrot => exact sv (.inl (by split <;> rfl)) h
  case setrotR a =>
    refine sv (.inl ?_) h
    split
    · rfl
    · rename_i q _
      have hk := memRead_frameIdx .whole s
      rcases hm : memRead .whole s with ⟨_ | b, u⟩
      · simpa [hm] using hk
      · simp only [hm] at hk ⊢; simp [hk]
  case slot => exact sv (.inl (by split <;> rfl)) h
  case sloti => exact sv (.inl (by split <;> rfl)) h
  case fbDecode =>
    refine sv (.inl ?_) h
    have hk := memRead_frameIdx .whole s
    rcases hm : memRead .whole s with ⟨_ | b, u⟩ <;> simpa [hm] using hk
  case fbEncode g => exact sv (.inl (by simp)) h
  case checkgrid g => exact sv (.inl (by simp)) h
  case getpix =>
    refine sv (.inl ?_) h
    split
    · rfl
    · rename_i x y _
      have hk := memRead_frameIdx (.word (slotFor s.rot x y)) s
      rcases hm : memRead (.word (slotFor s.rot x y)) s with ⟨_ | b, u⟩ <;> simpa [hm] using hk
  case setpix =>
    refine sv (.inl ?_) h
    simp only [validate_eq]
    split
    · simp
    · simp
  case scroll => exact sv (.inl (by split <;> rfl)) h
  case validate => exact sv (.inl (by simp)) h
  case showletter t fg bg =>
    refine sv (.inl ?_) h
    rw [scopedRotation_eq]; simp [restored, overridden]
  case showmsg =>
    refine sv (.inr ?_) h
    rw [scopedRotation_eq]; simp [restored]
  case flash =>
    refine sv (.inr ?_) h
    rw [scopedRotation_eq]; simp [restored]
  case fliph => exact sv (.inl (fl _ _)) h
  case fliphR => exact sv (.inl (fl _ _)) h
  case flipv => exact sv (.inl (fl _ _)) h
  case flipvR => exact sv (.inl (fl _ _)) h
  all_goals exact sv (.inl rfl) h

end Sys2Proof.Machine
end

