-- ==== Sys2Proof/Laws/Blind.lean ====
section
/-! SUPPORT. That no operation looks at DIAG to decide anything: changing DIAG before an operation changes DIAG after it and
nothing else (10_state.md R31). -/

namespace Sys2Proof.Machine

/-- The same state with another DIAG. -/
abbrev State.withDiag (s : State) (d : Byte) : State := { s with diag := d }

/-- The operation gives the same state up to DIAG whatever DIAG holds. -/
def Blind (f : State → State) : Prop := ∀ s d, ∃ d', f (s.withDiag d) = (f s).withDiag d'

/-- The same of an operation that also gives a value. -/
def BlindTo {α : Type} (f : State → α × State) : Prop :=
  ∀ s d, ∃ d', f (s.withDiag d) = ((f s).1, (f s).2.withDiag d')

theorem nextAnswer_blind (s : State) (d : Byte) :
    nextAnswer (s.withDiag d) = ((nextAnswer s).1, (nextAnswer s).2.withDiag d) := by
  unfold nextAnswer; simp only [State.withDiag]; split <;> rfl

theorem memRead_blind (sp : Span) (s : State) (d : Byte) :
    memRead sp (s.withDiag d) = ((memRead sp s).1, (memRead sp s).2.withDiag d) := by
  unfold memRead; rw [nextAnswer_blind]; rcases nextAnswer s with ⟨_ | _, t⟩ <;> rfl

theorem memWrite_blind (sp : Span) (b : List Byte) (hold : Option Hold) (s : State) (d : Byte) :
    memWrite sp b hold (s.withDiag d) = ((memWrite sp b hold s).1, (memWrite sp b hold s).2.withDiag d) := by
  unfold memWrite; rw [nextAnswer_blind]; rcases nextAnswer s with ⟨_ | _, t⟩ <;> rfl

theorem noteIf_blind (b : Bool) (c : Notice) : Blind (noteIf b c) := by
  intro s d
  cases b
  · exact ⟨d, rfl⟩
  · exact ⟨_, rfl⟩

theorem checkGrid_blind (g : RawGrid) : BlindTo (checkGrid g) := by
  intro s d
  by_cases hg : g.length = 64
  · obtain ⟨d', h⟩ := noteIf_blind (g.any badColor) .badColor s d
    exact ⟨d', by rw [checkGrid_64 hg, checkGrid_64 hg, h]⟩
  · rw [checkGrid_bad hg, checkGrid_bad hg]; exact ⟨_, rfl⟩

theorem writeFrame_blind (f : RawGrid) (hold : Option Hold) : BlindTo (writeFrame f hold) := by
  intro s d
  obtain ⟨d', hd⟩ := checkGrid_blind f s d
  refine ⟨d', ?_⟩
  rw [writeFrame_eq, writeFrame_eq, hd]; exact memWrite_blind _ _ _ _ _

theorem writeFrames_blind (hold : Option Hold) (fs : List RawGrid) : BlindTo (writeFrames hold fs) := by
  induction fs with
  | nil => exact fun s d => ⟨d, rfl⟩
  | cons f fs ih =>
    intro s d
    obtain ⟨d', hd⟩ := writeFrame_blind f hold s d
    rw [writeFrames_cons, writeFrames_cons, hd]
    cases (writeFrame f hold s).1 with
    | fail => exact ⟨d', by simp only⟩
    | ok => exact ih (countFrame (writeFrame f hold s).2) d'

theorem runFrames_blind (hold : Option Hold) (fs : List RawGrid) : BlindTo (runFrames hold fs) := by
  intro s d
  obtain ⟨d', hd⟩ := writeFrames_blind hold fs { s with frameIdx := some 0 } d
  refine ⟨d', ?_⟩
  rw [runFrames_eq, runFrames_eq]
  have : ({ s.withDiag d with frameIdx := some 0 } : State) = ({ s with frameIdx := some 0 } : State).withDiag d := rfl
  rw [this, hd]

theorem scopedRotation_blind {body : State → IoAnswer × State} (hb : BlindTo body) : Blind (scopedRotation body) := by
  intro s d
  obtain ⟨d', hd⟩ := hb (overridden s) d
  refine ⟨d', ?_⟩
  rw [scopedRotation_eq, scopedRotation_eq]
  have : overridden (s.withDiag d) = (overridden s).withDiag d := rfl
  rw [this, hd]
  simp only
  cases (body (overridden s)).1 <;> rfl

theorem flipWith_blind (m : List RGB → List RGB) (b : Bool) : Blind (flipWith m b) := by
  intro s d
  refine ⟨d, ?_⟩
  unfold flipWith
  rw [memRead_blind]
  rcases memRead .whole s with ⟨_ | bytes, t⟩
  · rfl
  · simp only
    cases b
    · rfl
    · simp only [if_true]
      rw [memWrite_blind]
      rcases memWrite .whole _ _ t with ⟨_ | _, u⟩ <;> rfl

/-- A command whose body is blind is blind. -/
theorem served_blind {typed : Bool} {body : State → State} (hb : Blind body) {s t u : State} {d : Byte}
    (h1 : served typed body s = .next t) (h2 : served typed body (s.withDiag d) = .next u) :
    u = t.withDiag u.diag := by
  rcases served_cases typed body s with ⟨a, e⟩ | ⟨a, b, e⟩ | ⟨a, b, e⟩ <;> rw [e] at h1 <;> cases h1 <;> subst a
  · rw [served_illTyped] at h2; cases h2; rfl
  · rw [served_notReady _ _ (by exact b)] at h2; cases h2; rfl
  · rw [served_ready _ _ (by exact b)] at h2; cases h2
    obtain ⟨d', hd⟩ := hb s d
    rw [hd]

end Sys2Proof.Machine
end

