-- ==== Sys2Proof/Laws/Frames.lean ====
section
/-! SUPPORT. What the grid and frame operations do when the environment's answers are given: the checked grid, one frame,
the frame loop up to its end or to the first failed write, the display wrapper (42_pixel_buffer.md R89,
44_text_renderer.md R107, R108, R115, R116). -/

namespace Sys2Proof.Machine

/-! ### Reading back what was written -/

theorem readBytes_writeBytes {m : Memory} (hw : m.wf = true) {b : List Byte} (h : b.length = 128) :
    (m.writeBytes 0 b).readBytes 0 128 = b := by
  refine List.ext_getElem (by simp [h]) fun k h1 h2 => ?_
  simp only [Memory.readBytes_getElem, Nat.zero_add]
  rw [read_writeBytes_whole hw h (by omega), List.getD_eq_getElem]

theorem readBytes_writeBytes_word {m : Memory} (hw : m.wf = true) (s : Slot) (w : Word16) :
    (m.writeBytes (2 * s.val) (bytesOf w)).readBytes (2 * s.val) 2 = bytesOf w := by
  refine List.ext_getElem (by simp [bytesOf]) fun k h1 h2 => ?_
  simp only [Memory.readBytes_getElem]
  have := s.isLt
  exact Memory.read_writeBytes_inside _ _ _ _ hw (by simp [bytesOf]; omega) h2

/-- A grid that was encoded and decoded again (42_pixel_buffer.md R95 item 2). -/
theorem decodeBytes_encodeBytes (q : RotCode) (g : List RGB) (h : g.length = 64) :
    decodeBytes (encodeBytes g q) q = g.map fun c => unpack (pack c) := by
  refine List.ext_getElem (by simp [h]) fun k h1 h2 => ?_
  have hk : k < 64 := by simpa using h1
  have := decodeBytes_encodeBytes_getElem g q ⟨k, hk⟩
  simp only [] at this
  rw [List.getD_eq_getElem _ _ h1, List.getD_eq_getElem _ _ (by omega)] at this
  rw [this]; simp

/-- A grid of valid colors passes the check unchanged (42_pixel_buffer.md R95 item 5). -/
theorem checkGrid_map (g : List RGB) (s : State) (h : g.length = 64) : checkGrid (g.map RGB.toRaw) s = (g, s) := by
  rw [checkGrid_64 (by simpa using h)]
  have : (g.map RGB.toRaw).any badColor = false := by simp [badColor_toRaw]
  rw [this]; simp [validColor_toRaw, Function.comp_def]

/-! ### The font table of a READY block -/

theorem find?_none {ft : FontTable} {ch : Char} (h : ch ∉ ft.map Prod.fst) : FontTable.find? ft ch = none := by
  induction ft with
  | nil => rfl
  | cons e ft ih =>
    obtain ⟨k, g⟩ := e
    simp only [List.map_cons, List.mem_cons, not_or] at h
    rw [find?_cons, if_neg (Ne.symm h.1), ih h.2]

theorem find?_isSome_of_mem {ft : FontTable} {c : Char} (h : c ∈ ft.map Prod.fst) :
    (FontTable.find? ft c).isSome = true := by
  induction ft with
  | nil => cases h
  | cons e ft ih =>
    obtain ⟨k, g⟩ := e
    rw [find?_cons]
    split
    · rfl
    · simp only [List.map_cons, List.mem_cons] at h
      exact ih (h.resolve_left (by rintro rfl; contradiction))

/-- A successful load leaves a well-formed table (43_glyph_store.md R98). -/
theorem loaded_wf {a : Assets} {ft : FontTable} (h : loadedTable a = some ft) : FontTable.wf ft = true := by
  obtain ⟨p, c, -, -, h3, h4, h5, rfl⟩ := loadedTable_eq_some.mp h
  simp only [FontTable.wf, Bool.and_eq_true, Bool.not_eq_true', List.all_eq_true, beq_iff_eq]
  refine ⟨⟨find?_isSome_of_mem (by rw [fontTable_fst]; exact h5), ?_⟩, by rw [fontTable_fst]; exact h4⟩
  intro e he
  obtain ⟨k, hk⟩ := List.getElem?_of_mem he
  rw [fontTable_getElem?] at hk
  obtain ⟨ch, hc, rfl⟩ := Option.map_eq_some_iff.mp hk
  have := (List.getElem?_eq_some_iff.mp hc).1
  simp; omega

/-- Every lookup in a legal READY block gives a 40-pixel glyph (43_glyph_store.md R100). -/
theorem lookup_length {s : State} (hL : s.Legal) (hl : s.life = .ready) (t : Str) : (lookup s.ft t).length = 40 := by
  obtain ⟨-, -, hf, -⟩ := hL
  rw [hl] at hf
  simp only [ftLegal, FontTable.wf, Bool.and_eq_true, List.all_eq_true, beq_iff_eq] at hf
  obtain ⟨⟨h1, h2⟩, -⟩ := hf
  obtain ⟨g, hg⟩ := Option.isSome_iff_exists.mp h1
  have hfb : (fallbackGlyph s.ft).length = 40 := by
    simp only [fallbackGlyph, hg, Option.getD_some]; exact h2 _ (find?_mem hg)
  unfold lookup
  split
  · rename_i c
    cases hc : FontTable.find? s.ft c with
    | none => simpa using hfb
    | some gl => exact h2 _ (find?_mem hc)
  · exact hfb

/-- Every letter frame of a legal READY block has 64 elements (44_text_renderer.md R117 item 1). -/
theorem renderLetter_64 {α : Type} {s : State} (hL : s.Legal) (hl : s.life = .ready) (t : Str) (fg bg : α) :
    (renderLetter s.ft t fg bg).length = 64 := by
  rw [renderLetter_length, lookup_length hL hl]

/-! ### Frames -/

/-- The 128 bytes a frame of 64 colors writes under code `q` (44_text_renderer.md R107). -/
def frameBytes (q : RotCode) (f : RawGrid) : List Byte := encodeBytes (f.map validColor) q

@[simp] theorem frameBytes_length (q : RotCode) (f : RawGrid) : (frameBytes q f).length = 128 := by
  simp [frameBytes]

theorem writeFrame_ok {f : RawGrid} (hf : f.length = 64) {s : State} {rest : List IoAnswer}
    (hio : s.io = .ok :: rest) (hold : Option Hold) :
    writeFrame f hold s = (.ok,
      { s with diag := (bif f.any badColor then s.diag ||| 0x01 else s.diag),
               fb := s.fb.writeBytes 0 (frameBytes s.rot f), io := rest,
               trace := s.trace ++ [.fbWrite 0 (frameBytes s.rot f) hold .ok] }) := by
  rw [writeFrame_eq, checkGrid_64 hf, memWrite_ok (by simpa using hio)]
  cases f.any badColor <;> simp [noteIf, note, Notice.bit, frameBytes, Span.off]

theorem writeFrame_fail {f : RawGrid} (hf : f.length = 64) {s : State} {rest : List IoAnswer}
    (hio : s.io = .fail :: rest) (hold : Option Hold) :
    writeFrame f hold s = (.fail,
      { s with diag := (bif f.any badColor then s.diag ||| 0x01 else s.diag),
               fb := s.fb.writeBytes 0 (failedBytes s.draws .whole), io := rest, draws := s.draws + 1,
               trace := s.trace ++ [.fbWrite 0 (frameBytes s.rot f) hold .fail] }) := by
  rw [writeFrame_eq, checkGrid_64 hf, memWrite_fail (by simpa using hio)]
  cases f.any badColor <;> simp [noteIf, note, Notice.bit, frameBytes, Span.off]

/-- The frame loop when every write is answered `ok` (44_text_renderer.md R115, R116). -/
theorem writeFrames_ok {fs : List RawGrid} (hf : ∀ f ∈ fs, f.length = 64) {s : State} {rest : List IoAnswer}
    (hio : s.io = List.replicate fs.length .ok ++ rest) (hold : Option Hold) :
    writeFrames hold fs s = (.ok,
      { s with diag := (bif fs.any (fun f => f.any badColor) then s.diag ||| 0x01 else s.diag),
               frameIdx := s.frameIdx.map (· + fs.length),
               fb := fs.foldl (fun m f => m.writeBytes 0 (frameBytes s.rot f)) s.fb, io := rest,
               trace := s.trace ++ fs.map fun f => .fbWrite 0 (frameBytes s.rot f) hold .ok }) := by
  induction fs generalizing s with
  | nil =>
    simp only [List.length_nil, List.replicate_zero, List.nil_append] at hio
    subst hio
    obtain ⟨_, _, _, _, _, k, _, _, _, _, _⟩ := s
    cases k <;> simp [writeFrames]
  | cons f fs ih =>
    simp only [List.length_cons, List.replicate_succ, List.cons_append] at hio
    rw [writeFrames_cons, writeFrame_ok (hf f (by simp)) hio]
    simp only
    rw [ih (fun g hg => hf g (by simp [hg])) rfl]
    rw [List.any_cons]
    generalize f.any badColor = b1
    generalize fs.any (fun f => f.any badColor) = b2
    obtain ⟨_, d, _, _, _, k, _, _, _, _, _⟩ := s
    cases k <;> cases b1 <;> cases b2 <;> simp [countFrame, BitVec.or_assoc] <;> omega

/-- The frame loop over `pre ++ fs` goes on with `fs` where `pre` ended. -/
theorem writeFrames_append (hold : Option Hold) (pre fs : List RawGrid) (s : State) :
    writeFrames hold (pre ++ fs) s =
      match (writeFrames hold pre s).1 with
      | .ok => writeFrames hold fs (writeFrames hold pre s).2
      | .fail => (.fail, (writeFrames hold pre s).2) := by
  induction pre generalizing s with
  | nil => rfl
  | cons f pre ih =>
    rw [List.cons_append, writeFrames_cons, writeFrames_cons]
    cases (writeFrame f hold s).1 with
    | ok => exact ih _
    | fail => rfl

/-- The frame loop stops at the first failed write (44_text_renderer.md R115, R116). -/
theorem writeFrames_fail {pre post : List RawGrid} {f : RawGrid} (hpre : ∀ f ∈ pre, f.length = 64) (hf : f.length = 64)
    {s : State} {rest : List IoAnswer} (hio : s.io = List.replicate pre.length .ok ++ .fail :: rest)
    (hold : Option Hold) :
    ∃ fb n k, writeFrames hold (pre ++ f :: post) s = (.fail,
      { s with diag := (bif (pre ++ [f]).any (fun f => f.any badColor) then s.diag ||| 0x01 else s.diag),
               frameIdx := k, fb := fb, io := rest, draws := n,
               trace := s.trace ++ pre.map (fun f => .fbWrite 0 (frameBytes s.rot f) hold .ok) ++
                 [.fbWrite 0 (frameBytes s.rot f) hold .fail] }) := by
  rw [writeFrames_append, writeFrames_ok hpre hio]
  simp only
  rw [writeFrames_cons, writeFrame_fail hf rfl]
  refine ⟨(pre.foldl (fun m f => m.writeBytes 0 (frameBytes s.rot f)) s.fb).writeBytes 0 (failedBytes s.draws .whole),
    s.draws + 1, s.frameIdx.map (· + pre.length), ?_⟩
  simp only
  rw [List.any_append, List.any_cons, List.any_nil, Bool.or_false]
  generalize f.any badColor = b1
  generalize pre.any (fun f => f.any badColor) = b2
  cases b1 <;> cases b2 <;> simp [BitVec.or_assoc]

/-- The buffer after a run of frames: the last one, or what it held. -/
theorem foldl_frames_last {m : Memory} (hw : m.wf = true) (q : RotCode) (fs : List RawGrid) :
    (fs.foldl (fun m f => m.writeBytes 0 (frameBytes q f)) m).wf = true ∧
      (∀ f, fs.getLast? = some f →
        (fs.foldl (fun m f => m.writeBytes 0 (frameBytes q f)) m).readBytes 0 128 = frameBytes q f) ∧
      ∀ off, 128 ≤ off → (fs.foldl (fun m f => m.writeBytes 0 (frameBytes q f)) m).read off = m.read off := by
  induction fs using List.reverseRecOn generalizing m with
  | nil => exact ⟨hw, by simp, fun _ _ => rfl⟩
  | append_singleton fs f ih =>
    obtain ⟨h1, -, h3⟩ := ih hw
    rw [List.foldl_append, List.foldl_cons, List.foldl_nil]
    refine ⟨Memory.writeBytes_wf _ _ _ h1 (by simp), ?_, ?_⟩
    · intro g hg
      rw [List.getLast?_append, List.getLast?_singleton, Option.some_or, Option.some.injEq] at hg
      subst hg
      exact readBytes_writeBytes h1 (by simp)
    · intro off ho
      rw [Memory.read_writeBytes_outside _ _ _ _ (by simp; omega), h3 off ho]

theorem runFrames_ok {fs : List RawGrid} (hf : ∀ f ∈ fs, f.length = 64) {s : State} {rest : List IoAnswer}
    (hio : s.io = List.replicate fs.length .ok ++ rest) (hold : Option Hold) :
    runFrames hold fs s = (.ok,
      { s with diag := (bif fs.any (fun f => f.any badColor) then s.diag ||| 0x01 else s.diag),
               frameIdx := none,
               fb := fs.foldl (fun m f => m.writeBytes 0 (frameBytes s.rot f)) s.fb, io := rest,
               trace := s.trace ++ fs.map fun f => .fbWrite 0 (frameBytes s.rot f) hold .ok }) := by
  rw [runFrames_eq, writeFrames_ok hf (by exact hio)]

/-! ### The flips (45_mirror_ops.md R122) -/

theorem flipWith_readFail (m : List RGB → List RGB) (b : Bool) {s : State} {rest : List IoAnswer}
    (hio : s.io = .fail :: rest) :
    flipWith m b s = { s with io := rest, trace := s.trace ++ [.fbRead 0 128 .fail, .resp .ioerr .none] } := by
  rw [flipWith, memRead_fail hio]
  simp [respond, emit, Span.off, Span.len]

theorem flipWith_ok (m : List RGB → List RGB) {s : State} {rest : List IoAnswer} (hio : s.io = .ok :: rest) :
    flipWith m false s =
      { s with io := rest, trace := s.trace ++
        [.fbRead 0 128 .ok, .resp .ok (.grid (m (decodeBytes (s.fb.readBytes 0 128) s.rot)))] } := by
  rw [flipWith, memRead_ok hio]
  simp [respond, emit, Span.off, Span.len]

/-- The bytes a redrawing flip writes. -/
def flippedBytes (m : List RGB → List RGB) (s : State) : List Byte :=
  encodeBytes (m (decodeBytes (s.fb.readBytes 0 128) s.rot)) s.rot

theorem flipWith_redraw (m : List RGB → List RGB) {s : State} {rest : List IoAnswer}
    (hio : s.io = .ok :: .ok :: rest) :
    flipWith m true s =
      { s with fb := s.fb.writeBytes 0 (flippedBytes m s), io := rest, trace := s.trace ++
        [.fbRead 0 128 .ok, .fbWrite 0 (flippedBytes m s) none .ok,
         .resp .ok (.grid (m (decodeBytes (s.fb.readBytes 0 128) s.rot)))] } := by
  rw [flipWith, memRead_ok hio]
  simp only [if_true]
  rw [memWrite_ok rfl]
  simp [respond, emit, Span.off, Span.len, flippedBytes]

theorem flipWith_redrawFail (m : List RGB → List RGB) {s : State} {rest : List IoAnswer}
    (hio : s.io = .ok :: .fail :: rest) :
    flipWith m true s =
      { s with fb := s.fb.writeBytes 0 (failedBytes s.draws .whole), draws := s.draws + 1, io := rest, trace := s.trace ++
        [.fbRead 0 128 .ok, .fbWrite 0 (flippedBytes m s) none .fail, .resp .ioerr .none] } := by
  rw [flipWith, memRead_ok hio]
  simp only [if_true]
  rw [memWrite_fail rfl]
  simp [respond, emit, Span.off, Span.len, flippedBytes]

/-- Element `8r + c` of the decoded picture (42_pixel_buffer.md R88). -/
theorem decodeBytes_at (s : State) (r c : Coord) :
    (decodeBytes (s.fb.readBytes 0 128) s.rot)[8 * r.val + c.val]? = some (unpack (s.fb.word (slotFor s.rot c r))) := by
  rw [List.getElem?_eq_getElem (by simp; omega), decodeBytes_getElem]
  have := slotForIndex_elementOf s.rot c r
  simp only [elementOf] at this
  rw [this, wordAt_readBytes]

end Sys2Proof.Machine
end

