-- ==== Sys2Proof/Laws/PerInstr.lean ====
section
/-! SUPPORT. Per instruction: decoding the encoder's command gives the instruction back (30_encoding.md R62, R72). -/

namespace Sys2Proof.Laws.RoundTrip

/-- The encoder's command of a well-formed instruction decodes to it. -/
def Statement (i : Instr) : Prop := i.wf = true → decode (encode i) = .ok i

theorem reads {i : Instr} : Statement i := fun hw => decode_encode_of (ofOperands_operands hw)

theorem pack (r g b : Int) : Statement (.pack r g b) := reads
theorem unpack (w : Word16) : Statement (.unpack w) := reads
theorem validate (c : RawColor) : Statement (.validate c) := reads
theorem setrot (a : Int) : Statement (.setrot a) := reads
theorem setrotR (a : Int) : Statement (.setrotR a) := reads
theorem getrot : Statement .getrot := reads
theorem slot (x y : Int) : Statement (.slot x y) := reads
theorem sloti (i : Int) : Statement (.sloti i) := reads
theorem fbDecode : Statement .fbDecode := reads
theorem fbEncode (g : RawGrid) : Statement (.fbEncode g) := reads
theorem checkgrid (g : RawGrid) : Statement (.checkgrid g) := reads
theorem getpix (x y : Int) : Statement (.getpix x y) := reads
theorem setpix (x y : Int) (c : RawColor) : Statement (.setpix x y c) := reads
theorem lookup (t : Str) : Statement (.lookup t) := reads
theorem trim (gl : List RGB) : Statement (.trim gl) := reads
theorem recolor (p : List RGB) (fg bg : RGB) : Statement (.recolor p fg bg) := reads
theorem renderletter (t : Str) (fg bg : RGB) : Statement (.renderletter t fg bg) := reads
theorem renderstring (t : Str) (fg bg : RGB) : Statement (.renderstring t fg bg) := reads
theorem scroll (q : List RGB) (n : Int) : Statement (.scroll q n) := reads
theorem showletter (t : Str) (fg bg : RawColor) : Statement (.showletter t fg bg) := reads
theorem showmsg (t : Str) (fg bg : RawColor) (h : Hold) : Statement (.showmsg t fg bg h) := reads
theorem flash (t : Str) (fg bg : RawColor) (h : Hold) : Statement (.flash t fg bg h) := reads
theorem hmirror (g : List RGB) : Statement (.hmirror g) := reads
theorem vmirror (g : List RGB) : Statement (.vmirror g) := reads
theorem fliph : Statement .fliph := reads
theorem fliphR : Statement .fliphR := reads
theorem flipv : Statement .flipv := reads
theorem flipvR : Statement .flipvR := reads
theorem getdiag : Statement .getdiag := reads
theorem clrdiag : Statement .clrdiag := reads

end Sys2Proof.Laws.RoundTrip
end

