-- ==== Sys2Proof/Tests/Slice0.lean ====
section
/-! SUPPORT. The writer's own tests.  Expected results are the worked examples and vectors of 95_test_vectors.md (named by
their ids) or are written out from the encodings of 30_encoding.md R55 and R58.  After them, a witness for the hypotheses of
every obligation that has some. -/

namespace Sys2Proof.Tests

open Sys2Proof.Machine

set_option Elab.async false

/-! ### Helpers -/

/-- `rows(...)` with its two colors (30_encoding.md R71). -/
def rowsOf (fg bg : RGB) (hs : List Nat) : List RGB :=
  hs.flatMap fun h => (List.range 8).map fun j => bif h.testBit (7 - j) then fg else bg

def W : RGB := ⟨255, 255, 255⟩

def glyphQ : List RGB := rowsOf W BLACK [0x00, 0x02, 0xB1, 0x09, 0x06]
def glyphA : List RGB := rowsOf W BLACK [0x00, 0x74, 0x54, 0x7C, 0x00]
def glyphSpace : List RGB := rowsOf W BLACK [0x00, 0x00, 0x00, 0x00, 0x00]
def glyphI : List RGB := rowsOf W BLACK [0x00, 0x00, 0x74, 0x00, 0x00]
def glyphQuote : List RGB := rowsOf W BLACK [0x00, 0x03, 0x00, 0x03, 0x00]

/-- The assets of the test font (95_test_vectors.md Part 2). -/
def testAssets : Assets :=
  ⟨some (glyphQ ++ glyphA ++ glyphSpace ++ glyphI ++ glyphQuote), some ['?', 'a', ' ', 'i', '"']⟩

def testFont : FontTable := (loadedTable testAssets).getD []

/-- A READY block with the test font, whose transactions are answered as listed. -/
def ready (io : List IoAnswer) : State := { State.launch [] [] io with life := .ready, ft := testFont }

/-- The same with a rotation and a buffer. -/
def readyAt (q : RotCode) (fb : Memory) (io : List IoAnswer) : State := { ready io with rot := q, fb := fb }

def after : Host.Outcome State Fault Refusal → Option State
  | .next s => some s
  | .fault _ => none
  | .refused _ => none

/-- The slots that hold a word other than zero. -/
def lit (m : Memory) : List Nat :=
  (List.finRange 64).filterMap fun s => if m.word s = 0 then none else some s.val

/-- A fresh command's events and the DIAG it leaves. -/
def seen (o : Host.Outcome State Fault Refusal) : Option (List Event × Byte) :=
  (after o).map fun s => (s.trace, s.diag)

/-- The buffer whose one word other than zero is 0xF800 at the slot (VM4, VM5). -/
def redAt (s : Slot) : Memory := Memory.writeBytes [] (2 * s.val) [0x00, 0xF8]

def raw (r g b : Int) : RawColor := [.int r, .int g, .int b]

/-! ### WellFormed: one ill-formed term for each check, refused -/

theorem test_wf_trim : (Instr.trim (List.replicate 39 BLACK)).wf = false := by decide
theorem test_wf_hmirror : (Instr.hmirror (List.replicate 65 BLACK)).wf = false := by decide
theorem test_wf_vmirror : (Instr.vmirror []).wf = false := by decide

/-! ### Decoding: a written word for every constructor (30_encoding.md R55, R58) -/

theorem test_decode_codec :
    decode ⟨0x00000001, [.int 7, .int (-3), .int 256]⟩ = .ok (.pack 7 (-3) 256) ∧
    decode ⟨0x00000002, [.int 0xF800]⟩ = .ok (.unpack 0xF800) ∧
    decode ⟨0x00000003, [.color [.int 1, .nonint]]⟩ = .ok (.validate [.int 1, .nonint]) := by decide +kernel

theorem test_decode_rotation :
    decode ⟨0x00000010, [.int (-90)]⟩ = .ok (.setrot (-90)) ∧
    decode ⟨0x00000110, [.int 180]⟩ = .ok (.setrotR 180) ∧
    decode ⟨0x00000011, []⟩ = .ok .getrot ∧
    decode ⟨0x00000012, [.int 8, .int 0]⟩ = .ok (.slot 8 0) ∧
    decode ⟨0x00000013, [.int 63]⟩ = .ok (.sloti 63) := by decide +kernel

theorem test_decode_buffer :
    decode ⟨0x00000020, []⟩ = .ok .fbDecode ∧
    decode ⟨0x00000021, [.list [[.int 1]]]⟩ = .ok (.fbEncode [[.int 1]]) ∧
    decode ⟨0x00000022, [.list []]⟩ = .ok (.checkgrid []) ∧
    decode ⟨0x00000023, [.int 7, .int 0]⟩ = .ok (.getpix 7 0) ∧
    decode ⟨0x00000024, [.int 1, .int 0, .color [.int 300]]⟩ = .ok (.setpix 1 0 [.int 300]) := by decide +kernel

theorem test_decode_glyphs : decode ⟨0x00000030, [.str ['a', 'b']]⟩ = .ok (.lookup ['a', 'b']) := by decide +kernel

theorem test_decode_text :
    decode ⟨0x00000040, [.list (List.replicate 40 W.toRaw)]⟩ = .ok (.trim (List.replicate 40 W)) ∧
    decode ⟨0x00000041, [.list [W.toRaw], .color W.toRaw, .color BLACK.toRaw]⟩ = .ok (.recolor [W] W BLACK) ∧
    decode ⟨0x00000042, [.str ['a'], .color W.toRaw, .color BLACK.toRaw]⟩ = .ok (.renderletter ['a'] W BLACK) ∧
    decode ⟨0x00000043, [.str [], .color BLACK.toRaw, .color W.toRaw]⟩ = .ok (.renderstring [] BLACK W) ∧
    decode ⟨0x00000044, [.list [W.toRaw], .int (-8)]⟩ = .ok (.scroll [W] (-8)) := by decide +kernel

theorem test_decode_display :
    decode ⟨0x00000048, [.str ['a'], .color [], .color [.nonint]]⟩ = .ok (.showletter ['a'] [] [.nonint]) ∧
    decode ⟨0x00000049, [.str ['a'], .color [], .color [.int 300], .int 100]⟩ =
      .ok (.showmsg ['a'] [] [.int 300] 100) ∧
    decode ⟨0x0000004A, [.str ['a'], .color [.int 1], .color [], .int 0]⟩ = .ok (.flash ['a'] [.int 1] [] 0) := by
  decide +kernel

theorem test_decode_mirrors :
    decode ⟨0x00000050, [.list (List.replicate 64 W.toRaw)]⟩ = .ok (.hmirror (List.replicate 64 W)) ∧
    decode ⟨0x00000051, [.list (List.replicate 64 W.toRaw)]⟩ = .ok (.vmirror (List.replicate 64 W)) ∧
    decode ⟨0x00000052, []⟩ = .ok .fliph ∧ decode ⟨0x00000152, []⟩ = .ok .fliphR ∧
    decode ⟨0x00000053, []⟩ = .ok .flipv ∧ decode ⟨0x00000153, []⟩ = .ok .flipvR := by decide +kernel

theorem test_decode_diagnostics :
    decode ⟨0x00000060, []⟩ = .ok .getdiag ∧ decode ⟨0x00000061, []⟩ = .ok .clrdiag := by decide +kernel

/-- VE1, VE4, VE5, VE7, VE8, VE9, VE10 and types one value too wide (30_encoding.md R61). -/
theorem test_decode_refuses :
    decode ⟨0x00000000, []⟩ = .error .unknownOpcode ∧ decode ⟨0x00000111, []⟩ = .error .redrawMisused ∧
    decode ⟨0x00000149, []⟩ = .error .redrawMisused ∧ decode ⟨0x00000210, [.int 90]⟩ = .error .reservedBits ∧
    decode ⟨0x80000020, []⟩ = .error .reservedBits ∧ decode ⟨0x00000045, []⟩ = .error .unknownOpcode ∧
    decode ⟨0x000000FF, []⟩ = .error .unknownOpcode ∧ decode ⟨0x00000062, []⟩ = .error .unknownOpcode ∧
    decode ⟨0x00000010, [.str ['x']]⟩ = .error .illTyped ∧ decode ⟨0x00000002, [.int 65536]⟩ = .error .illTyped ∧
    decode ⟨0x00000041, [.list [], .color (raw 256 0 0), .color BLACK.toRaw]⟩ = .error .illTyped ∧
    decode ⟨0x0000004A, [.str [], .color [], .color [], .int (-1)]⟩ = .error .illTyped := by decide +kernel

/-- The words of 30_encoding.md R72, encoded. -/
theorem test_encode :
    (encode (.setrot 0)).word = 0x00000010 ∧ (encode (.setrotR 0)).word = 0x00000110 ∧
    (encode .fliphR).word = 0x00000152 ∧ (encode (.showmsg [] [] [] 0)).word = 0x00000049 := by decide +kernel

/-! ### The assembler (30_encoding.md R70 to R72) -/

/-- P1 line 7, P2 line 5, P3 line 6, with a label and a comment. -/
theorem test_asm_lines :
    Asm.assemble "SETROT -450".toList = some ⟨0x00000010, [.int (-450)]⟩ ∧
    Asm.assemble "x: SETROT.R 0 ; redraw".toList = some ⟨0x00000110, [.int 0]⟩ ∧
    Asm.assemble "FLASH \"ab\", (255,255,255), [0,0,300], 50".toList =
      some ⟨0x0000004A, [.str ['a', 'b'], .color W.toRaw, .color (raw 0 0 300), .int 50]⟩ := by decide +kernel

/-- `rep`, `rows`, a `nonint`, SCROLL's default step, and `.R` where it is not accepted. -/
theorem test_asm_lists :
    Asm.assemble "SCROLL rep(2, (1, 2, 3))".toList = some ⟨0x00000044, [.list [raw 1 2 3, raw 1 2 3], .int 8]⟩ ∧
    Asm.assemble ("ENCODE ".toList ++ [Asm.openBrace] ++ "rows(0x01), [1, ?]".toList ++ [Asm.closeBrace]) =
      some ⟨0x00000021, [.list (List.replicate 7 BLACK.toRaw ++ [W.toRaw, [.int 1, .nonint]])]⟩ ∧
    Asm.assemble "GETROT.R".toList = none := by decide +kernel

/-! ### ColorCodec -/

/-- VC7. -/
theorem test_pack : seen (exec (.pack 128 128 128) (ready [])) = some ([.resp .ok (.word16 0x8410)], 0) := by
  decide +kernel
/-- VC8: some word, no DIAG bit. -/
theorem test_pack_out_of_range :
    (after (exec (.pack 256 0 0) (ready []))).map (fun s => (s.trace.length, s.diag)) = some (1, 0) := by decide +kernel
/-- VC13. -/
theorem test_unpack : seen (exec (.unpack 0x1234) (ready [])) = some ([.resp .ok (.rgb ⟨16, 68, 160⟩)], 0) := by
  decide +kernel
/-- VC16. -/
theorem test_validate : seen (exec (.validate (raw 1 2 3)) (ready [])) = some ([.resp .ok (.rgb ⟨1, 2, 3⟩)], 0) := by
  decide +kernel
/-- VC20. -/
theorem test_validate_nonint :
    seen (exec (.validate [.int 1, .nonint, .int 3]) (ready [])) = some ([.resp .ok (.rgb BLACK)], 0x01) := by
  decide +kernel

/-! ### RotationTransform -/

/-- VR1. -/
theorem test_normalise :
    [0, 90, 180, 270, 360, 450, 720, 45, -1, -45, -90, -180, -270, -360, -450, -720].map normalise =
      [some 0, some 1, some 2, some 3, none, none, none, none, none, none, some 3, some 2, some 1, some 0, some 3,
        some 0] := by decide +kernel
/-- VR2. -/
theorem test_setrot :
    (after (exec (.setrot (-450)) (ready []))).map (fun s => (s.rot, s.diag)) = some (3, 0) ∧
    (after (exec (.setrot 360) (ready []))).map (fun s => (s.rot, s.diag)) = some (0, 0x08) := by decide +kernel
/-- VR7: the word 0x1234 moves from slot 5 to slot 58. -/
theorem test_setrotR :
    (after (exec (.setrotR 180) (readyAt 0 (Memory.writeBytes [] 10 [0x34, 0x12]) [.ok, .ok]))).map
      (fun s => (s.rot, lit s.fb, s.fb.word 58)) = some (2, [58], 0x1234) := by decide +kernel
/-- VR7: a failed read and a failed write. -/
theorem test_setrotR_fail :
    (after (exec (.setrotR 180) (ready [.fail]))).map (fun s => (s.rot, s.trace)) =
      some (0, [.fbRead 0 128 .fail, .resp .ioerr .none]) ∧
    (after (exec (.setrotR 180) (ready [.ok, .fail]))).map (fun s => s.rot) = some 2 := by decide +kernel
/-- VR6. -/
theorem test_getrot : seen (exec .getrot (readyAt 3 [] [])) = some ([.resp .ok (.angle 270)], 0) := by decide +kernel
/-- VR3, and a bad coordinate of VR5. -/
theorem test_slot :
    seen (exec (.slot 3 5) (readyAt 1 [] [])) = some ([.resp .ok (.slot (some 37))], 0) ∧
    seen (exec (.slot 0 (-1)) (readyAt 1 [] [])) = some ([.resp .ok (.slot none)], 0x04) := by decide +kernel
/-- VR4, and a bad index of VR5. -/
theorem test_sloti :
    seen (exec (.sloti 10) (readyAt 3 [] [])) = some ([.resp .ok (.slot (some 22))], 0) ∧
    seen (exec (.sloti 64) (readyAt 3 [] [])) = some ([.resp .ok (.slot none)], 0x04) := by decide +kernel
/-- `NONE` is 0xFF as a byte (30_encoding.md R69); the status codes (R68). -/
theorem test_codes : slotByte none = 0xFF ∧ slotByte (some 63) = 63 ∧ Status.code .notReady = 3 := by decide

/-! ### PixelBuffer -/

/-- VB6. -/
theorem test_fbDecode :
    seen (exec .fbDecode (readyAt 1 (Memory.writeBytes (redAt 0) 18 [0xE0, 0x07]) [.ok])) =
      some ([.fbRead 0 128 .ok, .resp .ok (.grid (List.replicate 7 BLACK ++ [⟨248, 0, 0⟩] ++ List.replicate 6 BLACK ++
        [⟨0, 252, 0⟩] ++ List.replicate 49 BLACK))], 0) := by decide +kernel
/-- VB1: element 9 under code 3, and VB3: a grid of 65 bad colors sets BAD_GRID_LEN alone. -/
theorem test_fbEncode :
    (after (exec (.fbEncode (List.replicate 9 BLACK.toRaw ++ [raw 255 0 0] ++ List.replicate 54 BLACK.toRaw))
      (readyAt 3 [] [.ok]))).map (fun s => (lit s.fb, s.fb.read 28, s.fb.read 29, s.diag)) =
        some ([14], 0x00, 0xF8, 0) ∧
    (after (exec (.fbEncode (List.replicate 65 (raw 300 0 0))) (readyAt 0 (redAt 5) [.ok]))).map
      (fun s => (s.fb, s.diag)) = some ([], 0x02) := by decide +kernel
/-- VB8. -/
theorem test_checkgrid :
    seen (exec (.checkgrid ([raw 1 2 3, [.int 9, .int 9]] ++ List.replicate 62 BLACK.toRaw)) (ready [])) =
      some ([.resp .ok (.grid (⟨1, 2, 3⟩ :: List.replicate 63 BLACK))], 0x01) := by decide +kernel
/-- VB9. -/
theorem test_getpix :
    seen (exec (.getpix 0 0) (readyAt 1 (Memory.writeBytes [] 112 [0xE0, 0x07]) [.ok])) =
      some ([.fbRead 112 2 .ok, .resp .ok (.rgb ⟨0, 252, 0⟩)], 0) ∧
    seen (exec (.getpix 8 0) (ready [])) = some ([.resp .ok (.rgb BLACK)], 0x04) := by decide +kernel
/-- VB11, and VB10's color and coordinate both bad. -/
theorem test_setpix :
    seen (exec (.setpix 0 0 (raw 0 0 255)) (readyAt 3 [] [.ok])) =
      some ([.fbWrite 14 [0x1F, 0x00] none .ok, .resp .ok .none], 0) ∧
    seen (exec (.setpix 8 0 [.int 300]) (ready [])) = some ([.resp .ok .none], 0x05) := by decide +kernel

/-! ### GlyphStore -/

/-- VG6 to VG10. -/
theorem test_load :
    (fontLoad testAssets State.reset).life = .ready ∧
    (fontLoad ⟨some (List.replicate 120 BLACK), some ['?', 'a']⟩ State.reset).life = .failed ∧
    (fontLoad ⟨some (List.replicate 120 BLACK), some ['?', 'a', 'a']⟩ State.reset).life = .failed ∧
    (fontLoad ⟨some (List.replicate 80 BLACK), some ['a', 'b']⟩ State.reset).life = .failed ∧
    (fontLoad ⟨none, some ['?']⟩ State.reset).life = .failed := by decide +kernel
/-- VG1, VG3, VG4. -/
theorem test_lookup :
    seen (exec (.lookup ['a']) (ready [])) = some ([.resp .ok (.glyph glyphA)], 0) ∧
    lookup testFont ['b'] = glyphQ ∧ lookup testFont [] = glyphQ ∧ lookup testFont ['a', 'b'] = glyphQ := by decide +kernel

/-! ### TextRenderer -/

/-- VT1. -/
theorem test_trim :
    seen (exec (.trim glyphQuote) (ready [])) = some ([.resp .ok (.pixels (rowsOf W BLACK [0x03, 0x00, 0x03]))], 0) ∧
    trim glyphSpace = glyphSpace ∧ trim glyphI = rowsOf W BLACK [0x74] := by decide +kernel
/-- VT2. -/
theorem test_recolor :
    seen (exec (.recolor [BLACK, ⟨9, 9, 9⟩, ⟨0, 0, 1⟩] ⟨248, 252, 248⟩ BLACK) (ready [])) =
      some ([.resp .ok (.pixels [BLACK, ⟨248, 252, 248⟩, ⟨248, 252, 248⟩])], 0) := by decide +kernel
/-- VT5. -/
theorem test_renderletter :
    seen (exec (.renderletter ['a'] ⟨248, 252, 248⟩ BLACK) (ready [])) =
      some ([.resp .ok (.grid (rowsOf ⟨248, 252, 248⟩ BLACK [0x00, 0x00, 0x74, 0x54, 0x7C, 0x00, 0x00, 0x00]))], 0) := by
  decide +kernel
/-- VT6. -/
theorem test_renderstring :
    seen (exec (.renderstring ['a', '?'] W BLACK) (ready [])) =
      some ([.resp .ok (.pixels (rowsOf W BLACK
        [0x00, 0x74, 0x54, 0x7C, 0x00, 0x00, 0x02, 0xB1, 0x09, 0x06, 0x00, 0x00, 0x00]))], 0) := by decide +kernel
/-- VT6: frame 3 of the text; VT4: the counts. -/
theorem test_scroll :
    (scroll (renderString testFont ['a', '?'] W BLACK) 8)[3]? =
      some (rowsOf W BLACK [0x7C, 0x00, 0x00, 0x02, 0xB1, 0x09, 0x06, 0x00]) ∧
    (scroll (List.replicate 104 BLACK) 16).length = 3 ∧ (scroll (List.replicate 63 BLACK) 8).length = 0 ∧
    (scroll (List.replicate 64 BLACK) 1).length = 1 := by decide +kernel
/-- VT4, VE13, VE14. -/
theorem test_scroll_refused :
    seen (exec (.scroll (List.replicate 64 BLACK) 0) (ready [])) = some ([.resp .refused .none], 0) ∧
    seen (exec (.scroll (List.replicate 64 BLACK) 0) State.reset) = some ([.resp .notReady .none], 0) := by decide +kernel
/-- VT7. -/
theorem test_showletter :
    (after (exec (.showletter ['a'] (raw 248 252 248) (raw 0 0 0)) (ready [.ok]))).map
      (fun s => (s.rot, s.diag, lit s.fb)) =
        some (0, 0, [18, 19, 20, 28, 34, 35, 36, 42, 44, 50, 51, 52]) := by decide +kernel
/-- VT13, VT12. -/
theorem test_showletter_bad :
    (after (exec (.showletter ['a'] W.toRaw BLACK.toRaw) (readyAt 2 [] [.fail]))).map
      (fun s => (s.rot, s.trace.getLast?)) = some (2, some (.resp .ioerr .none)) ∧
    (after (exec (.showletter ['i'] (raw 300 0 0) BLACK.toRaw) (ready [.ok]))).map (fun s => (s.fb, s.diag)) =
      some ([], 0x01) := by decide +kernel
/-- VT9: six frames; VT10: none. -/
theorem test_showmsg :
    (after (exec (.showmsg ['a', '?'] W.toRaw BLACK.toRaw 100) (ready (List.replicate 6 .ok)))).map
      (fun s => (s.trace.length, s.rot, s.io, s.frameIdx)) = some (7, 0, [], none) ∧
    (after (exec (.showmsg ['a'] W.toRaw BLACK.toRaw 100) (ready []))).map (fun s => (s.trace, s.rot)) =
      some ([.resp .ok .none], 0) := by decide +kernel
/-- P3 line 3: the fourth write fails. -/
theorem test_showmsg_fail :
    (after (exec (.showmsg ['a', '?'] W.toRaw BLACK.toRaw 100) (ready [.ok, .ok, .ok, .fail, .ok]))).map
      (fun s => (s.trace.length, s.rot, s.io, s.trace.getLast?)) =
        some (5, 0, [.ok], some (.resp .ioerr .none)) := by decide +kernel
/-- VT11, P3 line 6. -/
theorem test_flash :
    (after (exec (.flash ['a', 'b'] W.toRaw (raw 0 0 300) 50) (ready [.ok, .ok]))).map
      (fun s => (s.trace.length, s.diag, lit s.fb)) =
        some (3, 0x01, [3, 4, 10, 13, 21, 28, 35, 43, 59]) := by decide +kernel

/-! ### MirrorOps -/

/-- VM2. -/
theorem test_hmirror :
    seen (exec (.hmirror (⟨255, 0, 0⟩ :: List.replicate 63 BLACK)) (ready [])) =
      some ([.resp .ok (.grid (List.replicate 7 BLACK ++ [⟨255, 0, 0⟩] ++ List.replicate 56 BLACK))], 0) := by
  decide +kernel
/-- VM2. -/
theorem test_vmirror :
    seen (exec (.vmirror (⟨255, 0, 0⟩ :: List.replicate 63 BLACK)) (ready [])) =
      some ([.resp .ok (.grid (List.replicate 56 BLACK ++ [⟨255, 0, 0⟩] ++ List.replicate 7 BLACK))], 0) := by
  decide +kernel
/-- VM4. -/
theorem test_fliph :
    (after (exec .fliph (readyAt 0 (redAt 0) [.ok]))).map (fun s => (s.fb, s.trace)) =
      some (redAt 0, [.fbRead 0 128 .ok,
        .resp .ok (.grid (List.replicate 7 BLACK ++ [⟨248, 0, 0⟩] ++ List.replicate 56 BLACK))]) := by decide +kernel
/-- VM4, VM5. -/
theorem test_fliphR :
    (after (exec .fliphR (readyAt 0 (redAt 0) [.ok, .ok]))).map (fun s => lit s.fb) = some [7] ∧
    (after (exec .fliphR (readyAt 2 (redAt 63) [.ok, .ok]))).map (fun s => lit s.fb) = some [56] := by decide +kernel
/-- P4 line 3's mirror, without redraw. -/
theorem test_flipv :
    (after (exec .flipv (readyAt 0 (redAt 7) [.ok]))).map (fun s => (s.fb, s.trace)) =
      some (redAt 7, [.fbRead 0 128 .ok,
        .resp .ok (.grid (List.replicate 63 BLACK ++ [⟨248, 0, 0⟩]))]) := by decide +kernel
/-- VM4. -/
theorem test_flipvR :
    (after (exec .flipvR (readyAt 0 (redAt 0) [.ok, .ok]))).map (fun s => lit s.fb) = some [56] := by decide +kernel

/-! ### Diagnostics -/

/-- VD1. -/
theorem test_getdiag :
    seen (exec .getdiag { ready [] with diag := 0x09 }) = some ([.resp .ok (.byte 0x09)], 0x09) := by decide +kernel
/-- VD3. -/
theorem test_clrdiag :
    seen (exec .clrdiag { ready [] with diag := 0x0F }) = some ([.resp .ok .none], 0x00) := by decide +kernel

/-! ### The step -/

/-- VE3, VE12, VE11 through the step. -/
theorem test_step_commands :
    (after (step { readyAt 0 (redAt 0) [.ok, .ok] with inbox := [.command ⟨0x00000110, [.int 90]⟩] })).map
      (fun s => (s.rot, s.inbox, lit s.fb)) = some (1, [], [56]) ∧
    seen (step { State.reset with life := .failed, inbox := [.command ⟨0x00000000, []⟩] }) =
      some ([.resp .refused .none], 0) ∧
    seen (step { State.reset with inbox := [.command ⟨0x00000011, []⟩] }) = some ([.resp .notReady .none], 0) := by
  decide +kernel

/-- The host's fixed names: a table word decodes, and is the first instruction after reset. -/
theorem test_fetch_word :
    decodeTableWord 32 0x00000152 = some .fliphR ∧ decodeTableWord 32 0x00000111 = none ∧
    (after (step (State.reset.withFetchWord 32 0x00000011))).map (fun s => s.trace) =
      some [.resp .ok (.angle 0)] := by decide +kernel

/-! ### Witnesses: the hypotheses of each obligation met together, for each clause and at the ends of its ranges -/

theorem testFont_legal : ftLegal .ready testFont = true := by decide +kernel

theorem ready_legal (io : List IoAnswer) : (ready io).Legal := by
  have hl : (ready io).life = .ready := rfl
  have hf : (ready io).ft = testFont := by simp only [ready]
  refine ⟨rfl, ?_, ?_, rfl⟩
  · simp [ready, State.launch]
  · rw [hl, hf, testFont_legal]

/-- The block with something presented. -/
def presented (i : Input) : State := { ready [] with inbox := [i] }

theorem presented_legal (i : Input) : (presented i).Legal := by
  obtain ⟨h1, h2, h3, h4⟩ := ready_legal []
  unfold State.Legal
  simp only [presented]
  exact ⟨h1, h2, h3, h4⟩

/-- A grid of 64 valid colors. -/
def validGrid : RawGrid := List.replicate 64 (raw 255 0 0)

theorem witness_DecodeOfEncode :
    (Instr.pack (-1) 0 256).wf = true ∧ (Instr.trim glyphA).wf = true ∧ (Instr.hmirror (List.replicate 64 W)).wf = true := by
  decide +kernel

theorem witness_EncodeOfDecode : decode ⟨0x00000010, [.int 90]⟩ = .ok (.setrot 90) := by decide +kernel

/-- Bits 9 and 31; OP 0x00 and 0xFF; R on 0x11. -/
theorem witness_IllegalWordsAreRefused :
    (presented (.command ⟨0x80000220, []⟩)).inbox = [.command ⟨0x80000220, []⟩] ∧
    (0x00000210 : Word32).getLsbD 9 = true ∧ (0x80000020 : Word32).getLsbD 31 = true ∧
    (0x00000000 : Word32).toNat % 256 = 0x00 ∧ (0x000000FF : Word32).toNat % 256 = 0xFF ∧
    (0x00000111 : Word32).getLsbD 8 = true ∧ (0x00000111 : Word32).toNat % 256 = 0x11 := by decide +kernel

/-- Ill-typed and well-typed, without and with `R`. -/
theorem witness_TuplesAreTypedByTheTable :
    (presented (.command ⟨encodeWord .setrot true, [.int 0]⟩)).inbox = [.command ⟨encodeWord .setrot true, [.int 0]⟩] ∧
    admitsAll Opcode.setrot.signature [.str ['x']] = false ∧ admitsAll Opcode.setrot.signature [] = false ∧
    admitsAll Opcode.setrot.signature [.int 0] = true ∧ admitsAll Opcode.unpack.signature [.int 65535] = true ∧
    admitsAll Opcode.unpack.signature [.int 65536] = false := by decide +kernel

theorem witness_StepRunsTheDecodedCommand :
    (presented (.command ⟨0x00000060, []⟩)).inbox = [.command ⟨0x00000060, []⟩] ∧
    decode ⟨0x00000060, []⟩ = .ok .getdiag := by decide +kernel

/-- With and without a label, with and without `R`; SCROLL with one operand and with two. -/
theorem witness_AssembledWordsAreLegal :
    Asm.assemble "FLIPV.R".toList = some ⟨0x00000153, []⟩ ∧
    Asm.lex .idle "x: CLRDIAG".toList = some [.word ['x'], .sym ':', .word "CLRDIAG".toList] ∧
    Asm.assemble "x: CLRDIAG".toList = some ⟨0x00000061, []⟩ ∧
    Asm.assemble "SCROLL rep(1, (0,0,0)), 2".toList = some ⟨0x00000044, [.list [BLACK.toRaw], .int 2]⟩ ∧
    Asm.assemble "SCROLL rep(1, (0,0,0))".toList = some ⟨0x00000044, [.list [BLACK.toRaw], .int 8]⟩ := by decide +kernel

theorem witness_IllTypedTermsAreRefused : (Instr.trim []).wf = false ∧ (Instr.vmirror glyphA).wf = false := by
  decide +kernel

theorem witness_NotReadyServesNothing :
    Instr.getrot.wf = true ∧ State.reset.life ≠ .ready ∧ ({ State.reset with life := .failed } : State).life ≠ .ready := by
  decide

theorem witness_PackAnswersTheWord :
    (ready []).life = .ready ∧ ((0 : Int) ≤ 0 ∧ (0 : Int) ≤ 255) ∧ ((0 : Int) ≤ 255 ∧ (255 : Int) ≤ 255) := by
  decide +kernel

theorem witness_PackOutOfRangeAnswersSomeWord :
    (ready []).life = .ready ∧ ¬((0 ≤ (256 : Int) ∧ (256 : Int) ≤ 255) ∧ (0 ≤ (0 : Int) ∧ (0 : Int) ≤ 255) ∧ 0 ≤ (0 : Int) ∧ (0 : Int) ≤ 255) ∧
    ¬((0 ≤ (0 : Int) ∧ (0 : Int) ≤ 255) ∧ (0 ≤ (0 : Int) ∧ (0 : Int) ≤ 255) ∧ 0 ≤ (-1 : Int) ∧ (-1 : Int) ≤ 255) := by decide +kernel

theorem witness_UnpackAnswersTheColor : (ready []).life = .ready := rfl

/-- A color that passes, one channel too high, one component too few. -/
theorem witness_ValidateFailsClosed :
    (ready []).life = .ready ∧
    (raw 255 0 255 = [.int (255 : Byte).toNat, .int (0 : Byte).toNat, .int (255 : Byte).toNat]) ∧
    (¬∃ r g b : Int, raw 256 0 0 = [.int r, .int g, .int b] ∧ (0 ≤ r ∧ r ≤ 255) ∧ (0 ≤ g ∧ g ≤ 255) ∧ (0 ≤ b ∧ b ≤ 255)) ∧
    (¬∃ r g b : Int, [Comp.int 1, .int 2] = [.int r, .int g, .int b] ∧ (0 ≤ r ∧ r ≤ 255) ∧ (0 ≤ g ∧ g ≤ 255) ∧
      (0 ≤ b ∧ b ≤ 255)) := by
  refine ⟨rfl, rfl, ?_, ?_⟩
  · rintro ⟨r, g, b, h, hr, -⟩
    simp only [raw, List.cons.injEq, Comp.int.injEq] at h
    omega
  · rintro ⟨r, g, b, h, -⟩
    simp at h

theorem witness_SetrotCommitsOrRejects :
    (ready []).life = .ready ∧ normalise (-450) = some 3 ∧ normalise 0 = some 0 ∧ normalise 360 = none := by decide +kernel

theorem witness_SetrotRedrawMovesThePicture :
    (readyAt 0 (redAt 5) [.ok, .ok]).life = .ready ∧ (readyAt 0 (redAt 5) [.ok, .ok]).fb.wf = true ∧
    normalise 45 = none ∧ normalise 270 = some 3 ∧ (ready [.fail]).io = .fail :: [] ∧
    (ready [.ok, .ok]).io = .ok :: .ok :: [] ∧ (ready [.ok, .fail]).io = .ok :: .fail :: [] := by decide +kernel

theorem witness_GetrotAnswersDegrees : (readyAt 3 [] []).life = .ready := rfl

/-- The ends of 0..7, and just outside. -/
theorem witness_SlotOfACoordinate :
    (ready []).life = .ready ∧ ((0 ≤ (0 : Int) ∧ (0 : Int) ≤ 7) ∧ (0 ≤ (7 : Int) ∧ (7 : Int) ≤ 7)) ∧
    ¬((0 ≤ (8 : Int) ∧ (8 : Int) ≤ 7) ∧ (0 ≤ (0 : Int) ∧ (0 : Int) ≤ 7)) ∧
    ¬((0 ≤ (0 : Int) ∧ (0 : Int) ≤ 7) ∧ (0 ≤ (-1 : Int) ∧ (-1 : Int) ≤ 7)) := by decide +kernel

/-- The ends of 0..63, and just outside. -/
theorem witness_SlotOfAnIndex :
    (ready []).life = .ready ∧ (0 ≤ (63 : Int) ∧ (63 : Int) ≤ 63) ∧ ¬(0 ≤ (64 : Int) ∧ (64 : Int) ≤ 63) ∧
    ¬(0 ≤ (-1 : Int) ∧ (-1 : Int) ≤ 63) := by decide +kernel

theorem witness_SlotsAreHitExactlyOnce : (readyAt 2 [] []).life = .ready := rfl

theorem witness_DecodeAnswersTheGrid :
    (ready [.ok]).life = .ready ∧ (ready [.ok]).io = .ok :: [] ∧ (ready [.fail]).io = .fail :: [] := by decide +kernel

theorem witness_EncodeWritesTheGrid :
    (ready [.ok]).life = .ready ∧ (ready [.ok]).fb.wf = true ∧ (ready [.ok]).io = .ok :: [] ∧
    (ready [.fail]).io = .fail :: [] ∧ validGrid.length = 64 ∧ validGrid[63]? = some (raw 255 0 0) ∧
    (List.replicate 63 (raw 1 2 3)).length ≠ 64 ∧ (List.replicate 65 (raw 1 2 3)).length ≠ 64 := by decide +kernel

theorem witness_CheckgridAnswersTheGuardedGrid :
    (ready []).life = .ready ∧ validGrid.length = 64 ∧ ([] : RawGrid).length ≠ 64 := by decide +kernel

theorem witness_GetpixReadsOnePixel :
    (ready [.ok]).life = .ready ∧ ¬((0 ≤ (8 : Int) ∧ (8 : Int) ≤ 7) ∧ (0 ≤ (0 : Int) ∧ (0 : Int) ≤ 7)) ∧
    (ready [.ok]).io = .ok :: [] ∧ (ready [.fail]).io = .fail :: [] := by decide +kernel

theorem witness_SetpixWritesOnePixel :
    (ready [.ok]).life = .ready ∧ (ready [.ok]).fb.wf = true ∧
    ¬((0 ≤ (0 : Int) ∧ (0 : Int) ≤ 7) ∧ (0 ≤ (-1 : Int) ∧ (-1 : Int) ≤ 7)) ∧
    (ready [.ok]).io = .ok :: [] ∧ (ready [.fail]).io = .fail :: [] := by decide +kernel

theorem witness_GridCodecLaws :
    (List.replicate 64 (⟨248, 252, 248⟩ : RGB)).length = 64 ∧
    ((⟨248, 252, 248⟩ : RGB).r.toNat % 8 = 0 ∧ (⟨248, 252, 248⟩ : RGB).g.toNat % 4 = 0 ∧
      (⟨248, 252, 248⟩ : RGB).b.toNat % 8 = 0) ∧
    (List.replicate 128 (0xFF : Byte)).length = 128 ∧ ([] : RawGrid).length ≠ 64 := by decide +kernel

theorem witness_DecodeReadsWhatEncodeWrote :
    (ready [.ok, .ok]).life = .ready ∧ (ready [.ok, .ok]).fb.wf = true ∧ (List.replicate 64 W).length = 64 ∧
    (ready [.ok, .ok]).io = .ok :: .ok :: [] ∧
    ∃ t, exec (.fbEncode ((List.replicate 64 W).map RGB.toRaw)) (ready [.ok, .ok]) = .next t :=
  ⟨rfl, rfl, by simp, rfl, exec_goes _ _⟩

/-- Assets that load, and assets of a wrong count. -/
theorem witness_FontLoadDecidesTheLife :
    State.reset.life = .init ∧
    testAssets.strip = some (glyphQ ++ glyphA ++ glyphSpace ++ glyphI ++ glyphQuote) ∧
    testAssets.chars = some ['?', 'a', ' ', 'i', '"'] ∧
    (glyphQ ++ glyphA ++ glyphSpace ++ glyphI ++ glyphQuote).length = 40 * ['?', 'a', ' ', 'i', '"'].length ∧
    ['?', 'a', ' ', 'i', '"'].Nodup ∧ '?' ∈ ['?', 'a', ' ', 'i', '"'] ∧ 'b' ∉ ['?', 'a', ' ', 'i', '"'] ∧
    loadedTable ⟨some [], some ['?']⟩ = none := by decide +kernel

theorem witness_DeliveredAssetsRunTheLoad :
    ({ State.reset with inbox := [.assets testAssets] } : State).inbox = .assets testAssets :: [] ∧
    ({ State.reset with inbox := [.assets testAssets] } : State).life = .init ∧
    (presented (.assets testAssets)).inbox = .assets testAssets :: [] ∧
    (presented (.assets testAssets)).life ≠ .init := by decide +kernel

/-- A hit, a character not in the font, and strings that are not one character. -/
theorem witness_LookupFallsBackToQuestionMark :
    (ready []).life = .ready ∧ FontTable.find? (ready []).ft '?' = some glyphQ ∧
    FontTable.find? (ready []).ft 'a' = some glyphA ∧ FontTable.find? (ready []).ft 'b' = none ∧
    ∀ c, ['a', 'b'] = [c] → FontTable.find? (ready []).ft c = none := by
  refine ⟨rfl, by decide +kernel, by decide +kernel, by decide +kernel, fun c h => ?_⟩
  simp at h

/-- A glyph with ink, and an all-black one. -/
theorem witness_TrimKeepsTheInkRows :
    (ready []).life = .ready ∧ glyphA.length = 40 ∧ (∃ c ∈ glyphA, c ≠ BLACK) ∧ glyphSpace.length = 40 ∧
    ∀ c ∈ glyphSpace, c = BLACK := by decide +kernel

theorem witness_RecolorMapsEachPixel :
    (ready []).life = .ready ∧ [BLACK, W][0]? = some BLACK ∧ [BLACK, W][1]? = some W ∧ W ≠ BLACK := by decide +kernel

theorem witness_RenderletterFramesTheGlyph :
    (ready []).life = .ready ∧ (ready []).Legal ∧ (lookup (ready []).ft ['a'])[9]? = some W ∧
    (lookup (ready []).ft ['a'])[39]? = some BLACK :=
  ⟨rfl, ready_legal _, by decide +kernel, by decide +kernel⟩

theorem witness_RenderstringJoinsThePieces :
    (ready []).life = .ready ∧ ['a', '?'] = [] ++ 'a' :: ['?'] ∧ ['a', '?'] = ['a'] ++ '?' :: [] := ⟨rfl, rfl, rfl⟩

/-- Steps 0 and 1. -/
theorem witness_ScrollCutsTheFrames :
    (ready []).life = .ready ∧ (0 : Int) ≤ 0 ∧ (1 : Int) ≤ 1 ∧
    (scroll (List.replicate 64 BLACK) 1)[0]? = some (List.replicate 64 BLACK) := by decide +kernel

theorem witness_ShowletterDisplaysTheLetter :
    (ready [.ok]).life = .ready ∧ (ready [.ok]).Legal ∧ (ready [.ok]).io = .ok :: [] ∧ (ready [.fail]).Legal ∧
    (ready [.fail]).io = .fail :: [] ∧
    (renderLetter (ready [.ok]).ft ['a'] W.toRaw BLACK.toRaw)[8 * 7 + 7]? = some BLACK.toRaw :=
  ⟨rfl, ready_legal _, rfl, ready_legal _, rfl, by decide +kernel⟩

/-- The six frames of VT6, every write `ok`; no frame; the fourth write failed (P3). -/
theorem witness_ShowmsgScrollsTheText :
    (ready []).life = .ready ∧ (∀ io, (ready io).Legal) ∧
    (scroll (renderString testFont ['a', '?'] W.toRaw BLACK.toRaw) 8).length = 6 ∧
    (ready (List.replicate 6 .ok)).io = List.replicate 6 .ok ++ [] ∧
    scroll (renderString testFont ['a'] W.toRaw BLACK.toRaw) 8 = [] ∧
    (∃ pre f post, scroll (renderString testFont ['a', '?'] W.toRaw BLACK.toRaw) 8 = pre ++ f :: post ∧ pre.length = 3) ∧
    (ready [.ok, .ok, .ok, .fail]).io = List.replicate 3 .ok ++ .fail :: [] := by
  refine ⟨rfl, ready_legal, by decide +kernel, rfl, by decide +kernel, ?_, rfl⟩
  generalize h : scroll (renderString testFont ['a', '?'] W.toRaw BLACK.toRaw) 8 = fs
  have h6 : fs.length = 6 := by rw [← h]; decide +kernel
  rcases fs with _ | ⟨f0, _ | ⟨f1, _ | ⟨f2, _ | ⟨f3, fs⟩⟩⟩⟩
  · simp at h6
  · simp at h6
  · simp at h6
  · simp at h6
  · exact ⟨[f0, f1, f2], f3, fs, rfl, rfl⟩

theorem witness_FlashShowsEveryLetter :
    (ready [.ok, .ok]).life = .ready ∧ (∀ io, (ready io).Legal) ∧
    (ready [.ok, .ok]).io = List.replicate ['a', 'b'].length .ok ++ [] ∧
    (∃ f post, (['a', 'b'].map fun c => renderLetter testFont [c] W.toRaw BLACK.toRaw) = [] ++ f :: post) ∧
    (ready [.fail]).io = List.replicate ([] : List RawGrid).length .ok ++ .fail :: [] :=
  ⟨rfl, ready_legal, rfl, ⟨_, _, rfl⟩, rfl⟩

theorem witness_MirrorsAnswerTheMirroredGrid :
    (ready []).life = .ready ∧ (List.replicate 64 W).length = 64 := by decide +kernel

theorem witness_MirrorLaws :
    (List.replicate 64 W).length = 64 ∧ (readyAt 0 (redAt 0) [.ok, .ok, .ok, .ok]).life = .ready ∧
    (readyAt 0 (redAt 0) [.ok, .ok, .ok, .ok]).fb.wf = true ∧
    (readyAt 0 (redAt 0) [.ok, .ok, .ok, .ok]).io = .ok :: .ok :: .ok :: .ok :: [] ∧
    ∃ t u, exec .fliphR (readyAt 0 (redAt 0) [.ok, .ok, .ok, .ok]) = .next t ∧ exec .fliphR t = .next u := by
  refine ⟨by simp, rfl, by decide +kernel, rfl, ?_⟩
  obtain ⟨t, ht⟩ := exec_goes .fliphR (readyAt 0 (redAt 0) [.ok, .ok, .ok, .ok])
  obtain ⟨u, hu⟩ := exec_goes .fliphR t
  exact ⟨t, u, ht, hu⟩

/-- For FLIPH and FLIPV alike: a failed read, a read, a read and a write, a read and a failed write. -/
theorem witness_FliphMirrorsThePicture :
    (readyAt 0 (redAt 0) []).life = .ready ∧ (readyAt 0 (redAt 0) []).fb.wf = true ∧
    (readyAt 0 (redAt 0) [.fail]).io = .fail :: [] ∧ (readyAt 0 (redAt 0) [.ok]).io = .ok :: [] ∧
    (readyAt 0 (redAt 0) [.ok, .ok]).io = .ok :: .ok :: [] ∧
    (readyAt 0 (redAt 0) [.ok, .fail]).io = .ok :: .fail :: [] := by decide +kernel

theorem witness_FlipvMirrorsThePicture :
    (readyAt 3 (redAt 63) []).life = .ready ∧ (readyAt 3 (redAt 63) []).fb.wf = true ∧
    (readyAt 3 (redAt 63) [.fail]).io = .fail :: [] ∧ (readyAt 3 (redAt 63) [.ok]).io = .ok :: [] ∧
    (readyAt 3 (redAt 63) [.ok, .ok]).io = .ok :: .ok :: [] ∧
    (readyAt 3 (redAt 63) [.ok, .fail]).io = .ok :: .fail :: [] := by decide +kernel

theorem witness_DiagIsReadAndCleared : (ready []).life = .ready ∧ (ready []).Legal := ⟨rfl, ready_legal _⟩

theorem witness_ResetLeavesTheResetValues : (presented .reset).inbox = .reset :: [] := rfl

theorem witness_ResetIsLegal : (redAt 63).wf = true := by decide +kernel

/-- A step of every kind from a legal state. -/
theorem witness_StepKeepsLegal :
    (∀ i, (presented i).Legal) ∧ (∃ t, step (presented (.command ⟨0x00000010, [.int 90]⟩)) = .next t) ∧
    (∃ t, step (presented (.hostWrite 127 0xFF)) = .next t) ∧ (∃ t, step (presented .reset) = .next t) ∧
    ∃ t, step (presented (.assets testAssets)) = .next t :=
  ⟨fun _ => presented_legal _, ⟨_, rfl⟩, ⟨_, rfl⟩, ⟨_, rfl⟩, ⟨_, rfl⟩⟩

theorem witness_EveryCommandHasOneResponse :
    (presented (.command ⟨0x00000000, []⟩)).inbox = .command ⟨0x00000000, []⟩ :: [] := rfl

theorem witness_DiagBitsAreSticky :
    (∃ t, exec (.setrot 45) (ready []) = .next t) ∧ Instr.setrot 45 ≠ .clrdiag ∧
    (∃ t, exec .clrdiag (ready []) = .next t) ∧ (ready []).diag.extractLsb' 4 4 = 0 :=
  ⟨⟨_, rfl⟩, by decide, ⟨_, rfl⟩, by decide +kernel⟩

theorem witness_OnlySetrotMovesTheRotation :
    (∀ a, Instr.showletter ['a'] [] [] ≠ .setrot a ∧ Instr.showletter ['a'] [] [] ≠ .setrotR a) ∧
    ∃ t, exec (.showletter ['a'] [] []) (readyAt 2 [] [.fail]) = .next t :=
  ⟨fun _ => ⟨nofun, nofun⟩, exec_goes _ _⟩

theorem witness_FontStaysUntilReset :
    (presented (.assets testAssets)).life = .ready ∧ (presented (.assets testAssets)).inbox.head? ≠ some .reset ∧
    ∃ t, step (presented (.assets testAssets)) = .next t :=
  ⟨rfl, by simp [presented], ⟨_, rfl⟩⟩

theorem witness_DiagDecidesNothing :
    Instr.clrdiag ≠ .getdiag ∧ (∃ t, exec .clrdiag (ready []) = .next t) ∧
    ∃ u, exec .clrdiag { ready [] with diag := 0x0F } = .next u := ⟨nofun, ⟨_, rfl⟩, ⟨_, rfl⟩⟩

theorem witness_CommandsWithoutTransactions :
    (Instr.slot 8 0).opcode ∈ [Opcode.pack, .slot] ∧ (∃ a, Instr.setrot 45 = .setrot a) ∧
    (∃ t, exec (.slot 8 0) (ready []) = .next t) ∧ ∃ t, exec (.setrot 45) (ready []) = .next t :=
  ⟨by decide, ⟨_, rfl⟩, ⟨_, rfl⟩, ⟨_, rfl⟩⟩

/-- Offsets 127 and 128. -/
theorem witness_HostWriteChangesOneByte :
    (presented (.hostWrite 127 0xFF)).inbox = .hostWrite 127 0xFF :: [] ∧ (presented (.hostWrite 127 0xFF)).fb.wf = true ∧
    127 < 128 ∧ (presented (.hostWrite 128 0)).inbox = .hostWrite 128 0 :: [] ∧ 128 ≤ 128 := by decide +kernel

theorem witness_OverlappingCommandRefusesTheRun :
    (presented (.overlap ⟨0x00000060, []⟩)).inbox = .overlap ⟨0x00000060, []⟩ :: [] := rfl

theorem witness_DutifulRunsNeverStop :
    (presented (.hostWrite 127 0xFF)).Dutiful ∧ (presented (.command ⟨0x00000000, []⟩)).Dutiful := ⟨rfl, rfl⟩

end Sys2Proof.Tests
end

section
/-! Proofs of the family 10_state.md: what a command, and what a step, can leave behind (R22, R24, R25, R27, R28, R29), and
that no command but GETDIAG looks at DIAG (R31). -/

namespace Sys2Proof.Machine

/-! ### What a command does to DIAG and the buffer -/

namespace Runs

theorem sticky {s t : State} (h : Runs s t) : s.diag ||| t.diag = t.diag := by
  obtain ⟨u, st, r, hu, rfl⟩ := h
  exact hu.sticky

theorem reserved {s t : State} (h : Runs s t) : t.diag.extractLsb' 4 4 = s.diag.extractLsb' 4 4 := by
  obtain ⟨u, st, r, hu, rfl⟩ := h
  exact hu.reserved

theorem fb {s t : State} (h : Runs s t) : s.fb.wf = true → t.fb.wf = true := by
  obtain ⟨u, st, r, hu, rfl⟩ := h
  exact hu.fb

end Runs

/-- A command adds to what it found and answers, or it is the CLRDIAG of a READY block (46_diagnostics.md R126). -/
theorem exec_cases {i : Instr} {s t : State} (h : exec i s = .next t) :
    Runs s t ∨ (i = .clrdiag ∧ t = respond .ok .none { s with diag := 0x00 }) := by
  by_cases hi : i = .clrdiag
  · subst hi
    rw [exec_clrdiag] at h
    cases h
    split
    · exact .inr ⟨rfl, rfl⟩
    · exact .inl (.of (.refl s) _ _)
  · exact .inl (exec_runs hi h)

/-- No command breaks the buffer's canonical form (20_memory.md R35). -/
theorem exec_fb_wf {i : Instr} {s t : State} (h : exec i s = .next t) (hw : s.fb.wf = true) : t.fb.wf = true := by
  rcases exec_cases h with hr | ⟨-, rfl⟩
  · exact hr.fb hw
  · exact hw

/-- No command sets a reserved DIAG bit (10_state.md R22). -/
theorem exec_reserved {i : Instr} {s t : State} (h : exec i s = .next t) (hd : s.diag.extractLsb' 4 4 = 0) :
    t.diag.extractLsb' 4 4 = 0 := by
  rcases exec_cases h with hr | ⟨-, rfl⟩
  · rw [hr.reserved, hd]
  · simp

/-- An OR that adds nothing to `b` leaves all of `a` in `b`. -/
theorem and_eq_left_of_or_eq_right {w : Nat} {a b : BitVec w} (h : a ||| b = b) : a &&& b = a := by
  rw [← h]
  ext k hk
  simp only [BitVec.getElem_and, BitVec.getElem_or]
  cases a[k] <;> rfl

/-! ### Legal states (10_state.md R22, R24, R25, R29) -/

theorem launch_legal {m : Memory} (hw : m.wf = true) (l : List Input) (a : List IoAnswer) :
    (State.launch m l a).Legal := ⟨hw, by simp, rfl, rfl⟩

theorem exec_keeps_legal {i : Instr} {s t : State} (hs : s.Legal) (h : exec i s = .next t) : t.Legal := by
  obtain ⟨hfb, hdiag, hft, hidx⟩ := hs
  obtain ⟨hlife, htable, -⟩ := exec_rest h
  refine ⟨exec_fb_wf h hfb, exec_reserved h hdiag, by rw [hlife, htable]; exact hft, ?_⟩
  rcases exec_frameIdx h with he | he
  · rw [he, hidx]
  · exact he

theorem runCommand_keeps_legal {c : Command} {s t : State} (hs : s.Legal) (h : runCommand c s = .next t) :
    t.Legal := by
  rw [runCommand] at h
  split at h
  · exact exec_keeps_legal hs h
  · cases h; exact hs

/-- The load ends in a READY block with the table it checked, or in a FAILED one with the empty table INIT had
(43_glyph_store.md R98). -/
theorem fontLoad_keeps_legal {s : State} (hs : s.Legal) (a : Assets) : (fontLoad a s).Legal := by
  by_cases hi : s.life = .init
  · obtain ⟨hfb, hdiag, hft, hidx⟩ := hs
    rw [fontLoad_init a hi]
    cases ht : loadedTable a with
    | some ft => exact ⟨hfb, hdiag, loaded_wf ht, hidx⟩
    | none => rw [hi] at hft; exact ⟨hfb, hdiag, hft, hidx⟩
  · rwa [fontLoad_late a hi]

theorem hostInput_keeps_legal {i : Input} {s t : State} (hs : s.Legal) (h : hostInput i s = .next t) : t.Legal := by
  cases i with
  | command c => cases h; exact hs
  | overlap c => cases h
  | assets a => cases h; exact fontLoad_keeps_legal hs a
  | hostWrite off v =>
    obtain ⟨hfb, hrest⟩ := hs
    rw [hostInput] at h
    split at h
    next hoff => cases h; exact ⟨Memory.write_wf _ hfb hoff v, hrest⟩
    next => cases h
  | reset => cases h; exact launch_legal hs.1 s.inbox s.io

/-- Everything a step can be: a wait, a command's run, or another input. -/
theorem step_cases (s : State) :
    (s.inbox = [] ∧ step s = .next s) ∨
      (∃ c rest, s.inbox = .command c :: rest ∧ step s = runCommand c { s with inbox := rest }) ∨
      ∃ i rest, s.inbox = i :: rest ∧ step s = hostInput i { s with inbox := rest } := by
  rw [step]
  split
  next h => exact .inl ⟨h, rfl⟩
  next c rest h => exact .inr (.inl ⟨c, rest, h, rfl⟩)
  all_goals next h => exact .inr (.inr ⟨_, _, h, rfl⟩)

theorem step_command {s : State} {c : Command} {rest : List Input} (h : s.inbox = .command c :: rest) :
    step s = runCommand c { s with inbox := rest } := by
  rw [step, h]

/-! ### The one response of a command (10_state.md R27, R28) -/

/-- From `s` to `t` the trace grows by transactions and then one response; nothing else is taken from what is presented. -/
def Answered (s t : State) : Prop :=
  t.inbox = s.inbox ∧
    ∃ evs st r, t.trace = s.trace ++ evs ++ [.resp st r] ∧ ∀ e ∈ evs, e.isResp = false

namespace Answered

/-- The command whose one event is its response. -/
theorem of_trace {s u : State} (hin : u.inbox = s.inbox) (htr : u.trace = s.trace) (st : Status) (r : Result) :
    Answered s (respond st r u) :=
  ⟨hin, [], st, r, by simp [htr], by simp⟩

theorem of_runs {s t : State} (h : Runs s t) : Answered s t := by
  obtain ⟨u, st, r, hu, rfl⟩ := h
  obtain ⟨evs, htr, hevs⟩ := hu.events
  exact ⟨hu.inbox, evs, st, r, by simp [htr], hevs⟩

theorem exec {i : Instr} {s t : State} (h : Machine.exec i s = .next t) : Answered s t := by
  rcases exec_cases h with hr | ⟨-, rfl⟩
  · exact of_runs hr
  · exact of_trace rfl rfl _ _

theorem runCommand (c : Command) (s : State) : ∃ t, Machine.runCommand c s = .next t ∧ Answered s t := by
  rw [Machine.runCommand]
  split
  next i _ =>
    obtain ⟨t, ht⟩ := exec_goes i s
    exact ⟨t, ht, exec ht⟩
  next => exact ⟨_, rfl, of_trace rfl rfl _ _⟩

end Answered

/-! ### No command but GETDIAG looks at DIAG (10_state.md R31) -/

theorem validate_blind (c : RawColor) : BlindTo (validate c) := by
  intro s d
  obtain ⟨d', hd⟩ := noteIf_blind (badColor c) .badColor s d
  exact ⟨d', by rw [validate_eq, validate_eq, hd]⟩

/-- The last write of a command and its answer. -/
theorem memWrite_respondIo_blind (sp : Span) (b : List Byte) (hold : Option Hold) (r : Result) (s : State) (d : Byte) :
    respondIo (memWrite sp b hold (s.withDiag d)).1 r (memWrite sp b hold (s.withDiag d)).2 =
      (respondIo (memWrite sp b hold s).1 r (memWrite sp b hold s).2).withDiag d := by
  rw [memWrite_blind]
  cases (memWrite sp b hold s).1 <;> rfl

/-- GETDIAG is the one command whose answer is DIAG; every other body is blind to it. -/
theorem exec_blind {i : Instr} (hi : i ≠ .getdiag) {s t u : State} {d : Byte} (ht : exec i s = .next t)
    (hu : exec i (s.withDiag d) = .next u) : u = t.withDiag u.diag := by
  cases i with (simp only [exec] at ht hu; refine served_blind ?_ ht hu)
  | getdiag => exact absurd rfl hi
  | unpack | getrot | lookup | trim | recolor | renderletter | renderstring | hmirror | vmirror | clrdiag =>
    exact fun _ _ => ⟨_, rfl⟩
  | pack r g b =>
    cases RawColor.toRGB? [.int r, .int g, .int b] <;> exact fun _ _ => ⟨_, rfl⟩
  | validate c =>
    intro s d
    obtain ⟨d', hd⟩ := validate_blind c s d
    exact ⟨d', by simp only [hd]; rfl⟩
  | setrot a => cases normalise a <;> exact fun _ _ => ⟨_, rfl⟩
  | setrotR a =>
    cases normalise a with
    | none => exact fun _ _ => ⟨_, rfl⟩
    | some q =>
      refine fun s d => ⟨d, ?_⟩
      simp only [memRead_blind]
      rcases memRead .whole s with ⟨_ | bytes, t⟩
      · rfl
      · exact memWrite_respondIo_blind _ _ _ _ { t with rot := q } d
  | slot x y => cases coords? x y <;> exact fun _ _ => ⟨_, rfl⟩
  | sloti j => cases index? j <;> exact fun _ _ => ⟨_, rfl⟩
  | fbDecode =>
    refine fun s d => ⟨d, ?_⟩
    simp only [memRead_blind]
    rcases memRead .whole s with ⟨_ | bytes, t⟩ <;> rfl
  | fbEncode g =>
    intro s d
    obtain ⟨d', hd⟩ := checkGrid_blind g s d
    refine ⟨d', ?_⟩
    simp only [hd]
    exact memWrite_respondIo_blind _ _ _ _ _ _
  | checkgrid g =>
    intro s d
    obtain ⟨d', hd⟩ := checkGrid_blind g s d
    exact ⟨d', by simp only [hd]; rfl⟩
  | getpix x y =>
    cases coords? x y with
    | none => exact fun _ _ => ⟨_, rfl⟩
    | some xy =>
      refine fun s d => ⟨d, ?_⟩
      simp only [memRead_blind]
      rcases memRead (.word (slotFor s.rot xy.1 xy.2)) s with ⟨_ | bytes, t⟩ <;> rfl
  | setpix x y c =>
    intro s d
    obtain ⟨d', hd⟩ := validate_blind c s d
    simp only [hd]
    cases coords? x y with
    | none => exact ⟨_, rfl⟩
    | some xy => exact ⟨d', memWrite_respondIo_blind _ _ _ _ _ _⟩
  | scroll q n =>
    split <;> exact fun _ d => ⟨d, rfl⟩
  | showletter t fg bg =>
    exact scopedRotation_blind fun s => writeFrame_blind (renderLetter s.ft t fg bg) none s
  | showmsg t fg bg hold =>
    exact scopedRotation_blind fun s =>
      runFrames_blind (some hold) (scroll (renderString s.ft t fg bg) Config.stepDefault) s
  | flash t fg bg hold =>
    exact scopedRotation_blind fun s => runFrames_blind (some hold) (t.map fun c => renderLetter s.ft [c] fg bg) s
  | fliph | fliphR | flipv | flipvR => exact flipWith_blind _ _

/-! ### The obligations -/

/-- Settles O47: a wait changes nothing, a command keeps legality by what `exec` keeps, any other input by its own lemma. -/
theorem stepKeepsLegal : Obligations.StepKeepsLegal := by
  intro s t hs h
  rcases step_cases s with ⟨-, e⟩ | ⟨c, rest, -, e⟩ | ⟨i, rest, -, e⟩ <;> rw [e] at h
  · cases h; exact hs
  · exact runCommand_keeps_legal (by exact hs) h
  · exact hostInput_keeps_legal (by exact hs) h

/-- Settles O52, by the blindness of each command's body. -/
theorem diagDecidesNothing : Obligations.DiagDecidesNothing :=
  fun _ _ _ _ _ hi ht hu => exec_blind hi ht hu

/-- Settles O48: a command that decodes answers by `exec`, another one is refused. -/
theorem everyCommandHasOneResponse : Obligations.EveryCommandHasOneResponse := by
  intro s c rest h
  obtain ⟨t, ht, hin, evs, st, r, htr, hevs⟩ := Answered.runCommand c { s with inbox := rest }
  refine ⟨t, evs, st, r, by rw [step_command h, ht], hin, htr, fun st' r' hmem => ?_⟩
  exact absurd (hevs _ hmem) (by simp [Event.isResp])

/-- Settles O49, from what every command but CLRDIAG keeps. -/
theorem diagBitsAreSticky : Obligations.DiagBitsAreSticky :=
  fun _ _ _ h => ⟨fun hi => and_eq_left_of_or_eq_right (exec_runs hi h).sticky, exec_reserved h⟩

/-- Settles O46: reset is the launch in front of the empty buffer. -/
theorem resetIsLegal : Obligations.ResetIsLegal :=
  ⟨launch_legal rfl [] [], fun _ l a hw => launch_legal hw l a⟩

end Sys2Proof.Machine
end

section
/-! Proofs of the family 20_memory.md: DECODE after ENCODE (R46), the commands without a transaction (R41), direct host
writes (R35, R38). -/

namespace Sys2Proof.Machine

/-! ### Clearing low bits -/

/-- The mask with the low `k` bits clear rounds down to a multiple of `2 ^ k`. -/
theorem toNat_and_allOnes_shiftLeft {w : Nat} (b : BitVec w) (k : Nat) :
    (b &&& BitVec.allOnes w <<< k).toNat = b.toNat / 2 ^ k * 2 ^ k := by
  have hshift : b &&& BitVec.allOnes w <<< k = b >>> k <<< k := by
    ext i hi
    by_cases hik : i < k
    · simp [hik]
    · have : k + (i - k) = i := by omega
      simp [hik, this, BitVec.getLsbD_eq_getElem hi]
  have hle : b.toNat / 2 ^ k * 2 ^ k < 2 ^ w := (Nat.div_mul_le_self _ _).trans_lt b.isLt
  rw [hshift, BitVec.toNat_shiftLeft, BitVec.toNat_ushiftRight, Nat.shiftLeft_eq, Nat.shiftRight_eq_div_pow,
    Nat.mod_eq_of_lt hle]

/-- RGB to word to RGB clears the low bits, as masks (40_color_codec.md R77). -/
theorem unpack_pack (c : RGB) : unpack (pack c) = ⟨c.r &&& 0xF8, c.g &&& 0xFC, c.b &&& 0xF8⟩ := by
  obtain ⟨hr, hg, hb⟩ := unpack_pack_toNat c
  exact RGB.ext_toNat (hr.trans (toNat_and_allOnes_shiftLeft c.r 3).symm)
    (hg.trans (toNat_and_allOnes_shiftLeft c.g 2).symm) (hb.trans (toNat_and_allOnes_shiftLeft c.b 3).symm)

/-! ### ENCODE and DECODE with the answer `ok` (42_pixel_buffer.md R90, R91) -/

/-- ENCODE of a valid grid writes the grid's bytes over the whole buffer. -/
theorem exec_fbEncode_ok {s t : State} {g : List RGB} {as : List IoAnswer} (hl : s.life = .ready) (hg : g.length = 64)
    (hio : s.io = .ok :: as) (h : exec (.fbEncode (g.map RGB.toRaw)) s = .next t) :
    t.life = .ready ∧ t.rot = s.rot ∧ t.io = as ∧ t.fb = s.fb.writeBytes 0 (encodeBytes g s.rot) := by
  rw [exec, execFbEncode, served_ready _ _ hl, Host.Outcome.next.injEq, checkGrid_map g s hg] at h
  simp only [memWrite_ok hio, respondIo_ok] at h
  subst h
  simp [hl, Span.off]

/-- DECODE reads the whole buffer and answers its grid under the current code. -/
theorem exec_fbDecode_ok {s : State} {as : List IoAnswer} (hl : s.life = .ready) (hio : s.io = .ok :: as) :
    exec .fbDecode s =
      .next { s with io := as, trace := s.trace ++
        [.fbRead 0 128 .ok, .resp .ok (.grid (decodeBytes (s.fb.readBytes 0 128) s.rot))] } := by
  rw [exec, execFbDecode, served_ready _ _ hl]
  simp only [memRead_ok hio]
  simp [respond, emit, Span.off, Span.len]

/-! ### A response and no transaction (20_memory.md R41) -/

/-- From `s` to `t` the buffer and the environment's answers stay, and the one event is a response. -/
def RespondsOnly (s t : State) : Prop := t.fb = s.fb ∧ t.io = s.io ∧ ∃ st r, t.trace = s.trace ++ [.resp st r]

namespace RespondsOnly

theorem of {s u : State} (hfb : u.fb = s.fb) (hio : u.io = s.io) (htr : u.trace = s.trace) (st : Status) (r : Result) :
    RespondsOnly s (respond st r u) := ⟨hfb, hio, st, r, by simp [htr]⟩

/-- A block that does not run the body answers with a response alone, so only the body counts. -/
theorem served {typed : Bool} {body : State → State} {s t : State} (hb : RespondsOnly s (body s))
    (h : Machine.served typed body s = .next t) : RespondsOnly s t := by
  rcases served_cases typed body s with ⟨-, e⟩ | ⟨-, -, e⟩ | ⟨-, -, e⟩ <;> rw [e] at h <;> cases h
  · exact of rfl rfl rfl _ _
  · exact of rfl rfl rfl _ _
  · exact hb

end RespondsOnly

/-! ### Direct host writes (20_memory.md R38) -/

theorem step_hostWrite {s : State} {off : Nat} {v : Byte} {rest : List Input}
    (h : s.inbox = .hostWrite off v :: rest) :
    step s = if off < Config.fbBytes then .next { s with inbox := rest, fb := s.fb.write off v }
      else .fault (.noSuchOffset off) := by
  rw [step, h]; rfl

/-! ### The obligations -/

/-- Settles O28: ENCODE writes the grid's bytes over the whole buffer, and DECODE reads those bytes under the same code. -/
theorem decodeReadsWhatEncodeWrote : Obligations.DecodeReadsWhatEncodeWrote := by
  intro s t g rest hl hw hg hio ht
  obtain ⟨hlt, hrot, hiot, hfb⟩ := exec_fbEncode_ok hl hg hio ht
  have hread : decodeBytes (t.fb.readBytes 0 128) t.rot =
      g.map fun c => ⟨c.r &&& 0xF8, c.g &&& 0xFC, c.b &&& 0xF8⟩ := by
    rw [hfb, hrot, readBytes_writeBytes hw (encodeBytes_length g s.rot), decodeBytes_encodeBytes s.rot g hg]
    exact List.map_congr_left fun c _ => unpack_pack c
  rw [exec_fbDecode_ok hlt hiot, hread]

/-- Settles O53: each body ends in its response, after at most a notice, a draw or the update of `ROT` or `DIAG`. -/
theorem commandsWithoutTransactions : Obligations.CommandsWithoutTransactions := by
  intro i s t hi h
  cases i with (simp only [exec] at h; refine RespondsOnly.served ?_ h)
  | setrotR | fbDecode | fbEncode | getpix | setpix | showletter | showmsg | flash | fliph | fliphR | flipv | flipvR =>
    simp [Instr.opcode] at hi
  | unpack | getrot | lookup | trim | recolor | renderletter | renderstring | hmirror | vmirror | getdiag | clrdiag =>
    exact .of rfl rfl rfl _ _
  | pack | setrot | slot | sloti | scroll => split <;> exact .of rfl rfl rfl _ _
  | validate c => exact .of (validate_fb c s) (validate_io c s) (validate_trace c s) _ _
  | checkgrid g => exact .of (checkGrid_fb g s) (checkGrid_io g s) (checkGrid_trace g s) _ _

/-- Settles O54, by the laws of a read after a one-byte write. -/
theorem hostWriteChangesOneByte : Obligations.HostWriteChangesOneByte := by
  intro s off v rest h hw
  rw [step_hostWrite h]
  refine ⟨fun hoff => ?_, fun hoff => if_neg (Nat.not_lt.mpr hoff)⟩
  exact ⟨_, if_pos hoff, rfl, Memory.read_write_same _ hw off v, fun a ha => Memory.read_write_other _ v ha⟩

end Sys2Proof.Machine
end

section
/-! Proofs of the family 30_encoding.md: decoding and encoding (R54 to R62, R72), the words and tuples that are refused (R56,
R57, R59, R61), and the lines of the assembler (R58, R70 to R72). -/

namespace Sys2Proof

/-! ### The word by its numbers (30_encoding.md R55, R58) -/

theorem encodeWord_toNat (op : Opcode) (r : Bool) : (encodeWord op r).toNat = op.code.toNat + 256 * r.toNat := by
  cases op <;> cases r <;> rfl

theorem encodeWord_mod (op : Opcode) (r : Bool) : (encodeWord op r).toNat % 256 = op.code.toNat := by
  have := op.code.isLt
  rw [encodeWord_toNat]
  omega

/-- No bit of 31:9 is set (30_encoding.md R57). -/
theorem encodeWord_getLsbD_of_le (op : Opcode) (r : Bool) {k : Nat} (hk : 9 ≤ k) :
    (encodeWord op r).getLsbD k = false := by
  have hcode := op.code.isLt
  have hflag := r.toNat_le
  have hword : (encodeWord op r).toNat < 2 ^ 9 := by rw [encodeWord_toNat]; omega
  exact Nat.testBit_lt_two_pow (hword.trans_le (Nat.pow_le_pow_right (by decide) hk))

theorem takesRedraw_iff_code {op : Opcode} : op.takesRedraw = true ↔ op.code.toNat ∈ [0x10, 0x52, 0x53] := by
  cases op <;> decide

theorem takesRedraw_iff {op : Opcode} : op.takesRedraw = true ↔ op = .setrot ∨ op = .fliph ∨ op = .flipv := by
  cases op <;> decide

theorem code_eq_scroll_iff {op : Opcode} : op.code.toNat = 0x44 ↔ op = .scroll := by
  cases op <;> decide

/-! ### Commands that decode -/

theorem decode_encodeWord {op : Opcode} {r : Bool} {vs : List Value} {i : Instr}
    (hr : r = true → op.takesRedraw = true) :
    decode ⟨encodeWord op r, vs⟩ = .ok i ↔ ofOperands op r vs = some i := by
  have hword : decodeWord (encodeWord op r) = .ok (op, r) := decodeWord_encodeWord op r hr
  rw [decode_eq_ok]
  constructor
  · rintro ⟨op', r', hw, ho⟩
    cases hword.symm.trans hw
    exact ho
  · exact fun ho => ⟨op, r, hword, ho⟩

/-- A command that decodes has the word of an opcode, with the redraw flag only where the opcode takes it, and a tuple that
reads as the instruction. -/
theorem decode_ok_inv {c : Command} {i : Instr} (h : decode c = .ok i) :
    ∃ op r, c.word = encodeWord op r ∧ (r = true → op.takesRedraw = true) ∧ ofOperands op r c.operands = some i := by
  obtain ⟨op, r, hw, ho⟩ := decode_eq_ok.1 h
  obtain ⟨hword, hr⟩ := decodeWord_eq_ok.1 hw
  exact ⟨op, r, hword, hr, ho⟩

end Sys2Proof

namespace Sys2Proof.Machine

/-! ### The step of a presented command (30_encoding.md R62) -/

theorem step_of_decode {s : State} {c : Command} {rest : List Input} {i : Instr}
    (h : s.inbox = .command c :: rest) (hd : decode c = .ok i) : step s = exec i { s with inbox := rest } := by
  rw [step_command h, runCommand, hd]

theorem step_of_not_decode {s : State} {c : Command} {rest : List Input} (h : s.inbox = .command c :: rest)
    (hd : ∀ i, decode c ≠ .ok i) : step s = .next (refuse { s with inbox := rest }) := by
  rw [step_command h, runCommand]
  cases hc : decode c with
  | ok i => exact absurd hc (hd i)
  | error e => rfl

/-- Operands that are not of their types are refused, whatever the check is (30_encoding.md R61). -/
theorem served_of_eq_false {typed : Bool} (h : typed = false) (body : State → State) (s : State) :
    served typed body s = .next (refuse s) := by
  rw [h, served_illTyped]

end Sys2Proof.Machine

namespace Sys2Proof.Asm

/-! ### The assembler (30_encoding.md R70, R72) -/

/-- The mnemonics with the `OP` column of 30_encoding.md R58. -/
def mnemonicCodes : List (String × Nat) := mnemonics.map fun e => (e.1, e.2.code.toNat)

theorem mem_mnemonicCodes {m : String} {n : Nat} :
    (m, n) ∈ mnemonicCodes ↔ ∃ op, (m, op) ∈ mnemonics ∧ op.code.toNat = n := by
  simp [mnemonicCodes]

/-- `withDefaults` by its two cases: a SCROLL line with one operand, and any other (44_text_renderer.md R112). -/
theorem eq_withDefaults_iff {op : Opcode} {us vs : List Value} :
    us = withDefaults op vs ↔
      (∀ v, op = .scroll → vs = [v] → us = [v, .int 8]) ∧ ((op = .scroll → ∀ v, vs ≠ [v]) → us = vs) := by
  by_cases h : op = .scroll → ∀ v, vs ≠ [v]
  · rw [withDefaults_of_ne h]
    exact ⟨fun e => ⟨fun v ho hv => absurd hv (h ho v), fun _ => e⟩, fun e => e.2 h⟩
  · push Not at h
    obtain ⟨rfl, v, rfl⟩ := h
    simp [withDefaults_scroll]

/-- A line assembles exactly when it is a mnemonic's spelling and an operand list, after a label and its colon if there are
any. -/
theorem assemble_iff {line : Str} {c : Command} :
    assemble line = some c ↔
      ∃ m op r ts vs, (m, op) ∈ mnemonics ∧ (r = true → op.takesRedraw = true) ∧
        (lex .idle line = some (.word (spelled m r) :: ts) ∨
          ∃ label, lex .idle line = some (.word label :: .sym ':' :: .word (spelled m r) :: ts)) ∧
        operands ts.length ts = some vs ∧ c = ⟨encodeWord op r, withDefaults op vs⟩ := by
  rw [assemble_eq_some]
  constructor
  · rintro ⟨w, ts, hlex, hc⟩
    obtain ⟨op, r, vs, hw, hvs, rfl⟩ := command_word.1 hc
    obtain ⟨m, hm, hr, rfl⟩ := mnemonic_eq_some.1 hw
    exact ⟨m, op, r, ts, vs, hm, hr, hlex, hvs, rfl⟩
  · rintro ⟨m, op, r, ts, vs, hm, hr, hlex, hvs, rfl⟩
    exact ⟨spelled m r, ts, hlex, command_word.2 ⟨op, r, vs, mnemonic_eq_some.2 ⟨m, hm, hr, rfl⟩, hvs, rfl⟩⟩

/-- A command is a word and a tuple, the word by its number, the tuple by the cases of `withDefaults`. -/
theorem eq_command_iff {c : Command} {op : Opcode} {r : Bool} {vs : List Value} :
    c = ⟨encodeWord op r, withDefaults op vs⟩ ↔
      c.word.toNat = op.code.toNat + 256 * r.toNat ∧
        (∀ v, op.code.toNat = 0x44 → vs = [v] → c.operands = [v, .int 8]) ∧
        ((op.code.toNat = 0x44 → ∀ v, vs ≠ [v]) → c.operands = vs) := by
  obtain ⟨w, us⟩ := c
  rw [Command.mk.injEq, eq_withDefaults_iff, ← encodeWord_toNat, BitVec.toNat_inj, code_eq_scroll_iff]

end Sys2Proof.Asm

namespace Sys2Proof.Machine

/-! ### The obligations -/

/-- Settles O1: the encoder's word decodes to the opcode and the flag, and its tuple is read back. -/
theorem decodeOfEncode : Obligations.DecodeOfEncode :=
  fun _ hw => decode_encode_of (ofOperands_operands hw)

/-- Settles O2: the word is the one of the opcode and the flag, and the tuple is the one the instruction writes. -/
theorem encodeOfDecode : Obligations.EncodeOfDecode := by
  rintro ⟨word, vs⟩ i h
  obtain ⟨op, r, rfl, hr, ho⟩ := decode_ok_inv h
  obtain ⟨hwf, rfl, rfl, rfl⟩ := ofOperands_eq_some hr ho
  exact ⟨hwf, rfl⟩

/-- Settles O3: a word that decodes is `OP | (R << 8)` of the table, and each kind of illegal word differs from all of these
in one field. -/
theorem illegalWordsAreRefused : Obligations.IllegalWordsAreRefused := by
  intro s c rest h hill
  refine step_of_not_decode h fun i hi => ?_
  obtain ⟨op, r, hword, hr, -⟩ := decode_ok_inv hi
  rw [hword, encodeWord_mod] at hill
  rcases hill with ⟨k, hk, -, hbit⟩ | hop | ⟨hbit, hop⟩
  · rw [encodeWord_getLsbD_of_le op r hk] at hbit
    cases hbit
  · exact hop (by cases op <;> decide)
  · rw [(encodeWord_fields op r).2.2] at hbit
    exact hop (takesRedraw_iff_code.1 (hr hbit))

/-- Settles O4: behind a legal word the tuple alone decides, and it is read exactly when it has the opcode's types. -/
theorem tuplesAreTypedByTheTable : Obligations.TuplesAreTypedByTheTable := by
  intro s op r vs rest h hlegal
  have hr : r = true → op.takesRedraw = true := fun hb => takesRedraw_iff.2 (hlegal hb)
  rw [← ofOperands_isSome op r vs]
  constructor
  · intro htyped
    refine step_of_not_decode h fun i hi => ?_
    rw [(decode_encodeWord hr).1 hi] at htyped
    cases htyped
  · intro htyped
    obtain ⟨i, hi⟩ := Option.isSome_iff_exists.1 htyped
    obtain ⟨hwf, hop, hredraw, hvs⟩ := ofOperands_eq_some hr hi
    exact ⟨i, hwf, hop, hredraw, hvs, step_of_decode h ((decode_encodeWord hr).2 hi)⟩

/-- Settles O7: the table written out is `mnemonicCodes`, and the clauses on the word and the operands say which command it
is. -/
theorem assembledWordsAreLegal : Obligations.AssembledWordsAreLegal := by
  refine ⟨fun line c => Asm.assemble_iff.trans ⟨?_, ?_⟩, fun line c h => ?_⟩
  · rintro ⟨m, op, r, ts, vs, hm, hr, hlex, hvs, hc⟩
    exact ⟨m, op.code.toNat, r, ts, vs, Asm.mem_mnemonicCodes.2 ⟨op, hm, rfl⟩, fun hb => takesRedraw_iff_code.1 (hr hb),
      hlex, hvs, Asm.eq_command_iff.1 hc⟩
  · rintro ⟨m, n, r, ts, vs, hm, hr, hlex, hvs, hc⟩
    obtain ⟨op, hop, rfl⟩ := Asm.mem_mnemonicCodes.1 hm
    exact ⟨m, op, r, ts, vs, hop, fun hb => takesRedraw_iff_code.2 (hr hb), hlex, hvs, Asm.eq_command_iff.2 hc⟩
  · obtain ⟨-, op, r, -, -, -, hr, -, -, rfl⟩ := Asm.assemble_iff.1 h
    exact ⟨op, r, rfl, decodeWord_encodeWord op r hr⟩

/-- Settles O6: each of the commands is the encoding of its instruction. -/
theorem writtenWordsDecode : Obligations.WrittenWordsDecode :=
  ⟨decodeOfEncode (.pack 248 252 248) rfl, decodeOfEncode (.setrotR 180) rfl,
    decodeOfEncode (.setpix 1 0 [.int 255, .nonint]) rfl, decodeOfEncode (.lookup ['a', 'b']) rfl,
    decodeOfEncode (.showmsg ['a'] [] [.int 300] 100) rfl, decodeOfEncode .flipvR rfl, decodeOfEncode .clrdiag rfl⟩

/-- Settles O8: only TRIM, HMIRROR and VMIRROR can be ill-formed, and each is served by that very check. -/
theorem illTypedTermsAreRefused : Obligations.IllTypedTermsAreRefused := by
  intro i s hi
  cases i with
  | trim | hmirror | vmirror => exact served_of_eq_false hi _ s
  | _ => cases hi

end Sys2Proof.Machine
end

section
/-! Proofs of the family 40_color_codec.md: PACK, UNPACK and VALIDATE in a READY block (R73 to R76), and the laws of the
codec (R77). -/

namespace Sys2Proof.Machine

/-! ### Raw colors in range, and the others (00_scope.md R14) -/

/-- Three integers in 0..255 are the embedding of a color. -/
theorem exists_eq_toRaw {r g b : Int} (hr : 0 ≤ r ∧ r ≤ 255) (hg : 0 ≤ g ∧ g ≤ 255) (hb : 0 ≤ b ∧ b ≤ 255) :
    ∃ c : RGB, [.int r, .int g, .int b] = c.toRaw := by
  obtain ⟨c, hc⟩ := Option.isSome_iff_exists.1 (toRGB?_isSome.2 ⟨r, g, b, rfl, hr, hg, hb⟩)
  exact ⟨c, toRGB?_eq_some.1 hc⟩

/-- A raw color is bad unless it is 3 integers each in 0..255 (40_color_codec.md R76). -/
theorem badColor_iff_not_inRange {c : RawColor} :
    badColor c = true ↔
      ¬∃ r g b : Int, c = [.int r, .int g, .int b] ∧ (0 ≤ r ∧ r ≤ 255) ∧ (0 ≤ g ∧ g ≤ 255) ∧ (0 ≤ b ∧ b ≤ 255) := by
  rw [← toRGB?_isSome, badColor_iff, Option.not_isSome_iff_eq_none]

theorem validate_toRaw (c : RGB) (s : State) : validate c.toRaw s = (c, s) := by
  rw [validate_eq, validColor_toRaw, badColor_toRaw, noteIf_false]

theorem validate_bad {c : RawColor} (h : badColor c = true) (s : State) : validate c s = (BLACK, note .badColor s) := by
  rw [validate_eq, validColor_bad h, h, noteIf_true]

/-! ### The commands in a READY block (40_color_codec.md R73 to R76) -/

theorem exec_pack_toRaw {r g b : Int} {c : RGB} {s : State} (hl : s.life = .ready)
    (hc : [.int r, .int g, .int b] = c.toRaw) :
    exec (.pack r g b) s = .next (respond .ok (.word16 (pack c)) s) := by
  rw [exec, execPack, served_ready _ _ hl, toRGB?_eq_some.2 hc]

theorem exec_pack_bad {r g b : Int} {s : State} (hl : s.life = .ready) (hc : badColor [.int r, .int g, .int b] = true) :
    exec (.pack r g b) s =
      .next (respond .ok (.word16 (Config.packDraw s.draws)) { s with draws := s.draws + 1 }) := by
  rw [exec, execPack, served_ready _ _ hl, badColor_iff.1 hc]

theorem exec_unpack {s : State} (hl : s.life = .ready) (w : Word16) :
    exec (.unpack w) s = .next (respond .ok (.rgb (unpack w)) s) := by
  rw [exec, execUnpack, served_ready _ _ hl]

theorem exec_validate {s : State} (hl : s.life = .ready) (c : RawColor) :
    exec (.validate c) s = .next (respond .ok (.rgb (validate c s).1) (validate c s).2) := by
  rw [exec, execValidate, served_ready _ _ hl]

/-! ### The codec between words and colors (40_color_codec.md R77) -/

theorem unpack_injective : Function.Injective unpack := Function.LeftInverse.injective pack_unpack

/-- A color survives the trip through a word exactly when its low bits are zero. -/
theorem unpack_pack_eq_iff (c : RGB) :
    unpack (pack c) = c ↔ c.r.toNat % 8 = 0 ∧ c.g.toNat % 4 = 0 ∧ c.b.toNat % 8 = 0 := by
  obtain ⟨hr, hg, hb⟩ := unpack_pack_toNat c
  constructor
  · intro h
    rw [h] at hr hg hb
    omega
  · rintro ⟨hr0, hg0, hb0⟩
    exact RGB.ext_toNat (by omega) (by omega) (by omega)

/-- The colors of words are the ones that survive the trip. -/
theorem exists_unpack_eq_iff (c : RGB) : (∃ w, unpack w = c) ↔ unpack (pack c) = c := by
  constructor
  · rintro ⟨w, rfl⟩
    rw [pack_unpack]
  · exact fun h => ⟨pack c, h⟩

/-- The colors of all words, in the order of the words. -/
def wordColors : List RGB := List.ofFn fun i : Fin (2 ^ 16) => unpack (BitVec.ofFin i)

theorem wordColors_length : wordColors.length = 2 ^ 16 := List.length_ofFn

theorem wordColors_nodup : wordColors.Nodup :=
  List.nodup_ofFn.2 fun _ _ h => BitVec.ofFin.inj (unpack_injective h)

theorem mem_wordColors {c : RGB} : c ∈ wordColors ↔ ∃ w, unpack w = c := by
  rw [wordColors, List.mem_ofFn]
  exact ⟨fun ⟨i, hi⟩ => ⟨BitVec.ofFin i, hi⟩, fun ⟨w, hw⟩ => ⟨w.toFin, hw⟩⟩

/-! ### The obligations -/

/-- Settles O10: the channels are those of a color, and `pack` has the fields' weights. -/
theorem packAnswersTheWord : Obligations.PackAnswersTheWord := by
  intro s r g b hl hr hg hb
  obtain ⟨c, hc⟩ := exists_eq_toRaw hr hg hb
  refine ⟨pack c, ?_, exec_pack_toRaw hl hc⟩
  simp only [RGB.toRaw, List.cons.injEq, Comp.int.injEq, and_true] at hc
  obtain ⟨rfl, rfl, rfl⟩ := hc
  rw [pack_toNat]
  push_cast
  rfl

/-- Settles O11: channels that are no color's get the next draw of a word. -/
theorem packOutOfRangeAnswersSomeWord : Obligations.PackOutOfRangeAnswersSomeWord := by
  intro s r g b hl hrange
  have hbad : badColor [.int r, .int g, .int b] = true := by
    rw [badColor_iff_not_inRange]
    rintro ⟨r', g', b', heq, hin⟩
    cases heq
    exact hrange hin
  exact ⟨_, _, exec_pack_bad hl hbad⟩

/-- Settles O12: each channel is its field's value by `unpack_toNat`. -/
theorem unpackAnswersTheColor : Obligations.UnpackAnswersTheColor := by
  intro s w hl
  obtain ⟨hr, hg, hb⟩ := unpack_toNat w
  exact ⟨unpack w, hr.trans (Nat.mul_comm _ _), hg.trans (Nat.mul_comm _ _), hb.trans (Nat.mul_comm _ _),
    exec_unpack hl w⟩

/-- Settles O13: a raw color is a color's embedding, which passes, or bad. -/
theorem validateFailsClosed : Obligations.ValidateFailsClosed := by
  intro s c hl
  rw [exec_validate hl c]
  constructor
  · intro v hv
    rw [show c = v.toRaw from hv, validate_toRaw]
    rfl
  · intro hrange
    rw [validate_bad (badColor_iff_not_inRange.2 hrange)]
    rfl

/-- Settles O14: `pack` undoes `unpack`, `unpack` after `pack` clears the low bits, and `validate` passes every color. -/
theorem codecLaws : Obligations.CodecLaws :=
  ⟨unpack_pack_eq_iff, pack_unpack, fun _ _ h => unpack_injective h,
    fun c => (exists_unpack_eq_iff c).trans (unpack_pack_eq_iff c),
    ⟨wordColors, wordColors_length, wordColors_nodup, fun _ => mem_wordColors⟩,
    unpack_pack, validate_toRaw, fun _ _ t => validate_toRaw _ t⟩

end Sys2Proof.Machine
end

section
/-! Proofs of the family 41_rotation.md: accepted angles (R78), the slot mapping and its inverse (R79, R80, R86), and
SETROT, SETROT.R, GETROT, SLOT and SLOTI in a READY block (R81 to R85). -/

namespace Sys2Proof.Machine

/-! ### Adding whole turns (41_rotation.md R78) -/

/-- The loop of R78 ends at the Euclidean remainder of a negative angle, and leaves any other angle as it is. -/
theorem addTurns_iff {a b : Int} :
    (∃ n : Nat, 0 ≤ a + 360 * n ∧ (∀ m : Nat, m < n → a + 360 * m < 0) ∧ a + 360 * n = b) ↔
      (if a < 0 then a % 360 else a) = b := by
  constructor
  · rintro ⟨n, hn, hleast, rfl⟩
    cases n with
    | zero =>
      rw [if_neg (by omega)]
      simp
    | succ n =>
      have hlast := hleast n n.lt_succ_self
      rw [if_pos (by omega)]
      omega
  · intro hb
    split at hb
    next ha =>
      refine ⟨(-(a / 360)).toNat, ?_, fun m hm => ?_, ?_⟩ <;> omega
    next ha => exact ⟨0, by omega, fun m hm => absurd hm m.not_lt_zero, by simpa using hb⟩

/-! ### Slots by their formulas, and back (41_rotation.md R79, R80, R86) -/

theorem slotFor_formulas (q : RotCode) (x y : Coord) :
    (q = 0 → ((slotFor q x y).val : Int) = y.val * 8 + x.val) ∧
      (q = 1 → ((slotFor q x y).val : Int) = y.val + (7 - x.val) * 8) ∧
      (q = 2 → ((slotFor q x y).val : Int) = (7 - y.val) * 8 + (7 - x.val)) ∧
      (q = 3 → ((slotFor q x y).val : Int) = (7 - y.val) + x.val * 8) := by
  have hx := x.isLt
  have hy := y.isLt
  refine ⟨?_, ?_, ?_, ?_⟩ <;> rintro rfl <;> simp [slotFor] <;> omega

/-- The index answered with slot `v` is the element the table of inverses names. -/
theorem slotForIndex_eq_iff {q : RotCode} {i : Fin 64} {v : Slot} :
    slotForIndex q i = v ↔ i = elementOf (logicalX q v) (logicalY q v) := by
  have hv : slotForIndex q (elementOf (logicalX q v) (logicalY q v)) = v := by
    rw [slotForIndex_elementOf, slotFor_logical]
  constructor
  · exact fun h => slotForIndex_inj (h.trans hv.symm)
  · rintro rfl
    exact hv

theorem angle_cases (q : RotCode) : angle q = 0 ∨ angle q = 90 ∨ angle q = 180 ∨ angle q = 270 := by
  revert q; decide

/-! ### The commands without a transaction, in a READY block (41_rotation.md R81, R83 to R85) -/

theorem exec_setrot_accept {s : State} {a : Int} {q : RotCode} (hl : s.life = .ready) (hq : normalise a = some q) :
    exec (.setrot a) s = .next (respond .ok .none { s with rot := q }) := by
  rw [exec, execSetrot, served_ready _ _ hl, hq]

theorem exec_setrot_reject {s : State} {a : Int} (hl : s.life = .ready) (hq : normalise a = none) :
    exec (.setrot a) s = .next (respond .ok .none (note .badAngle s)) := by
  rw [exec, execSetrot, served_ready _ _ hl, hq]

theorem exec_getrot {s : State} (hl : s.life = .ready) :
    exec .getrot s = .next (respond .ok (.angle (angle s.rot)) s) := by
  rw [exec, execGetrot, served_ready _ _ hl]

theorem exec_slot {s : State} {x y : Int} {c d : Coord} (hl : s.life = .ready) (hxy : coords? x y = some (c, d)) :
    exec (.slot x y) s = .next (respond .ok (.slot (some (slotFor s.rot c d))) s) := by
  rw [exec, execSlot, served_ready _ _ hl, hxy]

theorem exec_slot_bad {s : State} {x y : Int} (hl : s.life = .ready) (hxy : coords? x y = none) :
    exec (.slot x y) s = .next (respond .ok (.slot none) (note .badCoord s)) := by
  rw [exec, execSlot, served_ready _ _ hl, hxy]

theorem exec_sloti {s : State} {z : Int} {i : Fin 64} (hl : s.life = .ready) (hz : index? z = some i) :
    exec (.sloti z) s = .next (respond .ok (.slot (some (slotForIndex s.rot i))) s) := by
  rw [exec, execSloti, served_ready _ _ hl, hz]

theorem exec_sloti_bad {s : State} {z : Int} (hl : s.life = .ready) (hz : index? z = none) :
    exec (.sloti z) s = .next (respond .ok (.slot none) (note .badCoord s)) := by
  rw [exec, execSloti, served_ready _ _ hl, hz]

/-! ### SETROT.R by the answers of its transactions (41_rotation.md R82) -/

/-- The bytes SETROT.R writes under its new code `q`. -/
def redrawnBytes (q : RotCode) (s : State) : List Byte :=
  encodeBytes (decodeBytes (s.fb.readBytes 0 128) s.rot) q

@[simp] theorem redrawnBytes_length (q : RotCode) (s : State) : (redrawnBytes q s).length = 128 :=
  encodeBytes_length _ q

theorem redrawnBytes_word (q : RotCode) (s : State) (i : Fin 64) :
    wordAt (redrawnBytes q s) (2 * (slotForIndex q i).val) = s.fb.word (slotForIndex s.rot i) :=
  (encodeBytes_decodeBytes_word _ s.rot q i).trans (wordAt_readBytes s.fb _)

/-- After the redraw, slot `σ_q(i)` holds what slot `σ_old(i)` held. -/
theorem word_redrawn {s : State} (hw : s.fb.wf = true) (q : RotCode) (i : Fin 64) :
    (s.fb.writeBytes 0 (redrawnBytes q s)).word (slotForIndex q i) = s.fb.word (slotForIndex s.rot i) := by
  rw [word_writeBytes_whole hw (redrawnBytes_length q s), redrawnBytes_word]

theorem exec_setrotR_reject {s : State} {a : Int} (hl : s.life = .ready) (hq : normalise a = none) :
    exec (.setrotR a) s = .next (respond .ok .none (note .badAngle s)) := by
  rw [exec, execSetrotR, served_ready _ _ hl, hq]

section
variable {s : State} {a : Int} {q : RotCode} {rest : List IoAnswer}

theorem exec_setrotR_readFail (hl : s.life = .ready) (hq : normalise a = some q) (hio : s.io = .fail :: rest) :
    exec (.setrotR a) s =
      .next { s with io := rest, trace := s.trace ++ [.fbRead 0 128 .fail, .resp .ioerr .none] } := by
  rw [exec, execSetrotR, served_ready _ _ hl]
  simp only [hq, memRead_fail hio]
  simp [respond, emit, Span.off, Span.len]

theorem exec_setrotR_ok (hl : s.life = .ready) (hq : normalise a = some q) (hio : s.io = .ok :: .ok :: rest) :
    exec (.setrotR a) s =
      .next { s with rot := q, fb := s.fb.writeBytes 0 (redrawnBytes q s), io := rest, trace := s.trace ++
        [.fbRead 0 128 .ok, .fbWrite 0 (redrawnBytes q s) none .ok, .resp .ok .none] } := by
  rw [exec, execSetrotR, served_ready _ _ hl]
  simp only [hq, memRead_ok hio]
  rw [memWrite_ok rfl]
  simp [respond, emit, Span.off, Span.len, redrawnBytes]

theorem exec_setrotR_writeFail (hl : s.life = .ready) (hq : normalise a = some q) (hio : s.io = .ok :: .fail :: rest) :
    exec (.setrotR a) s =
      .next { s with rot := q, fb := s.fb.writeBytes 0 (failedBytes s.draws .whole), io := rest, draws := s.draws + 1,
                     trace := s.trace ++
                       [.fbRead 0 128 .ok, .fbWrite 0 (redrawnBytes q s) none .fail, .resp .ioerr .none] } := by
  rw [exec, execSetrotR, served_ready _ _ hl]
  simp only [hq, memRead_ok hio]
  rw [memWrite_fail rfl]
  simp [respond, emit, Span.off, Span.len, redrawnBytes]

end

/-- A write of the whole buffer leaves everything past it (20_memory.md R40). -/
theorem read_writeBytes_past_end (m : Memory) {b : List Byte} (hb : b.length = 128) {off : Nat} (hoff : 128 ≤ off) :
    (m.writeBytes 0 b).read off = m.read off :=
  Memory.read_writeBytes_outside _ _ _ _ (by omega)

/-! ### The obligations -/

/-- Settles O15: the model's remainder is where the loop ends. -/
theorem normaliseAddsUntilNonNegative : Obligations.NormaliseAddsUntilNonNegative :=
  fun _ _ => normalise_eq_some.trans addTurns_iff.symm

/-- Settles O17: one clause per answer of the two transactions; the bytes written carry each word to its new slot.  The
witness's fields are reduced (`dsimp only`) before they are compared, or the unifier would run `writeBytes`. -/
theorem setrotRedrawMovesThePicture : Obligations.SetrotRedrawMovesThePicture := by
  intro s a hl hw
  refine ⟨fun hq => exec_setrotR_reject hl hq, fun q rest hq hio => exec_setrotR_readFail hl hq hio,
    fun q rest hq hio => ?_, fun q rest hq hio => ?_⟩
  · have hlen := redrawnBytes_length q s
    refine ⟨_, exec_setrotR_ok hl hq hio, ?_, ?_, ?_⟩ <;> dsimp only
    · rw [readBytes_writeBytes hw hlen]
    · exact word_redrawn hw q
    · exact fun off hoff => read_writeBytes_past_end s.fb hlen hoff
  · refine ⟨_, redrawnBytes q s, exec_setrotR_writeFail hl hq hio, ?_, redrawnBytes_length q s,
      redrawnBytes_word q s, ?_⟩ <;> dsimp only
    exact fun off hoff => read_writeBytes_past_end s.fb (failedBytes_length s.draws .whole) hoff

/-- Settles O19: the coordinates are in range, and R79's formulas give the slot, or they are not. -/
theorem slotOfACoordinate : Obligations.SlotOfACoordinate := by
  refine fun s x y hl => ⟨fun hxy => ?_, fun hxy => exec_slot_bad hl (coords?_eq_none.2 hxy)⟩
  obtain ⟨c, d, hcd, rfl, rfl⟩ := coords?_of_range hxy
  exact ⟨_, exec_slot hl hcd, slotFor_formulas s.rot c d⟩

/-- Settles O20: R79's formulas at the index's coordinate `(i % 8, i / 8)` are the closed forms of R80. -/
theorem slotOfAnIndex : Obligations.SlotOfAnIndex := by
  refine fun s z hl => ⟨fun hz => ?_, fun hz => exec_sloti_bad hl (index?_eq_none.2 hz)⟩
  lift z to Nat using hz.1
  have hi : index? z = some ⟨z, by omega⟩ := index?_eq_some.2 rfl
  obtain ⟨h0, h1, h2, h3⟩ := slotFor_formulas s.rot ⟨z % 8, by omega⟩ ⟨z / 8, by omega⟩
  refine ⟨_, exec_sloti hl hi, fun hq => (h0 hq).trans ?_, fun hq => (h1 hq).trans ?_, fun hq => (h2 hq).trans ?_,
    fun hq => (h3 hq).trans ?_⟩ <;> push_cast <;> omega

/-- Settles O21: SLOTI answers `slotForIndex`, which takes the value `v` at one index only. -/
theorem slotsAreHitExactlyOnce : Obligations.SlotsAreHitExactlyOnce := by
  intro s v hl i
  rw [exec_sloti hl (index?_eq_some.2 rfl)]
  have hanswer : Host.Outcome.next (respond .ok (.slot (some (slotForIndex s.rot i))) s) =
      (.next { s with trace := s.trace ++ [.resp .ok (.slot (some v))] } : Host.Outcome State Fault Refusal) ↔
        slotForIndex s.rot i = v := by
    simp [respond, emit]
  rw [hanswer, slotForIndex_eq_iff, Fin.ext_iff, elementOf]

/-- Settles O16: the two outcomes of `normalise`. -/
theorem setrotCommitsOrRejects : Obligations.SetrotCommitsOrRejects :=
  fun _ _ hl => ⟨fun _ hq => exec_setrot_accept hl hq, fun hq => exec_setrot_reject hl hq⟩

/-- Settles O18: the answer is the angle of the code. -/
theorem getrotAnswersDegrees : Obligations.GetrotAnswersDegrees :=
  fun s hl => ⟨angle s.rot, rfl, angle_cases s.rot, exec_getrot hl⟩

end Sys2Proof.Machine
end

section
/-! Proofs of the family 42_pixel_buffer.md: DECODE, ENCODE, CHECKGRID, GETPIX and SETPIX in a READY block (R88 to R94),
and the laws of the grid codec (R95). -/

namespace Sys2Proof.Machine

/-- A notice that depends on a check changes `DIAG` alone. -/
theorem noteIf_eq (b : Bool) (n : Notice) (s : State) :
    noteIf b n s = { s with diag := bif b then s.diag ||| n.bit else s.diag } := by
  cases b <;> rfl

/-! ### The guarded grid (42_pixel_buffer.md R89) -/

/-- The grid `checkGrid` gives. -/
def guardedGrid (g : RawGrid) : List RGB := if g.length = 64 then g.map validColor else List.replicate 64 BLACK

/-- `DIAG` after `checkGrid`, by what it was. -/
def guardedDiag (g : RawGrid) (d : Byte) : Byte :=
  if g.length = 64 then bif g.any badColor then d ||| 0x01 else d else d ||| 0x02

theorem guardedGrid_64 {g : RawGrid} (hg : g.length = 64) : guardedGrid g = g.map validColor := if_pos hg

theorem guardedGrid_bad {g : RawGrid} (hg : g.length ≠ 64) : guardedGrid g = List.replicate 64 BLACK := if_neg hg

theorem guardedDiag_64 {g : RawGrid} (hg : g.length = 64) (d : Byte) :
    guardedDiag g d = bif g.any badColor then d ||| 0x01 else d := if_pos hg

theorem guardedDiag_bad {g : RawGrid} (hg : g.length ≠ 64) (d : Byte) : guardedDiag g d = d ||| 0x02 := if_neg hg

theorem checkGrid_eq_guarded (g : RawGrid) (s : State) :
    checkGrid g s = (guardedGrid g, { s with diag := guardedDiag g s.diag }) := by
  by_cases hg : g.length = 64
  · rw [checkGrid_64 hg, guardedGrid_64 hg, guardedDiag_64 hg, noteIf_eq]; rfl
  · rw [checkGrid_bad hg, guardedGrid_bad hg, guardedDiag_bad hg]; rfl

/-! ### The bytes of a guarded grid (42_pixel_buffer.md R89) -/

/-- Element `i`'s word, or black's for a bad element, stands at slot `σ_q(i)`. -/
theorem encodeBytes_guardedGrid_word {g : RawGrid} (hg : g.length = 64) (q : RotCode) {i : Fin 64} {c : RawColor}
    (hc : g[i.val]? = some c) :
    wordAt (encodeBytes (guardedGrid g) q) (2 * (slotForIndex q i).val) = pack (validColor c) := by
  rw [encodeBytes_word, guardedGrid_64 hg, List.getD_eq_getElem?_getD, List.getElem?_map, hc]
  rfl

theorem wordAt_zeros (n off : Nat) : wordAt (List.replicate n 0) off = 0 := by
  simp only [wordAt, List.getD_eq_getElem?_getD, List.getElem?_getD_replicate_default_eq]
  rfl

/-- Black is the word 0, so an all-black grid is 128 zero bytes under every code. -/
theorem encodeBytes_black (q : RotCode) : encodeBytes (List.replicate 64 BLACK) q = List.replicate 128 0 := by
  refine bytes_ext (encodeBytes_length _ q) List.length_replicate fun v => ?_
  obtain ⟨i, rfl⟩ := slotForIndex_surj q v
  rw [encodeBytes_word, List.getD_replicate _ i.isLt, wordAt_zeros]
  rfl

theorem encodeBytes_guardedGrid_bad {g : RawGrid} (hg : g.length ≠ 64) (q : RotCode) :
    encodeBytes (guardedGrid g) q = List.replicate 128 0 := by
  rw [guardedGrid_bad hg, encodeBytes_black]

/-! ### The commands in a READY block, by the answers of the environment (42_pixel_buffer.md R90 to R94) -/

theorem exec_checkgrid {s : State} (hl : s.life = .ready) (g : RawGrid) :
    exec (.checkgrid g) s =
      .next { s with diag := guardedDiag g s.diag, trace := s.trace ++ [.resp .ok (.grid (guardedGrid g))] } := by
  rw [exec, execCheckgrid, served_ready _ _ hl, checkGrid_eq_guarded]
  rfl

theorem exec_getpix_badCoord {s : State} {x y : Int} (hl : s.life = .ready) (hxy : coords? x y = none) :
    exec (.getpix x y) s = .next (respond .ok (.rgb BLACK) (note .badCoord s)) := by
  rw [exec, execGetpix, served_ready _ _ hl, hxy]

theorem exec_setpix_badCoord {s : State} {x y : Int} (hl : s.life = .ready) (hxy : coords? x y = none) (c : RawColor) :
    exec (.setpix x y c) s = .next (respond .ok .none (note .badCoord (noteIf (badColor c) .badColor s))) := by
  rw [exec, execSetpix, served_ready _ _ hl, validate_eq, hxy]

section
variable {s : State} {rest : List IoAnswer}

theorem exec_fbDecode_fail (hl : s.life = .ready) (hio : s.io = .fail :: rest) :
    exec .fbDecode s =
      .next { s with io := rest, trace := s.trace ++ [.fbRead 0 128 .fail, .resp .ioerr .none] } := by
  rw [exec, execFbDecode, served_ready _ _ hl]
  simp only [memRead_fail hio]
  simp [respond, emit, Span.off, Span.len]

theorem exec_fbEncode_guarded_ok (hl : s.life = .ready) (hio : s.io = .ok :: rest) (g : RawGrid) :
    exec (.fbEncode g) s =
      .next { s with diag := guardedDiag g s.diag, fb := s.fb.writeBytes 0 (encodeBytes (guardedGrid g) s.rot),
                     io := rest, trace := s.trace ++
                       [.fbWrite 0 (encodeBytes (guardedGrid g) s.rot) none .ok, .resp .ok .none] } := by
  rw [exec, execFbEncode, served_ready _ _ hl, checkGrid_eq_guarded]
  simp only
  rw [memWrite_ok (by exact hio)]
  simp [respond, emit, Span.off]

theorem exec_fbEncode_guarded_fail (hl : s.life = .ready) (hio : s.io = .fail :: rest) (g : RawGrid) :
    exec (.fbEncode g) s =
      .next { s with diag := guardedDiag g s.diag, fb := s.fb.writeBytes 0 (failedBytes s.draws .whole),
                     io := rest, draws := s.draws + 1, trace := s.trace ++
                       [.fbWrite 0 (encodeBytes (guardedGrid g) s.rot) none .fail, .resp .ioerr .none] } := by
  rw [exec, execFbEncode, served_ready _ _ hl, checkGrid_eq_guarded]
  simp only
  rw [memWrite_fail (by exact hio)]
  simp [respond, emit, Span.off]

variable {x y : Int} {a b : Coord}

theorem exec_getpix_ok (hl : s.life = .ready) (hxy : coords? x y = some (a, b)) (hio : s.io = .ok :: rest) :
    exec (.getpix x y) s =
      .next { s with io := rest, trace := s.trace ++
        [.fbRead (2 * (slotFor s.rot a b).val) 2 .ok, .resp .ok (.rgb (unpack (s.fb.word (slotFor s.rot a b))))] } := by
  rw [exec, execGetpix, served_ready _ _ hl, hxy]
  simp only [memRead_ok hio]
  simp [respond, emit, Span.off, Span.len, wordAt_readBytes_word]

theorem exec_getpix_fail (hl : s.life = .ready) (hxy : coords? x y = some (a, b)) (hio : s.io = .fail :: rest) :
    exec (.getpix x y) s =
      .next { s with io := rest, trace := s.trace ++
        [.fbRead (2 * (slotFor s.rot a b).val) 2 .fail, .resp .ioerr .none] } := by
  rw [exec, execGetpix, served_ready _ _ hl, hxy]
  simp only [memRead_fail hio]
  simp [respond, emit, Span.off, Span.len]

theorem exec_setpix_ok (hl : s.life = .ready) (hxy : coords? x y = some (a, b)) (hio : s.io = .ok :: rest)
    (c : RawColor) :
    exec (.setpix x y c) s =
      .next { s with diag := (bif badColor c then s.diag ||| 0x01 else s.diag),
                     fb := s.fb.writeBytes (2 * (slotFor s.rot a b).val) (bytesOf (pack (validColor c))), io := rest,
                     trace := s.trace ++
                       [.fbWrite (2 * (slotFor s.rot a b).val) (bytesOf (pack (validColor c))) none .ok,
                        .resp .ok .none] } := by
  rw [exec, execSetpix, served_ready _ _ hl, validate_eq, noteIf_eq, hxy]
  simp only
  rw [memWrite_ok (by exact hio)]
  simp [respond, emit, Span.off, Notice.bit]

theorem exec_setpix_fail (hl : s.life = .ready) (hxy : coords? x y = some (a, b)) (hio : s.io = .fail :: rest)
    (c : RawColor) :
    exec (.setpix x y c) s =
      .next { s with diag := (bif badColor c then s.diag ||| 0x01 else s.diag),
                     fb := s.fb.writeBytes (2 * (slotFor s.rot a b).val)
                       (failedBytes s.draws (.word (slotFor s.rot a b))),
                     io := rest, draws := s.draws + 1,
                     trace := s.trace ++
                       [.fbWrite (2 * (slotFor s.rot a b).val) (bytesOf (pack (validColor c))) none .fail,
                        .resp .ioerr .none] } := by
  rw [exec, execSetpix, served_ready _ _ hl, validate_eq, noteIf_eq, hxy]
  simp only
  rw [memWrite_fail (by exact hio)]
  simp [respond, emit, Span.off, Notice.bit]

end

/-- A write of two bytes leaves every other byte (42_pixel_buffer.md R94). -/
theorem read_writeBytes_two (m : Memory) {bs : List Byte} (hb : bs.length = 2) {k off : Nat} (h0 : off ≠ k)
    (h1 : off ≠ k + 1) : (m.writeBytes k bs).read off = m.read off :=
  Memory.read_writeBytes_outside _ _ _ _ (by omega)

/-! ### The obligations -/

/-- Settles O22: the words of the bytes read are the buffer's. -/
theorem decodeAnswersTheGrid : Obligations.DecodeAnswersTheGrid := by
  refine fun s rest hl => ⟨fun hio => ⟨_, exec_fbDecode_ok hl hio, decodeBytes_length _ _, fun i => ?_⟩,
    fun hio => exec_fbDecode_fail hl hio⟩
  rw [← wordAt_readBytes, List.getElem?_eq_getElem (by simp), decodeBytes_getElem]

/-- Settles O23: what is written are the guarded grid's bytes; a grid of another length is guarded to black, 128 zeros. -/
theorem encodeWritesTheGrid : Obligations.EncodeWritesTheGrid := by
  intro s g rest hl hw
  have hlen := encodeBytes_length (guardedGrid g) s.rot
  refine ⟨fun hg hio => ?_, fun hg hio => ?_, fun hio => ?_⟩
  · refine ⟨_, exec_fbEncode_guarded_ok hl hio g, ?_, fun i c hc => ?_, fun off hoff => ?_⟩ <;> dsimp only
    · rw [guardedDiag_64 hg, readBytes_writeBytes hw hlen]
    · rw [word_writeBytes_whole hw hlen, encodeBytes_guardedGrid_word hg s.rot hc]
    · exact read_writeBytes_past_end s.fb hlen hoff
  · refine ⟨_, exec_fbEncode_guarded_ok hl hio g, ?_, fun off hoff => ?_, fun off hoff => ?_⟩ <;> dsimp only
    · rw [guardedDiag_bad hg, encodeBytes_guardedGrid_bad hg]
    · rw [read_writeBytes_whole hw hlen hoff, encodeBytes_guardedGrid_bad hg, List.getD_replicate _ hoff]
    · exact read_writeBytes_past_end s.fb hlen hoff
  · refine ⟨_, _, exec_fbEncode_guarded_fail hl hio g, ?_,
      fun hg => ⟨hlen, fun i c hc => encodeBytes_guardedGrid_word hg s.rot hc⟩,
      fun hg => encodeBytes_guardedGrid_bad hg s.rot, fun off hoff => ?_⟩ <;> dsimp only
    · rw [guardedDiag]
    · exact read_writeBytes_past_end s.fb (failedBytes_length s.draws .whole) hoff

/-- Settles O24: CHECKGRID answers `guardedGrid` and leaves `guardedDiag`, as ENCODE does. -/
theorem checkgridAnswersTheGuardedGrid : Obligations.CheckgridAnswersTheGuardedGrid := by
  intro s g hl
  rw [exec_checkgrid hl g]
  constructor
  · intro hg
    rw [guardedDiag_64 hg, guardedGrid_64 hg]
  · intro hg
    rw [guardedDiag_bad hg, guardedGrid_bad hg]
    rfl

/-- Settles O25: one clause for a bad coordinate, one for each answer of the read. -/
theorem getpixReadsOnePixel : Obligations.GetpixReadsOnePixel :=
  fun _ _ hl => ⟨fun _ _ hxy => exec_getpix_badCoord hl (coords?_eq_none.2 hxy),
    fun _ _ hio => exec_getpix_ok hl (coords?_eq_some.2 ⟨rfl, rfl⟩) hio,
    fun _ _ hio => exec_getpix_fail hl (coords?_eq_some.2 ⟨rfl, rfl⟩) hio⟩

/-- Settles O26: the two bytes of the slot are all that a write addresses, whatever the environment answers. -/
theorem setpixWritesOnePixel : Obligations.SetpixWritesOnePixel := by
  intro s c rest hl hw
  have hcoords : ∀ x y : Coord, coords? x.val y.val = some (x, y) := fun _ _ => coords?_eq_some.2 ⟨rfl, rfl⟩
  refine ⟨fun x y hxy => ?_, fun x y hio => ?_, fun x y hio => ?_⟩
  · rw [exec_setpix_badCoord hl (coords?_eq_none.2 hxy), noteIf_eq]
    rfl
  · refine ⟨_, exec_setpix_ok hl (hcoords x y) hio c, ?_, ?_, fun off h0 h1 => ?_⟩ <;> dsimp only
    · rw [readBytes_writeBytes_word hw]
    · exact word_writeBytes_word hw _ _
    · exact read_writeBytes_two s.fb rfl h0 h1
  · refine ⟨_, exec_setpix_fail hl (hcoords x y) hio c, rfl, fun off h0 h1 => ?_⟩
    exact read_writeBytes_two s.fb (failedBytes_length s.draws _) h0 h1

/-- Settles O27: decoding undoes encoding up to each color's trip through its word, encoding undoes decoding, and
`checkGrid` passes every valid grid. -/
theorem gridCodecLaws : Obligations.GridCodecLaws := by
  refine ⟨fun q g hg hlow => ?_, decodeBytes_encodeBytes, fun q b hb => encodeBytes_decodeBytes hb q,
    fun q q' b i _ => encodeBytes_decodeBytes_word b q q' i, fun g s hg => checkGrid_map g s hg,
    fun g s hg => by rw [checkGrid_bad hg], fun g s t => checkGrid_map _ t (checkGrid_length g s)⟩
  have htrip : ∀ c ∈ g, unpack (pack c) = c := fun c hc => (unpack_pack_eq_iff c).2 (hlow c hc)
  rw [decodeBytes_encodeBytes q g hg, List.map_congr_left htrip, List.map_id']

end Sys2Proof.Machine
end

section
/-! Proofs of the family 43_glyph_store.md: the font load (R97, R98), the font until the next reset (R99), and LOOKUP (R100,
R101). -/

namespace Sys2Proof.Machine

/-! ### The font load by its assets (43_glyph_store.md R97, R98) -/

theorem loadedTable_of_wellFormed {a : Assets} {p : List RGB} {cs : Str} (hp : a.strip = some p)
    (hc : a.chars = some cs) (hlen : p.length = 40 * cs.length) (hnd : cs.Nodup) (hq : '?' ∈ cs) :
    loadedTable a = some (fontTable p cs) :=
  loadedTable_eq_some.mpr ⟨p, cs, hp, hc, hlen, mem_hasRepeat_false.mpr hnd, hq, rfl⟩

theorem loadedTable_eq_none {a : Assets}
    (h : ¬∃ (p : List RGB) (cs : Str), a.strip = some p ∧ a.chars = some cs ∧ p.length = 40 * cs.length ∧ cs.Nodup ∧
      '?' ∈ cs) : loadedTable a = none := by
  refine Option.eq_none_iff_forall_ne_some.mpr fun ft hft => h ?_
  obtain ⟨p, cs, hp, hc, hlen, hnd, hq, -⟩ := loadedTable_eq_some.mp hft
  exact ⟨p, cs, hp, hc, hlen, mem_hasRepeat_false.mp hnd, hq⟩

theorem find?_fontTable_of_getElem? (p : List RGB) {cs : Str} (hnd : cs.Nodup) {k : Nat} {ch : Char}
    (hk : cs[k]? = some ch) : FontTable.find? (fontTable p cs) ch = some ((p.drop (40 * k)).take 40) := by
  refine find?_of_mem (by rw [fontTable_fst]; exact mem_hasRepeat_false.mpr hnd) (List.mem_of_getElem? (i := k) ?_)
  rw [fontTable_getElem?, hk]
  rfl

theorem find?_fontTable_of_not_mem (p : List RGB) {cs : Str} {ch : Char} (h : ch ∉ cs) :
    FontTable.find? (fontTable p cs) ch = none :=
  find?_none (by rwa [fontTable_fst])

/-! ### The font and the life cycle of a READY block (43_glyph_store.md R99) -/

theorem runCommand_keeps_font {c : Command} {s t : State} (h : runCommand c s = .next t) :
    t.ft = s.ft ∧ t.life = s.life := by
  rw [runCommand] at h
  split at h
  · obtain ⟨hlife, hft, -⟩ := exec_rest h
    exact ⟨hft, hlife⟩
  · cases h; exact ⟨rfl, rfl⟩

/-- In a READY block no input but a reset touches the font: an asset delivery comes too late. -/
theorem hostInput_keeps_font {i : Input} {s t : State} (hl : s.life = .ready) (hi : i ≠ .reset)
    (h : hostInput i s = .next t) : t.ft = s.ft ∧ t.life = s.life := by
  cases i with
  | command c => cases h; exact ⟨rfl, rfl⟩
  | overlap c => cases h
  | assets a =>
    rw [hostInput, fontLoad_late a (by simp [hl])] at h
    cases h; exact ⟨rfl, rfl⟩
  | hostWrite off v =>
    rw [hostInput] at h
    split at h
    next => cases h; exact ⟨rfl, rfl⟩
    next => cases h
  | reset => exact absurd rfl hi

theorem step_assets {s : State} {a : Assets} {rest : List Input} (h : s.inbox = .assets a :: rest) :
    step s = .next (fontLoad a { s with inbox := rest }) := by
  rw [step, h]
  rfl

/-! ### LOOKUP (43_glyph_store.md R100, R101) -/

theorem fallbackGlyph_of_find? {ft : FontTable} {gl : List RGB} (h : FontTable.find? ft '?' = some gl) :
    fallbackGlyph ft = gl := by
  rw [fallbackGlyph, Config.fallbackChar, h, Option.getD_some]

theorem lookup_of_find? {ft : FontTable} {c : Char} {gl : List RGB} (h : FontTable.find? ft c = some gl) :
    lookup ft [c] = gl := by
  rw [lookup, h, Option.getD_some]

/-- The empty string, a string of two or more, and a single character outside the table. -/
theorem lookup_eq_fallback {ft : FontTable} {t : Str} (h : ∀ c, t = [c] → FontTable.find? ft c = none) :
    lookup ft t = fallbackGlyph ft := by
  match t with
  | [] => rfl
  | [c] => rw [lookup, h c rfl, Option.getD_none]
  | _ :: _ :: _ => rfl

theorem exec_lookup {s : State} (hl : s.life = .ready) (t : Str) :
    exec (.lookup t) s = .next { s with trace := s.trace ++ [.resp .ok (.glyph (lookup s.ft t))] } := by
  rw [exec, execLookup, served_ready _ _ hl]
  rfl

/-! ### The obligations -/

/-- Settles O29: the checks of the load pass exactly for these assets, and the table then holds the pair of each position. -/
theorem fontLoadDecidesTheLife : Obligations.FontLoadDecidesTheLife := by
  refine fun s a hi => ⟨fun p cs hp hc hlen hnd hq => ?_, fun hbad => ?_⟩
  · refine ⟨{ s with ft := fontTable p cs, life := .ready }, ?_, rfl,
      fun k ch hk => find?_fontTable_of_getElem? p hnd hk, fun ch hch => find?_fontTable_of_not_mem p hch⟩
    rw [fontLoad_init a hi, loadedTable_of_wellFormed hp hc hlen hnd hq]
  · rw [fontLoad_init a hi, loadedTable_eq_none hbad]

/-- Settles O51: a wait changes nothing, a command never touches the font, any other input but a reset leaves it. -/
theorem fontStaysUntilReset : Obligations.FontStaysUntilReset := by
  intro s t hl hreset h
  have hkeeps : t.ft = s.ft ∧ t.life = s.life := by
    rcases step_cases s with ⟨-, e⟩ | ⟨c, rest, -, e⟩ | ⟨i, rest, hin, e⟩ <;> rw [e] at h
    · cases h; exact ⟨rfl, rfl⟩
    · exact runCommand_keeps_font (s := { s with inbox := rest }) h
    · have hi : i ≠ .reset := by rintro rfl; simp [hin] at hreset
      exact hostInput_keeps_font (s := { s with inbox := rest }) hl hi h
  rwa [hl] at hkeeps

/-- Settles O30: the delivery runs `fontLoad`, which a block that has left INIT does not feel. -/
theorem deliveredAssetsRunTheLoad : Obligations.DeliveredAssetsRunTheLoad :=
  fun _ a _ h => ⟨fun _ => step_assets h, fun hl => by rw [step_assets h, fontLoad_late a (by exact hl)]⟩

/-- Settles O31: LOOKUP answers `lookup`, which is the character's own glyph or the fallback's. -/
theorem lookupFallsBackToQuestionMark : Obligations.LookupFallsBackToQuestionMark := by
  refine fun s g0 hl hq => ⟨fun c gl hc => ?_, fun t ht => ?_⟩
  · rw [exec_lookup hl, lookup_of_find? hc]
  · rw [exec_lookup hl, lookup_eq_fallback ht, fallbackGlyph_of_find? hq]

end Sys2Proof.Machine
end

section
/-! Proofs of the family 44_text_renderer.md: TRIM, RECOLOR, RENDERLETTER, RENDERSTRING and SCROLL in a READY block (R102
to R106, R109 to R113), and the display commands under the scoped override (R107, R108, R114 to R116). -/

namespace Sys2Proof.Machine

/-! ### The pure commands in a READY block (44_text_renderer.md R109 to R113) -/

theorem exec_trim {s : State} {gl : List RGB} (hl : s.life = .ready) (hlen : gl.length = 40) :
    exec (.trim gl) s = .next (respond .ok (.pixels (trim gl)) s) := by
  have hwf : (Instr.trim gl).wf = true := by simp [Instr.wf, hlen]
  rw [exec, execTrim, hwf, served_ready _ _ hl]

theorem exec_recolor {s : State} (hl : s.life = .ready) (p : List RGB) (fg bg : RGB) :
    exec (.recolor p fg bg) s = .next (respond .ok (.pixels (recolor p fg bg)) s) := by
  rw [exec, execRecolor, served_ready _ _ hl]

theorem exec_renderletter {s : State} (hl : s.life = .ready) (t : Str) (fg bg : RGB) :
    exec (.renderletter t fg bg) s = .next (respond .ok (.grid (renderLetter s.ft t fg bg)) s) := by
  rw [exec, execRenderletter, served_ready _ _ hl]

theorem exec_renderstring {s : State} (hl : s.life = .ready) (t : Str) (fg bg : RGB) :
    exec (.renderstring t fg bg) s = .next (respond .ok (.pixels (renderString s.ft t fg bg)) s) := by
  rw [exec, execRenderstring, served_ready _ _ hl]

theorem exec_scroll_refused {s : State} {n : Int} (hl : s.life = .ready) (hn : n ≤ 0) (seq : List RGB) :
    exec (.scroll seq n) s = .next (refuse s) := by
  rw [exec, execScroll, served_ready _ _ hl, if_pos hn]

theorem exec_scroll_ok {s : State} {n : Int} (hl : s.life = .ready) (hn : 1 ≤ n) (seq : List RGB) :
    exec (.scroll seq n) s = .next (respond .ok (.grids (scroll seq n.toNat)) s) := by
  rw [exec, execScroll, served_ready _ _ hl, if_neg (by omega)]

/-! ### Black and ink (44_text_renderer.md R102) -/

theorem blackRow_iff {row : List RGB} : blackRow row = true ↔ ∀ c ∈ row, c = BLACK := by simp [blackRow]

theorem eq_black_of_getElem? {row : List RGB} (h : blackRow row = true) {k : Nat} {c : RGB} (hk : row[k]? = some c) :
    c = BLACK := blackRow_iff.mp h c (List.mem_of_getElem? hk)

theorem blackRow_eq_false_iff {row : List RGB} : blackRow row = false ↔ ∃ c ∈ row, c ≠ BLACK := by
  rw [← Bool.not_eq_true, blackRow_iff]
  push Not
  rfl

theorem exists_ink {row : List RGB} (h : blackRow row = false) :
    ∃ (k : Nat) (c : RGB), row[k]? = some c ∧ c ≠ BLACK := by
  obtain ⟨c, hc, hne⟩ := blackRow_eq_false_iff.mp h
  obtain ⟨k, hk⟩ := List.getElem?_of_mem hc
  exact ⟨k, c, hk, hne⟩

theorem getElem?_append_middle {α : Type} (pre mid post : List α) {k : Nat} (hk : k < mid.length) :
    (pre ++ mid ++ post)[pre.length + k]? = mid[k]? := by
  rw [List.append_assoc, List.getElem?_append_right (by omega), Nat.add_sub_cancel_left, List.getElem?_append_left hk]

/-- In whole rows, `trim` cuts out rows a to b: black before and after, ink in row a and in row b. -/
theorem trim_eq_rows {gl : List RGB} (h : 8 ∣ gl.length) (hb : blackRow gl = false) :
    ∃ a b : Nat, a ≤ b ∧ 8 * (b + 1) ≤ gl.length ∧ trim gl = (gl.drop (8 * a)).take (8 * (b + 1 - a)) ∧
      (∀ k c, gl[k]? = some c → k < 8 * a ∨ 8 * (b + 1) ≤ k → c = BLACK) ∧
      (∃ k c, 8 * a ≤ k ∧ k < 8 * (a + 1) ∧ gl[k]? = some c ∧ c ≠ BLACK) ∧
      (∃ k c, 8 * b ≤ k ∧ k < 8 * (b + 1) ∧ gl[k]? = some c ∧ c ≠ BLACK) := by
  obtain ⟨pre, post, hgl, hpre, hpost, ⟨a, ha⟩, ⟨n, hn⟩, h8, hfirst, hlast⟩ := trim_split gl h hb
  generalize trim gl = mid at *
  subst hgl
  have hlen : (pre ++ mid).length = 8 * (a + n) := by simp; omega
  refine ⟨a, a + n - 1, by omega, by rw [List.length_append]; omega, ?_, fun k c hk hout => ?_, ?_, ?_⟩
  · rw [List.append_assoc, List.drop_left' ha, List.take_left' (by omega)]
  · rcases hout with hk' | hk'
    · rw [List.append_assoc, List.getElem?_append_left (by omega)] at hk
      exact eq_black_of_getElem? hpre hk
    · rw [List.getElem?_append_right (by omega)] at hk
      exact eq_black_of_getElem? hpost hk
  · obtain ⟨k, c, hk, hne⟩ := exists_ink hfirst
    have hk8 : k < 8 := by
      have := (List.getElem?_eq_some_iff.mp hk).1
      rw [List.length_take] at this
      omega
    rw [List.getElem?_take_of_lt hk8] at hk
    refine ⟨8 * a + k, c, by omega, by omega, ?_, hne⟩
    rw [← ha, getElem?_append_middle _ _ _ (by omega), hk]
  · obtain ⟨k, c, hk, hne⟩ := exists_ink hlast
    rw [List.getElem?_drop] at hk
    have hlt := (List.getElem?_eq_some_iff.mp hk).1
    refine ⟨pre.length + (mid.length - 8 + k), c, by omega, by omega, ?_, hne⟩
    rw [getElem?_append_middle _ _ _ hlt, hk]

/-! ### The parts of a rendered letter and of a rendered string (44_text_renderer.md R104, R105) -/

section
variable {α : Type} (ft : FontTable) (t : Str) (fg bg : α)

theorem renderLetter_lead {k : Nat} (hk : k < 8) : (renderLetter ft t fg bg)[k]? = some bg := by
  rw [renderLetter, List.append_assoc, List.getElem?_append_left (by simpa using hk), List.getElem?_replicate_of_lt hk]

theorem renderLetter_glyph {k : Nat} {c : RGB} (hk : (lookup ft t)[k]? = some c) :
    (renderLetter ft t fg bg)[8 + k]? = some (if c = BLACK then bg else fg) := by
  have hlt : k < (recolor (lookup ft t) fg bg).length := by simpa using (List.getElem?_eq_some_iff.mp hk).1
  have h := getElem?_append_middle (List.replicate 8 bg) _ (List.replicate 16 bg) hlt
  rwa [List.length_replicate, recolor_getElem?, hk] at h

theorem renderLetter_trail {k : Nat} (hlo : 8 + (lookup ft t).length ≤ k) (hhi : k < 24 + (lookup ft t).length) :
    (renderLetter ft t fg bg)[k]? = some bg := by
  have hlen : (List.replicate Config.letterLead bg ++ recolor (lookup ft t) fg bg).length = 8 + (lookup ft t).length := by
    rw [List.length_append, recolor_length, List.length_replicate]
  rw [renderLetter, List.getElem?_append_right (by omega), hlen, List.getElem?_replicate_of_lt (by simp; omega)]

theorem renderChar_length (c : Char) : (renderChar ft fg bg c).length = (trim (lookup ft [c])).length + 16 := by
  simp [renderChar]

theorem flatMap_renderChar_length :
    (t.flatMap (renderChar ft fg bg)).length = (t.map fun c => (trim (lookup ft [c])).length + 16).sum := by
  simp only [List.length_flatMap, renderChar_length]

theorem renderString_length :
    (renderString ft t fg bg).length = 16 + (t.map fun c => (trim (lookup ft [c])).length + 16).sum := by
  simp only [renderString, List.length_append, List.length_replicate, flatMap_renderChar_length, Config.strLead,
    Config.strTrail]
  omega

theorem renderString_take : (renderString ft t fg bg).take 8 = List.replicate 8 bg := by
  rw [renderString, List.append_assoc, List.take_left' (by simp)]

theorem renderString_drop :
    (renderString ft t fg bg).drop ((renderString ft t fg bg).length - 8) = List.replicate 8 bg := by
  rw [renderString, List.drop_left' (by simp)]

/-- What stands behind the pieces of `pre` is the piece of `c`. -/
theorem renderString_piece (pre post : Str) (c : Char) :
    ((renderString ft (pre ++ c :: post) fg bg).drop
        (8 + (pre.map fun c => (trim (lookup ft [c])).length + 16).sum)).take ((trim (lookup ft [c])).length + 16) =
      renderChar ft fg bg c := by
  have hsplit : renderString ft (pre ++ c :: post) fg bg =
      (List.replicate 8 bg ++ pre.flatMap (renderChar ft fg bg)) ++
        (renderChar ft fg bg c ++ (post.flatMap (renderChar ft fg bg) ++ List.replicate 8 bg)) := by
    simp [renderString]
  rw [hsplit, List.drop_left' (by simp only [List.length_append, List.length_replicate, flatMap_renderChar_length]),
    List.take_left' (renderChar_length ft fg bg c)]

end

/-! ### The frames of a scroll (44_text_renderer.md R106) -/

theorem lt_scroll_length {α : Type} (seq : List α) {step k : Nat} (h : 1 ≤ step) :
    k < (scroll seq step).length ↔ k * step + 64 ≤ seq.length := by
  rw [scroll_length, lt_frameCount h]

theorem scroll_frame {α : Type} {seq frame : List α} {step k : Nat} (h : 1 ≤ step)
    (hk : (scroll seq step)[k]? = some frame) : ∀ j < 64, frame[j]? = seq[k * step + j]? := by
  intro j hj
  have hle := (lt_scroll_length seq h).mp (List.getElem?_eq_some_iff.mp hk).1
  rw [scroll_getElem? seq h hle] at hk
  cases hk
  rw [List.getElem?_take_of_lt hj, List.getElem?_drop]

/-! ### The buffer past its end (20_memory.md R35) -/

theorem Memory.read_past_end {lo off : Nat} (m : Memory) (hw : Memory.wfFrom lo m = true) (h : 128 ≤ off) :
    m.read off = Memory.unlisted := by
  induction m generalizing lo with
  | nil => rfl
  | cons e m ih =>
    obtain ⟨k, v⟩ := e
    simp only [Memory.wfFrom, Bool.and_eq_true, decide_eq_true_eq, Config.fbBytes] at hw
    obtain ⟨⟨⟨-, hk⟩, -⟩, hm⟩ := hw
    have hne : k ≠ off := by omega
    rw [Memory.read, if_neg hne, ih hm]

/-- No command writes past the buffer's end, whatever the environment answers. -/
theorem exec_read_past_end {i : Instr} {s u : State} (h : exec i s = .next u) (hw : s.fb.wf = true) {off : Nat}
    (hoff : 128 ≤ off) : u.fb.read off = s.fb.read off := by
  rw [Memory.read_past_end u.fb (exec_fb_wf h hw) hoff, Memory.read_past_end s.fb hw hoff]

/-! ### The display commands as frames under the override (44_text_renderer.md R114 to R116) -/

/-- A display command is what its body does in the overridden state. -/
theorem scopedRotation_congr {body body' : State → IoAnswer × State} {s : State}
    (h : body (overridden s) = body' (overridden s)) : scopedRotation body s = scopedRotation body' s := by
  rw [scopedRotation_eq, scopedRotation_eq, h]

theorem exec_showletter {s : State} (hl : s.life = .ready) (t : Str) (fg bg : RawColor) :
    exec (.showletter t fg bg) s = .next (scopedRotation (writeFrame (renderLetter s.ft t fg bg) none) s) := by
  rw [exec, execShowletter, served_ready _ _ hl]
  exact congrArg _ (scopedRotation_congr rfl)

theorem exec_showmsg {s : State} (hl : s.life = .ready) (t : Str) (fg bg : RawColor) (hold : Hold) :
    exec (.showmsg t fg bg hold) s =
      .next (scopedRotation (runFrames (some hold) (scroll (renderString s.ft t fg bg) 8)) s) := by
  rw [exec, execShowmsg, served_ready _ _ hl]
  exact congrArg _ (scopedRotation_congr rfl)

theorem exec_flash {s : State} (hl : s.life = .ready) (t : Str) (fg bg : RawColor) (hold : Hold) :
    exec (.flash t fg bg hold) s =
      .next (scopedRotation (runFrames (some hold) (t.map fun c => renderLetter s.ft [c] fg bg)) s) := by
  rw [exec, execFlash, served_ready _ _ hl]
  exact congrArg _ (scopedRotation_congr rfl)

/-- Under the override, element `8r + c` of a frame goes to the slot of caller-logical `(r, 7 - c)` (44_text_renderer.md
R117 item 4). -/
theorem frameBytes_override_word (q : RotCode) {f : RawGrid} {r c : Coord} {v : RawColor}
    (hv : f[8 * r.val + c.val]? = some v) :
    wordAt (frameBytes (q + 1) f) (2 * (slotFor q r ⟨7 - c.val, by omega⟩).val) = pack (validColor v) := by
  rw [← slotForIndex_override, frameBytes, encodeBytes_word, elementOf, List.getD_eq_getElem?_getD, List.getElem?_map, hv]
  rfl

section
variable {s : State} {rest : List IoAnswer} {hold : Option Hold}

theorem scopedRotation_writeFrame_ok {f : RawGrid} (hf : f.length = 64) (hio : s.io = .ok :: rest) :
    scopedRotation (writeFrame f hold) s =
      { s with diag := (bif f.any badColor then s.diag ||| 0x01 else s.diag), saved := Config.savedDraw s.draws,
               fb := s.fb.writeBytes 0 (frameBytes (s.rot + 1) f), io := rest, draws := s.draws + 1,
               trace := s.trace ++ [.fbWrite 0 (frameBytes (s.rot + 1) f) hold .ok, .resp .ok .none] } := by
  rw [scopedRotation_eq, writeFrame_ok hf (by exact hio)]
  simp [respond, emit, restored, overridden]

theorem scopedRotation_writeFrame_fail {f : RawGrid} (hf : f.length = 64) (hio : s.io = .fail :: rest) :
    scopedRotation (writeFrame f hold) s =
      { s with diag := (bif f.any badColor then s.diag ||| 0x01 else s.diag), saved := Config.savedDraw (s.draws + 1),
               fb := s.fb.writeBytes 0 (failedBytes s.draws .whole), io := rest, draws := s.draws + 1 + 1,
               trace := s.trace ++ [.fbWrite 0 (frameBytes (s.rot + 1) f) hold .fail, .resp .ioerr .none] } := by
  rw [scopedRotation_eq, writeFrame_fail hf (by exact hio)]
  simp [respond, emit, restored, overridden]

theorem scopedRotation_runFrames_ok {fs : List RawGrid} (hf : ∀ f ∈ fs, f.length = 64) (hk : s.frameIdx = none)
    (hio : s.io = List.replicate fs.length .ok ++ rest) :
    scopedRotation (runFrames hold fs) s =
      { s with diag := (bif fs.any (fun f => f.any badColor) then s.diag ||| 0x01 else s.diag),
               saved := Config.savedDraw s.draws,
               fb := fs.foldl (fun m f => m.writeBytes 0 (frameBytes (s.rot + 1) f)) s.fb, io := rest,
               draws := s.draws + 1,
               trace := s.trace ++ fs.map (fun f => .fbWrite 0 (frameBytes (s.rot + 1) f) hold .ok) ++
                 [.resp .ok .none] } := by
  rw [scopedRotation_eq, runFrames_ok hf (by exact hio)]
  simp [respond, emit, restored, overridden, hk]

theorem runFrames_fail {pre post : List RawGrid} {f : RawGrid} (hf : ∀ g ∈ pre ++ f :: post, g.length = 64)
    (hio : s.io = List.replicate pre.length .ok ++ .fail :: rest) :
    ∃ fb n, runFrames hold (pre ++ f :: post) s = (.fail,
      { s with diag := (bif (pre ++ [f]).any (fun f => f.any badColor) then s.diag ||| 0x01 else s.diag),
               frameIdx := none, fb := fb, io := rest, draws := n,
               trace := s.trace ++ pre.map (fun f => .fbWrite 0 (frameBytes s.rot f) hold .ok) ++
                 [.fbWrite 0 (frameBytes s.rot f) hold .fail] }) := by
  obtain ⟨fb, n, k, h⟩ := writeFrames_fail (post := post) (s := { s with frameIdx := some 0 })
    (fun g hg => hf g (by simp [hg])) (hf f (by simp)) hio hold
  exact ⟨fb, n, by rw [runFrames_eq, h]⟩

theorem scopedRotation_runFrames_fail {pre post : List RawGrid} {f : RawGrid}
    (hf : ∀ g ∈ pre ++ f :: post, g.length = 64) (hk : s.frameIdx = none)
    (hio : s.io = List.replicate pre.length .ok ++ .fail :: rest) :
    ∃ fb n q, scopedRotation (runFrames hold (pre ++ f :: post)) s =
      { s with diag := (bif (pre ++ [f]).any (fun f => f.any badColor) then s.diag ||| 0x01 else s.diag),
               saved := q, fb := fb, io := rest, draws := n,
               trace := s.trace ++ pre.map (fun f => .fbWrite 0 (frameBytes (s.rot + 1) f) hold .ok) ++
                 [.fbWrite 0 (frameBytes (s.rot + 1) f) hold .fail, .resp .ioerr .none] } := by
  obtain ⟨fb, n, h⟩ := runFrames_fail (s := overridden s) (hold := hold) hf hio
  refine ⟨fb, n + 1, Config.savedDraw n, ?_⟩
  rw [scopedRotation_eq, h]
  simp [respond, emit, restored, overridden, hk]

end

/-- `u` is `s` after a display command that wrote every frame: what R115 and R116 say of the path without a failure. -/
def AllShown (fs : List RawGrid) (hold : Hold) (rest : List IoAnswer) (s u : State) : Prop :=
  u = { s with diag := (bif fs.any (fun f => f.any badColor) then s.diag ||| 0x01 else s.diag),
               saved := u.saved, fb := u.fb, io := rest, draws := u.draws,
               trace := s.trace ++ fs.map (fun f =>
                 .fbWrite 0 (encodeBytes (f.map validColor) (s.rot + 1)) (some hold) .ok) ++ [.resp .ok .none] } ∧
    (fs = [] → u.fb = s.fb) ∧
    (∀ f, fs.getLast? = some f → u.fb.readBytes 0 128 = encodeBytes (f.map validColor) (s.rot + 1)) ∧
    (∀ off, 128 ≤ off → u.fb.read off = s.fb.read off)

/-- `u` is `s` after a display command that wrote the frames of `pre` and failed on `f`: what R115 and R116 say of the
path with a failure. -/
def StoppedAt (pre : List RawGrid) (f : RawGrid) (hold : Hold) (rest : List IoAnswer) (s u : State) : Prop :=
  u = { s with diag := (bif (pre ++ [f]).any (fun f => f.any badColor) then s.diag ||| 0x01 else s.diag),
               saved := u.saved, fb := u.fb, io := rest, draws := u.draws,
               trace := s.trace ++ pre.map (fun f =>
                   .fbWrite 0 (encodeBytes (f.map validColor) (s.rot + 1)) (some hold) .ok) ++
                 [.fbWrite 0 (encodeBytes (f.map validColor) (s.rot + 1)) (some hold) .fail, .resp .ioerr .none] } ∧
    (∀ off, 128 ≤ off → u.fb.read off = s.fb.read off)

section
variable {i : Instr} {hold : Hold} {s : State} {rest : List IoAnswer} (hL : s.Legal)
include hL

theorem shows_all {fs : List RawGrid} (hi : exec i s = .next (scopedRotation (runFrames (some hold) fs) s))
    (hf : ∀ f ∈ fs, f.length = 64) (hio : s.io = List.replicate fs.length .ok ++ rest) :
    ∃ u, exec i s = .next u ∧ AllShown fs hold rest s u := by
  obtain ⟨hw, -, -, hk⟩ := hL
  obtain ⟨-, hlast, hpast⟩ := foldl_frames_last hw (s.rot + 1) fs
  rw [scopedRotation_runFrames_ok hf hk hio] at hi
  exact ⟨_, hi, rfl, by rintro rfl; rfl, hlast, hpast⟩

theorem shows_until_failure {pre post : List RawGrid} {f : RawGrid}
    (hi : exec i s = .next (scopedRotation (runFrames (some hold) (pre ++ f :: post)) s))
    (hf : ∀ g ∈ pre ++ f :: post, g.length = 64) (hio : s.io = List.replicate pre.length .ok ++ .fail :: rest) :
    ∃ u, exec i s = .next u ∧ StoppedAt pre f hold rest s u := by
  obtain ⟨hw, -, -, hk⟩ := hL
  obtain ⟨fb, n, q, h⟩ := scopedRotation_runFrames_fail (hold := some hold) hf hk hio
  rw [h] at hi
  exact ⟨_, hi, rfl, fun off hoff => exec_read_past_end hi hw hoff⟩

end

/-! ### The obligations -/

/-- Settles O32: an all-black glyph is trimmed to itself, any other to the rows `trim_eq_rows` names. -/
theorem trimKeepsTheInkRows : Obligations.TrimKeepsTheInkRows := by
  intro s gl hl hlen
  refine ⟨fun hall => ?_, fun hink => ?_⟩
  · rw [exec_trim hl hlen, trim_black (blackRow_iff.mpr hall)]
    rfl
  · obtain ⟨a, b, hab, hb, htrim, hout, hfirst, hlast⟩ :=
      trim_eq_rows (Dvd.intro 5 hlen.symm) (blackRow_eq_false_iff.mpr hink)
    refine ⟨a, b, hab, by omega, ?_, hout, hfirst, hlast⟩
    rw [exec_trim hl hlen, htrim]
    rfl

/-- Settles O33: `recolor` maps pixel by pixel. -/
theorem recolorMapsEachPixel : Obligations.RecolorMapsEachPixel := by
  refine fun s p fg bg hl => ⟨_, exec_recolor hl p fg bg, recolor_length p fg bg, fun k hk => ?_, fun k c hk hc => ?_⟩
  · rw [recolor_getElem?, hk, Option.map_some, if_pos rfl]
  · rw [recolor_getElem?, hk, Option.map_some, if_neg hc]

/-- Settles O34: in a legal READY block the glyph has 40 pixels, so the trail begins at 48. -/
theorem renderletterFramesTheGlyph : Obligations.RenderletterFramesTheGlyph := by
  intro s t fg bg hl hL
  have hlen := lookup_length hL hl t
  refine ⟨_, exec_renderletter hl t fg bg, renderLetter_64 hL hl t fg bg, fun k hk => ?_,
    fun k c hk => renderLetter_glyph s.ft t fg bg hk⟩
  rcases hk with hlead | ⟨hlo, hhi⟩
  · exact renderLetter_lead s.ft t fg bg hlead
  · exact renderLetter_trail s.ft t fg bg (by omega) (by omega)

/-- Settles O35: the string's lengths add up, and each piece is found behind those before it. -/
theorem renderstringJoinsThePieces : Obligations.RenderstringJoinsThePieces := by
  intro s t fg bg hl
  refine ⟨_, exec_renderstring hl t fg bg, renderString_length s.ft t fg bg, renderString_take s.ft t fg bg,
    renderString_drop s.ft t fg bg, ?_⟩
  rintro pre c post rfl
  exact renderString_piece s.ft fg bg pre post c

/-- Settles O36: a step of one or more is a natural number, for which `scroll` takes exactly the frames that fit. -/
theorem scrollCutsTheFrames : Obligations.ScrollCutsTheFrames := by
  refine fun s seq n hl => ⟨fun hn => exec_scroll_refused hl hn seq, fun hn => ?_⟩
  have hstep : 1 ≤ n.toNat := by omega
  refine ⟨_, exec_scroll_ok hl hn seq, fun k => ?_,
    fun k f hk => ⟨scroll_mem_length hstep (List.mem_of_getElem? hk), scroll_frame hstep hk⟩⟩
  rw [lt_scroll_length seq hstep, ← Int.toNat_of_nonneg (show 0 ≤ n by omega)]
  norm_cast

/-- Settles O37: one frame under the override code, whose word at `(r, 7 - c)` is the frame's element `8r + c`. -/
theorem showletterDisplaysTheLetter : Obligations.ShowletterDisplaysTheLetter := by
  intro s t fg bg rest hl hL
  have h64 := renderLetter_64 hL hl t fg bg
  have hexec := exec_showletter hl t fg bg
  obtain ⟨hw, -⟩ := hL
  have hlen := frameBytes_length (s.rot + 1) (renderLetter s.ft t fg bg)
  refine ⟨fun hio => ?_, fun hio => ?_⟩
  · rw [scopedRotation_writeFrame_ok h64 hio] at hexec
    refine ⟨_, hexec, ?_, fun r c v hv => ?_, fun off hoff => exec_read_past_end hexec hw hoff⟩ <;> dsimp only
    · rw [readBytes_writeBytes hw hlen]
    · rw [word_writeBytes_whole hw hlen, frameBytes_override_word s.rot hv]
  · rw [scopedRotation_writeFrame_fail h64 hio] at hexec
    refine ⟨_, _, hexec, ?_, hlen, fun r c v hv => frameBytes_override_word s.rot hv,
      fun off hoff => exec_read_past_end hexec hw hoff⟩
    dsimp only

/-- Settles O38: every frame of a scroll has 64 elements, so the frame loop writes each as it stands. -/
theorem showmsgScrollsTheText : Obligations.ShowmsgScrollsTheText := by
  intro s t fg bg hold rest hl hL frames
  have hf : ∀ f ∈ frames, f.length = 64 := fun f hf => scroll_mem_length (by decide) hf
  have hexec : exec (.showmsg t fg bg hold) s = .next (scopedRotation (runFrames (some hold) frames) s) :=
    exec_showmsg hl t fg bg hold
  refine ⟨fun hio => shows_all hL hexec hf hio, fun pre post f hfs hio => ?_⟩
  rw [hfs] at hf hexec
  exact shows_until_failure hL hexec hf hio

/-- Settles O39: every letter frame of a legal READY block has 64 elements. -/
theorem flashShowsEveryLetter : Obligations.FlashShowsEveryLetter := by
  intro s t fg bg hold rest hl hL frames
  have hf : ∀ f ∈ frames, f.length = 64 := List.forall_mem_map.mpr fun c _ => renderLetter_64 hL hl [c] fg bg
  have hexec : exec (.flash t fg bg hold) s = .next (scopedRotation (runFrames (some hold) frames) s) :=
    exec_flash hl t fg bg hold
  have hlen : frames.length = t.length := List.length_map _
  refine ⟨fun hio => shows_all hL hexec hf (hlen ▸ hio), fun pre post f hfs hio => ?_⟩
  rw [hfs] at hf hexec
  exact shows_until_failure hL hexec hf hio

end Sys2Proof.Machine
end

section
/-! Proofs of the family 45_mirror_ops.md: HMIRROR and VMIRROR (R118 to R121), FLIPH, FLIPH.R, FLIPV and FLIPV.R on each
outcome of their transactions (R122, R123), and the laws of the mirrors (R124). -/

namespace Sys2Proof.Machine

/-! ### Mirrors as maps of rows and columns (45_mirror_ops.md R118, R119) -/

/-- The row or column as far from the other edge. -/
def opposite (c : Coord) : Coord := ⟨7 - c.val, by omega⟩

theorem opposite_involutive : Function.Involutive opposite := by
  intro c
  apply Fin.ext
  dsimp only [opposite]
  omega

theorem id_involutive : Function.Involutive (id : Coord → Coord) := fun _ => rfl

/-- `mirror` keeps the size of a grid, and puts at row `r`, column `c` what stood at row `fr r`, column `fc c`. -/
structure Mirrors {α : Type} (mirror : List α → List α) (fr fc : Coord → Coord) : Prop where
  length : ∀ {g : List α}, g.length = 64 → (mirror g).length = 64
  getElem? : ∀ {g : List α}, g.length = 64 → ∀ r c : Coord,
    (mirror g)[8 * r.val + c.val]? = g[8 * (fr r).val + (fc c).val]?

theorem mirrors_hmirror {α : Type} : Mirrors (hmirror (α := α)) id opposite := ⟨hmirror_length, hmirror_getElem?⟩

theorem mirrors_vmirror {α : Type} : Mirrors (vmirror (α := α)) opposite id := ⟨vmirror_length, vmirror_getElem?⟩

theorem mirrors_reverse {α : Type} : Mirrors (List.reverse (α := α)) opposite opposite where
  length h := List.length_reverse.trans h
  getElem? {g} h r c := by
    have hindex : g.length - 1 - (8 * r.val + c.val) = 8 * (opposite r).val + (opposite c).val := by
      dsimp only [opposite]
      omega
    rw [List.getElem?_reverse (by omega), hindex]

namespace Mirrors

variable {α : Type} {m m' : List α → List α} {fr fc fr' fc' : Coord → Coord} {g : List α}

theorem comp (hm : Mirrors m fr fc) (hm' : Mirrors m' fr' fc') : Mirrors (m ∘ m') (fr' ∘ fr) (fc' ∘ fc) where
  length h := hm.length (hm'.length h)
  getElem? h r c := (hm.getElem? (hm'.length h) r c).trans (hm'.getElem? h (fr r) (fc c))

/-- The maps of rows and columns decide the mirrored grid. -/
theorem unique (hm : Mirrors m fr fc) (hm' : Mirrors m' fr fc) (h : g.length = 64) : m g = m' g :=
  grid_ext (hm.length h) (hm'.length h) fun r c => (hm.getElem? h r c).trans (hm'.getElem? h r c).symm

/-- What stands at row `r`, column `c` goes to row `fr r`, column `fc c`. -/
theorem getElem?_moved (hm : Mirrors m fr fc) (hr : Function.Involutive fr) (hc : Function.Involutive fc)
    (h : g.length = 64) (r c : Coord) : (m g)[8 * (fr r).val + (fc c).val]? = g[8 * r.val + c.val]? := by
  rw [hm.getElem? h, hr r, hc c]

theorem involutive (hm : Mirrors m fr fc) (hr : Function.Involutive fr) (hc : Function.Involutive fc)
    (h : g.length = 64) : m (m g) = g :=
  grid_ext (hm.length (hm.length h)) h fun r c =>
    (hm.getElem? (hm.length h) r c).trans (hm.getElem?_moved hr hc h r c)

end Mirrors

/-! ### HMIRROR and VMIRROR in a READY block (45_mirror_ops.md R120, R121) -/

theorem exec_hmirror {s : State} {g : List RGB} (hl : s.life = .ready) (hg : g.length = 64) :
    exec (.hmirror g) s = .next { s with trace := s.trace ++ [.resp .ok (.grid (hmirror g))] } := by
  have hwf : (Instr.hmirror g).wf = true := beq_iff_eq.mpr hg
  rw [exec, execHmirror, hwf, served_ready _ _ hl]
  rfl

theorem exec_vmirror {s : State} {g : List RGB} (hl : s.life = .ready) (hg : g.length = 64) :
    exec (.vmirror g) s = .next { s with trace := s.trace ++ [.resp .ok (.grid (vmirror g))] } := by
  have hwf : (Instr.vmirror g).wf = true := beq_iff_eq.mpr hg
  rw [exec, execVmirror, hwf, served_ready _ _ hl]
  rfl

/-! ### The flips: the picture and the bytes they make (45_mirror_ops.md R122, R123) -/

/-- In a READY block `i` reads, mirrors by `m` and answers; it writes back if `redraw`. -/
def FlipsBy (m : List RGB → List RGB) (redraw : Bool) (i : Instr) : Prop :=
  ∀ s : State, s.life = .ready → exec i s = .next (flipWith m redraw s)

theorem fliph_flips : FlipsBy hmirror false .fliph := fun s hl => served_ready _ s hl
theorem fliphR_flips : FlipsBy hmirror true .fliphR := fun s hl => served_ready _ s hl
theorem flipv_flips : FlipsBy vmirror false .flipv := fun s hl => served_ready _ s hl
theorem flipvR_flips : FlipsBy vmirror true .flipvR := fun s hl => served_ready _ s hl

theorem flippedBytes_length (m : List RGB → List RGB) (s : State) : (flippedBytes m s).length = 128 :=
  encodeBytes_length _ s.rot

/-- On each outcome of its transactions, the flip `i` and its redrawing form `iR` do what R122 and R123 say of a flip that
takes row `r`, column `c` of the picture to row `fr r`, column `fc c`. -/
def FlipsThePicture (i iR : Instr) (fr fc : Coord → Coord) : Prop :=
  ∀ (s : State) (rest : List IoAnswer), s.life = .ready → s.fb.wf = true →
    (∀ j : Instr, j = i ∨ j = iR → s.io = .fail :: rest →
      exec j s = .next { s with io := rest, trace := s.trace ++ [.fbRead 0 128 .fail, .resp .ioerr .none] }) ∧
    ∃ g : List RGB, g.length = 64 ∧
      (∀ r c : Coord, g[8 * (fr r).val + (fc c).val]? = some (unpack (s.fb.word (slotFor s.rot c r)))) ∧
      (s.io = .ok :: rest →
        exec i s = .next { s with io := rest, trace := s.trace ++ [.fbRead 0 128 .ok, .resp .ok (.grid g)] }) ∧
      (s.io = .ok :: .ok :: rest →
        ∃ t, exec iR s = .next t ∧
          t = { s with fb := t.fb, io := rest, trace := s.trace ++
            [.fbRead 0 128 .ok, .fbWrite 0 (t.fb.readBytes 0 128) none .ok, .resp .ok (.grid g)] } ∧
          (∀ r c : Coord, t.fb.word (slotFor s.rot (fc c) (fr r)) = s.fb.word (slotFor s.rot c r)) ∧
          (∀ off, 128 ≤ off → t.fb.read off = s.fb.read off)) ∧
      (s.io = .ok :: .fail :: rest →
        ∃ t bytes, exec iR s = .next t ∧
          t = { s with fb := t.fb, io := rest, draws := t.draws, trace := s.trace ++
            [.fbRead 0 128 .ok, .fbWrite 0 bytes none .fail, .resp .ioerr .none] } ∧
          bytes.length = 128 ∧
          (∀ r c : Coord, wordAt bytes (2 * (slotFor s.rot (fc c) (fr r)).val) = s.fb.word (slotFor s.rot c r)) ∧
          (∀ off, 128 ≤ off → t.fb.read off = s.fb.read off))

section
variable {m : List RGB → List RGB} {fr fc : Coord → Coord} (hm : Mirrors m fr fc) (hr : Function.Involutive fr)
  (hc : Function.Involutive fc)
include hm hr hc

/-- The picture's color at row `r`, column `c` is answered at row `fr r`, column `fc c`. -/
theorem flippedGrid_getElem? (s : State) (r c : Coord) :
    (m (decodeBytes (s.fb.readBytes 0 128) s.rot))[8 * (fr r).val + (fc c).val]? =
      some (unpack (s.fb.word (slotFor s.rot c r))) :=
  (hm.getElem?_moved hr hc (decodeBytes_length _ _) r c).trans (decodeBytes_at s r c)

/-- The word of row `r`, column `c` is written at the slot of row `fr r`, column `fc c`. -/
theorem flippedBytes_word (s : State) (r c : Coord) :
    wordAt (flippedBytes m s) (2 * (slotFor s.rot (fc c) (fr r)).val) = s.fb.word (slotFor s.rot c r) := by
  rw [flippedBytes, ← slotForIndex_elementOf, encodeBytes_word, elementOf, List.getD_eq_getElem?_getD,
    flippedGrid_getElem? hm hr hc, Option.getD_some, pack_unpack]

/-- One clause for each outcome of the transactions, from what a flip does and where the mirror moves a row and a
column. -/
theorem flipsThePicture {i iR : Instr} (hi : FlipsBy m false i) (hiR : FlipsBy m true iR) :
    FlipsThePicture i iR fr fc := by
  intro s rest hl hw
  have hlen := flippedBytes_length m s
  refine ⟨?_, m (decodeBytes (s.fb.readBytes 0 128) s.rot), hm.length (decodeBytes_length _ _),
    flippedGrid_getElem? hm hr hc s, fun hio => ?_, fun hio => ?_, fun hio => ?_⟩
  · rintro j (rfl | rfl) hio
    · rw [hi s hl, flipWith_readFail m _ hio]
    · rw [hiR s hl, flipWith_readFail m _ hio]
  · rw [hi s hl, flipWith_ok m hio]
  · rw [hiR s hl, flipWith_redraw m hio]
    refine ⟨_, rfl, ?_, fun r c => ?_, fun off hoff => ?_⟩ <;> dsimp only
    · rw [readBytes_writeBytes hw hlen]
    · rw [word_writeBytes_whole hw hlen, flippedBytes_word hm hr hc]
    · exact read_writeBytes_past_end s.fb hlen hoff
  · rw [hiR s hl, flipWith_redrawFail m hio]
    refine ⟨_, flippedBytes m s, rfl, ?_, hlen, flippedBytes_word hm hr hc s, fun off hoff => ?_⟩ <;> dsimp only
    exact read_writeBytes_past_end s.fb (failedBytes_length s.draws .whole) hoff

end

/-! ### Two redrawing flips (45_mirror_ops.md R124) -/

/-- Two buffers in canonical form that hold the same words are equal. -/
theorem Memory.ext_of_words {a b : Memory} (ha : a.wf = true) (hb : b.wf = true) (h : ∀ v : Slot, a.word v = b.word v) :
    a = b := by
  have hbytes : a.readBytes 0 128 = b.readBytes 0 128 :=
    bytes_ext (Memory.readBytes_length _ _ _) (Memory.readBytes_length _ _ _) fun v =>
      (wordAt_readBytes a v).trans ((h v).trans (wordAt_readBytes b v).symm)
  refine Memory.ext_of_wf a b ha hb fun off => ?_
  by_cases hoff : off < 128
  · have hread := congrArg (·.getD off 0) hbytes
    simpa only [Memory.readBytes_getD _ _ _ _ _ hoff, Nat.zero_add] using hread
  · rw [Memory.read_past_end a ha (by omega), Memory.read_past_end b hb (by omega)]

/-- A redrawing flip with both answers `ok` carries each word to its mirrored slot, and leaves the block READY under the
same code. -/
theorem FlipsThePicture.redraw {i iR : Instr} {fr fc : Coord → Coord} (hf : FlipsThePicture i iR fr fc) {s t : State}
    {rest : List IoAnswer} (hl : s.life = .ready) (hw : s.fb.wf = true) (hio : s.io = .ok :: .ok :: rest)
    (ht : exec iR s = .next t) :
    t.life = .ready ∧ t.rot = s.rot ∧ t.io = rest ∧
      ∀ r c : Coord, t.fb.word (slotFor s.rot (fc c) (fr r)) = s.fb.word (slotFor s.rot c r) := by
  obtain ⟨-, g, -, -, -, hok, -⟩ := hf s rest hl hw
  obtain ⟨t', ht', hstate, hword, -⟩ := hok hio
  obtain rfl : t' = t := Host.Outcome.next.inj (ht'.symm.trans ht)
  rw [hstate]
  exact ⟨hl, rfl, rfl, hword⟩

/-- The second flip carries each word back to the slot it came from. -/
theorem FlipsThePicture.twice {i iR : Instr} {fr fc : Coord → Coord} (hf : FlipsThePicture i iR fr fc)
    (hr : Function.Involutive fr) (hc : Function.Involutive fc) {s t u : State} {rest : List IoAnswer}
    (hl : s.life = .ready) (hw : s.fb.wf = true) (hio : s.io = .ok :: .ok :: .ok :: .ok :: rest)
    (ht : exec iR s = .next t) (hu : exec iR t = .next u) : u.fb = s.fb := by
  have hwt := exec_fb_wf ht hw
  obtain ⟨hlt, hrot, hiot, hfirst⟩ := hf.redraw hl hw hio ht
  obtain ⟨-, -, -, hsecond⟩ := hf.redraw hlt hwt hiot hu
  rw [hrot] at hsecond
  refine Memory.ext_of_words (exec_fb_wf hu hwt) hw fun v => ?_
  have hback := hsecond (fr (logicalY s.rot v)) (fc (logicalX s.rot v))
  rwa [hr, hc, hfirst, slotFor_logical] at hback

theorem fliph_flipsThePicture : FlipsThePicture .fliph .fliphR id opposite :=
  flipsThePicture mirrors_hmirror id_involutive opposite_involutive fliph_flips fliphR_flips

theorem flipv_flipsThePicture : FlipsThePicture .flipv .flipvR opposite id :=
  flipsThePicture mirrors_vmirror opposite_involutive id_involutive flipv_flips flipvR_flips

/-! ### The obligations -/

/-- Settles O42: FLIPH keeps the rows and takes each column to the opposite one. -/
theorem fliphMirrorsThePicture : Obligations.FliphMirrorsThePicture := fliph_flipsThePicture

/-- Settles O43: FLIPV takes each row to the opposite one and keeps the columns. -/
theorem flipvMirrorsThePicture : Obligations.FlipvMirrorsThePicture := flipv_flipsThePicture

/-- Settles O41: the maps of rows and columns are involutions that compose to the reversal's, and a redrawing flip moves the
words of `fb` by the same maps. -/
theorem mirrorLaws : Obligations.MirrorLaws := by
  refine ⟨fun g hg => ⟨?_, ?_⟩, fun g hg => ⟨?_, ?_⟩, ?_⟩
  · exact mirrors_hmirror.involutive id_involutive opposite_involutive hg
  · exact mirrors_vmirror.involutive opposite_involutive id_involutive hg
  · exact (mirrors_hmirror.comp mirrors_vmirror).unique mirrors_reverse hg
  · exact (mirrors_vmirror.comp mirrors_hmirror).unique mirrors_reverse hg
  · rintro s t u i rest (rfl | rfl) hl hw hio ht hu
    · exact fliph_flipsThePicture.twice id_involutive opposite_involutive hl hw hio ht hu
    · exact flipv_flipsThePicture.twice opposite_involutive id_involutive hl hw hio ht hu

/-- Settles O40: the answered grids are `hmirror g` and `vmirror g`, element by element. -/
theorem mirrorsAnswerTheMirroredGrid : Obligations.MirrorsAnswerTheMirroredGrid :=
  fun _ _ hl hg =>
    ⟨⟨_, exec_hmirror hl hg, hmirror_length hg, hmirror_getElem? hg⟩,
      ⟨_, exec_vmirror hl hg, vmirror_length hg, vmirror_getElem? hg⟩⟩

end Sys2Proof.Machine
end

section
/-! Proofs of the family 46_diagnostics.md: GETDIAG and CLRDIAG in a READY block (R125, R126). -/

namespace Sys2Proof.Machine

theorem exec_getdiag {s : State} (hl : s.life = .ready) :
    exec .getdiag s = .next (respond .ok (.byte s.diag) s) := by
  rw [exec, execGetdiag, served_ready _ _ hl]

/-- A byte whose bits 7..4 are 0 is below 16. -/
theorem toNat_lt_of_highNibble_eq_zero {b : Byte} (h : b.extractLsb' 4 4 = 0) : b.toNat < 16 := by
  have hnibble : b.toNat / 2 ^ 4 % 2 ^ 4 = 0 := by
    rw [← Nat.shiftRight_eq_div_pow, ← BitVec.extractLsb'_toNat, h]
    rfl
  have hbyte : b.toNat < 256 := b.isLt
  omega

theorem State.Legal.diag_lt {s : State} (hs : s.Legal) : s.diag.toNat < 16 := by
  obtain ⟨-, hreserved, -⟩ := hs
  exact toNat_lt_of_highNibble_eq_zero hreserved

/-- Settles O44: each command's outcome in a READY block, and DIAG's reserved bits in a legal state. -/
theorem diagIsReadAndCleared : Obligations.DiagIsReadAndCleared :=
  fun _ hl => ⟨exec_getdiag hl, State.Legal.diag_lt, exec_clrdiag.trans (by rw [if_pos hl]; rfl)⟩

end Sys2Proof.Machine
end

section
/-! Proofs of the family 60_exceptions.md: the step of a presented command (R127), the run that is refused (R128), a block
that is not ready (R132), and the runs of a host that keeps its duties (R128, R134). -/

namespace Sys2Proof.Machine

/-! ### A block that is not ready (60_exceptions.md R132) -/

/-- Every command runs behind the protocol of `served`, and its type check is its well-formedness. -/
theorem exec_eq_served (i : Instr) : ∃ body, exec i = served i.wf body := by
  cases i <;> exact ⟨_, rfl⟩

theorem exec_notReady {i : Instr} {s : State} (hi : i.wf = true) (hl : s.life ≠ .ready) :
    exec i s = .next (respond .notReady .none s) := by
  obtain ⟨body, hbody⟩ := exec_eq_served i
  rw [hbody, hi, served_notReady body s hl]

/-! ### What a step takes from what is presented (60_exceptions.md R127, R128) -/

theorem fontLoad_inbox (a : Assets) (s : State) : (fontLoad a s).inbox = s.inbox := by
  by_cases hl : s.life = .init
  · rw [fontLoad_init a hl]
    cases loadedTable a <;> rfl
  · rw [fontLoad_late a hl]

/-- An input that keeps the host's duties does not stop the machine, and takes nothing more from what is presented. -/
theorem hostInput_goes {i : Input} (hi : i.dutiful = true) (s : State) :
    ∃ t, hostInput i s = .next t ∧ t.inbox = s.inbox := by
  cases i with
  | command c => exact ⟨s, rfl, rfl⟩
  | overlap c => cases hi
  | assets a => exact ⟨_, rfl, fontLoad_inbox a s⟩
  | hostWrite off v => exact ⟨_, if_pos (of_decide_eq_true hi), rfl⟩
  | reset => exact ⟨_, rfl, rfl⟩

theorem step_overlap {s : State} {c : Command} {rest : List Input} (h : s.inbox = .overlap c :: rest) :
    step s = .refused .commandWhileBusy := by
  rw [step, h]
  rfl

/-! ### A host that keeps its duties -/

theorem State.Dutiful.head {s : State} {i : Input} {rest : List Input} (hs : s.Dutiful) (h : s.inbox = i :: rest) :
    i.dutiful = true :=
  List.all_eq_true.1 hs i (by simp [h])

/-- The duties hold of the rest when they hold of all that is presented. -/
theorem State.Dutiful.of_tail {s t : State} (hs : s.Dutiful) (h : t.inbox = s.inbox.tail) : t.Dutiful := by
  refine List.all_eq_true.2 fun i hi => List.all_eq_true.1 hs i (List.mem_of_mem_tail ?_)
  rwa [← h]

/-- A step waits, or runs a command, which always answers, or takes an input that does not stop the machine. -/
theorem State.Dutiful.step_goes {s : State} (hs : s.Dutiful) : ∃ t, step s = .next t ∧ t.inbox = s.inbox.tail := by
  rcases step_cases s with ⟨h, e⟩ | ⟨c, rest, h, e⟩ | ⟨i, rest, h, e⟩ <;> rw [e, h]
  · exact ⟨s, rfl, h⟩
  · obtain ⟨t, ht, hin, -⟩ := Answered.runCommand c { s with inbox := rest }
    exact ⟨t, ht, hin⟩
  · exact hostInput_goes (hs.head h) { s with inbox := rest }

/-! ### The obligations -/

/-- Settles O9: a well-formed command passes the type check, and what is then served is `NOTREADY`. -/
theorem notReadyServesNothing : Obligations.NotReadyServesNothing :=
  fun _ _ hi hl => exec_notReady hi hl

/-- Settles O56: the step goes on and leaves the tail of what is presented, of which the duties hold. -/
theorem dutifulRunsNeverStop : Obligations.DutifulRunsNeverStop := by
  intro s hs
  obtain ⟨t, ht, htail⟩ := hs.step_goes
  exact ⟨t, ht, hs.of_tail htail, htail⟩

/-- Settles O5: a step with a command first decodes it and runs what it decodes to. -/
theorem stepRunsTheDecodedCommand : Obligations.StepRunsTheDecodedCommand :=
  fun _ _ _ _ h hd => step_of_decode h hd

/-- Settles O55: a command presented while another runs is an input that stops the machine. -/
theorem overlappingCommandRefusesTheRun : Obligations.OverlappingCommandRefusesTheRun :=
  fun _ _ _ h => step_overlap h

end Sys2Proof.Machine
end

section
/-! Proofs of the family 70_reset_and_hazards.md: what a reset leaves (R141), and that no command but SETROT and SETROT.R
ends with another `ROT` than it found (R145). -/

namespace Sys2Proof.Machine

/-! ### What reset leaves (70_reset_and_hazards.md R141) -/

theorem step_reset {s : State} {rest : List Input} (h : s.inbox = .reset :: rest) :
    step s = .next (resetInput { s with inbox := rest }) := by
  rw [step, h]
  rfl

/-! ### `ROT` across a command (10_state.md R21, 70_reset_and_hazards.md R145) -/

/-- A block that does not run the body answers with a response alone, so only the body can move `ROT`. -/
theorem served_rot {typed : Bool} {body : State → State} {s t : State} (hb : (body s).rot = s.rot)
    (h : served typed body s = .next t) : t.rot = s.rot := by
  rcases served_cases typed body s with ⟨-, e⟩ | ⟨-, -, e⟩ | ⟨-, -, e⟩ <;> rw [e] at h <;> cases h
  · rfl
  · rfl
  · exact hb

theorem rot_of_memRead {sp : Span} {s u : State} {r : Option (List Byte)} (h : memRead sp s = (r, u)) :
    u.rot = s.rot := by
  rw [← memRead_rot sp s, h]

theorem flipWith_rot (mirror : List RGB → List RGB) (redraw : Bool) (s : State) :
    (flipWith mirror redraw s).rot = s.rot := by
  rw [flipWith_eq]
  cases (memRead .whole s).1 with
  | none => exact memRead_rot .whole s
  | some bytes => cases redraw <;> simp

/-- SETROT and SETROT.R aside, a body never writes `ROT`, or it is a display command's, which restores it from `SAVED` on
every path (44_text_renderer.md R108). -/
theorem exec_rot {i : Instr} {s t : State} (hi : ∀ a, i ≠ .setrot a ∧ i ≠ .setrotR a) (h : exec i s = .next t) :
    t.rot = s.rot := by
  cases i with (simp only [exec] at h; refine served_rot ?_ h)
  | setrot a => exact absurd rfl (hi a).1
  | setrotR a => exact absurd rfl (hi a).2
  | unpack | getrot | lookup | trim | recolor | renderletter | renderstring | hmirror | vmirror | getdiag | clrdiag => rfl
  | pack | slot | sloti | scroll => split <;> rfl
  | validate c => exact validate_rot c s
  | checkgrid g => exact checkGrid_rot g s
  | fbDecode => split <;> next hread => rw [respond_rot, rot_of_memRead hread]
  | getpix x y =>
    split
    · rfl
    · split <;> next hread => rw [respond_rot, rot_of_memRead hread]
  | fbEncode g => rw [respondIo_rot, memWrite_rot, checkGrid_rot]
  | setpix x y c =>
    dsimp only
    split
    · exact validate_rot c s
    · rw [respondIo_rot, memWrite_rot, validate_rot]
  | showletter t fg bg => exact scopedRotation_rot (writeFrame_saved _ _ _)
  | showmsg t fg bg hold | flash t fg bg hold => exact scopedRotation_rot (runFrames_saved _ _ _)
  | fliph | fliphR | flipv | flipvR => exact flipWith_rot _ _ s

/-! ### The obligations -/

/-- Settles O50: the display commands restore `ROT`, and the other commands do not write it. -/
theorem onlySetrotMovesTheRotation : Obligations.OnlySetrotMovesTheRotation :=
  fun _ _ _ hi h => exec_rot hi h

/-- Settles O45: the launch holds the reset values, and a reset input goes back to the launch in front of the same `fb`. -/
theorem resetLeavesTheResetValues : Obligations.ResetLeavesTheResetValues := by
  refine ⟨fun m l a s hs => ?_, fun s rest h => ?_⟩
  · rw [hs]
    exact ⟨rfl, rfl, rfl, rfl, rfl, rfl⟩
  · exact ⟨_, step_reset h, rfl, rfl, rfl, rfl, rfl, rfl, rfl, rfl⟩

end Sys2Proof.Machine
end
